-- ==== Sys2Proof/Word.lean ====
section
/-! DEFINITION. The words of DH-CORE: 32-bit digits, command words and MMIO words (00_scope.md R7), and IOBUF bytes. -/

namespace Sys2Proof

/-- A 32-bit word: a digit, a command word, an extension word or an MMIO word (R7, R105). -/
abbrev Word := BitVec 32

/-- One byte of the byte-transfer buffer (R59). -/
abbrev Byte := BitVec 8

end Sys2Proof
end

