-- ==== Sys2Proof/Machine/Magnitude.lean ====
section
/-! DEFINITION. The notation of 00_scope.md R10 on naturals, and the byte strings of 41_regfile.md R204. -/

namespace Sys2Proof.Machine

/-- `b = 2^32` (R7). -/
def radix : Nat := 2^32

/-- `bitlen(v)` (R10). -/
def bitLen (v : Nat) : Nat := if v = 0 then 0 else Nat.log2 v + 1

/-- `len(v)`, the normalized digit length: `max(1, ceil(bitlen(v) / 32))` (R10). -/
def digitLen (v : Nat) : Nat := max 1 ((bitLen v + 31) / 32)

/-- `digit(v, i)` (R10). -/
def digit (v i : Nat) : Nat := (v >>> (32 * i)) % 2^32

/-- `VMAX`, the largest value a register of `maxw` digits holds (R9). -/
def vmaxOf (maxw : Nat) : Nat := 2^(32 * maxw) - 1

/-- `BE(s)`: a byte string read as a big-endian number (R204). -/
def beValue (s : List Byte) : Nat := s.foldl (fun acc x => acc * 256 + x.toNat) 0

/-- The length of `MinBE(v)` in bytes (R204). -/
def minBELen (v : Nat) : Nat := if v = 0 then 1 else (bitLen v + 7) / 8

/-- `MinBE(v)`: the minimal big-endian encoding (R204). -/
def minBE (v : Nat) : List Byte :=
  (List.range (minBELen v)).map fun j => BitVec.ofNat 8 (v >>> (8 * (minBELen v - 1 - j)))

end Sys2Proof.Machine
end

