-- ==== Sys2Proof/Config.lean ====
section
/-! DEFINITION. What a build of DH-CORE fixes (00_scope.md R8), and the values the spec leaves open, as constants without a body. -/

namespace Sys2Proof

/-- The two build parameters the spec leaves to the platform: the register capacity `MAXW` in digits (R8) and
the base address of the MMIO window `DHC_BASE` (R106). State carries one, and no step changes it (log 1, log 2). -/
structure Config where
  maxw    : Nat
  dhcBase : Nat
deriving DecidableEq, Repr

/-- The spec's default capacity (R8), and base address 0 (DESIGN CHOICE, log 2: the spec leaves the address open; unsafe
only for a claim that names an absolute address). -/
def Config.standard : Config := { maxw := 256, dhcBase := 0 }

/-- The legal range of `MAXW` (R8) and the alignment of the window (R106). -/
abbrev Config.legal (c : Config) : Prop := 2 ≤ c.maxw ∧ c.maxw ≤ 512 ∧ c.dhcBase % 8192 = 0

/-- `CMDW`: the size of the command memory in words, exactly 1024 (R8, R57). -/
abbrev cmdWords : Nat := 1024

/-- The size of the MMIO window in bytes (R100, R106). -/
abbrev windowBytes : Nat := 8192

/-- FREE VALUE (log 8): what the entropy input offers at the given draw, asked for the given number of bits (R58, U4). -/
opaque Config.entropy : Nat → Nat → Nat

/-- FREE VALUE (log 7): the stale digits a register write leaves above the new length (R42, U1). -/
opaque Config.staleDigits : Nat → Nat

/-- FREE VALUE (log 9): what an unspecified host read returns (R107, R452, U2, U3). -/
opaque Config.busRead : Nat → Word

/-- FREE VALUE (log 5): the contents of an IOBUF byte after the given power-on (R59, U6). -/
opaque Config.powerOnByte : Nat → Nat → Byte

/-- FREE VALUE (log 6): the contents of a CMDMEM word after the given power-on (R57, U5). -/
opaque Config.powerOnWord : Nat → Nat → Word

end Sys2Proof
end

