-- ==== Sys2Proof/Syntax.lean ====
section
/-! DEFINITION. The DHC-1 command set as syntax: one constructor per row of the opcode map (30_encoding.md R146). -/

namespace Sys2Proof

/-- The number of a magnitude register, B0 to B15 (R41, R144). -/
abbrev RegIdx := Fin 16

/-- The number of a ring context, R0 to R3 (R51, R144). -/
abbrev RingIdx := Fin 4

/-- A DHC-1 command. Operands stand in the order of the assembler syntax (R150): destinations first, then sources,
then the ring; `imm` is the whole extension word (R142). -/
inductive Instr where
  | nop
  | halt
  | mov     (rd ra : RegIdx)
  | zero    (rd : RegIdx)
  | ldi     (rd : RegIdx) (imm : Word)
  | ldb     (rd : RegIdx)
  | stb     (ra : RegIdx)
  | rand    (rd : RegIdx) (imm : Word)
  | bitset  (rd : RegIdx) (imm : Word)
  | bitclr  (rd : RegIdx) (imm : Word)
  | bittest (ra : RegIdx) (imm : Word)
  | bitlen  (rd ra : RegIdx)
  | inc2    (rd : RegIdx)
  | cmp     (ra rb : RegIdx)
  | add     (rd ra rb : RegIdx)
  | sub     (rd ra rb : RegIdx)
  | mul     (rd ra rb : RegIdx)
  | sqr     (rd ra : RegIdx)
  | mulw    (rd ra : RegIdx) (imm : Word)
  | shl     (rd ra : RegIdx) (imm : Word)
  | shr     (rd ra : RegIdx) (imm : Word)
  | divrem  (rd re ra rb : RegIdx)
  | rset    (rg : RingIdx) (ra : RegIdx)
  | rclr    (rg : RingIdx)
  | rred    (rd ra : RegIdx) (rg : RingIdx)
  | rmul    (rd ra rb : RegIdx) (rg : RingIdx)
  | rdiff   (rd ra rb : RegIdx) (rg : RingIdx)
  | rpow    (rd ra rb : RegIdx) (rg : RingIdx)
  | rpowi   (rd : RegIdx) (imm : Word) (rb : RegIdx) (rg : RingIdx)
  | rtom    (rd ra : RegIdx) (rg : RingIdx)
  | rfromm  (rd ra : RegIdx) (rg : RingIdx)
  | rmmul   (rd ra rb : RegIdx) (rg : RingIdx)
deriving DecidableEq, Repr

end Sys2Proof
end

