-- ==== Sys2Proof/Machine/State.lean ====
section
/-! DEFINITION. Everything DH-CORE holds (10_state.md R60), the reasons a step of the model can stop, and the state after
power-on reset (70_reset_and_hazards.md R450). Plain data throughout. -/

namespace Sys2Proof.Machine

/-- The causes of a DH-CORE fault, and "none" (60_exceptions.md R401). They are values of the FAULTCODE register; a fault of
DH-CORE is a next state of the model, not an end of the run (R404). -/
inductive FaultCode where
  | none
  | ringNotSet
  | evenModulus
  | byteCount
  | bitCount
  | bitIndex
  | negativeDifference
  | divideByZero
  | negativeMultiplier
  | negativeShift
  | illegalCommand
  | unwrittenRegister
  | capacityOverflow
  | commandOverrun
deriving DecidableEq, Repr

/-- The model stops with no fault of its own: every fault of DH-CORE is trap entry, a next state (R404). -/
inductive Fault where
deriving DecidableEq, Repr

/-- Why the model gives no meaning to a step. -/
inductive Refusal where
  /-- Raised by `exec` for a command that has no meaning yet (none is left); safe. -/
  | notModelled (mnemonic : String)
  /-- Raised by the fetch in `step`: the sequencer fetches a CMDMEM word that nothing has written since power-on. The spec
  treats it as "refuse" (93_implementation_defined.md U5; log 6); safe. -/
  | unwrittenCommandWord (index : Nat)
deriving DecidableEq, Repr

/-- A magnitude register (R41, R42). `val` is the number the digits below `len` hold; `stale` is the number the digits at and
above `len` hold, which no command and no host access can observe; `len` is LEN and `wr` is WR. -/
structure Reg where
  wr    : Bool
  len   : Nat
  val   : Nat
  stale : Nat
deriving DecidableEq, Repr

/-- A register as reset leaves it: unwritten, with every digit scrubbed (R43, R450). -/
def Reg.reset : Reg := { wr := false, len := 0, val := 0, stale := 0 }

/-- A ring context (R51). -/
structure Ring where
  valid : Bool
  m     : Nat
  k     : Nat
  mu    : Nat
  odd   : Bool
  minv  : Word
deriving DecidableEq, Repr

/-- A ring context as reset and RCLR leave it (R282, R450). -/
def Ring.cleared : Ring := { valid := false, m := 0, k := 0, mu := 0, odd := false, minv := 0 }

/-- The FLAGS register (R50). -/
structure Flags where
  lt  : Bool
  eq  : Bool
  gt  : Bool
  bit : Bool
deriving DecidableEq, Repr

/-- A memory whose cells have `w` bits: the cells written so far, as pairs of an index and the contents, the indexes strictly
rising. An index with no entry has not been written since power-on. IOBUF is a `Memory 8` and CMDMEM a `Memory 32`. -/
abbrev Memory (w : Nat) := List (Nat × BitVec w)

/-- The canonical form: the indexes rise strictly. (An unlisted cell has no written value, so no entry is superfluous.) -/
abbrev Memory.wf {w : Nat} (m : Memory w) : Prop := m.Pairwise (fun x y => x.1 < y.1)

/-- What the world outside the core does between two commands (R40, R450; log 3). `bytes` is the width of a host access in
bytes and `addr` its byte address on the platform. -/
inductive HostEvent where
  /-- A host write. `value` is the 32 bits written (an access of another width writes nothing, R107). -/
  | write (bytes addr : Nat) (value : Word)
  /-- A host read; the word returned is added to `State.responses`. -/
  | read (bytes addr : Nat)
  /-- The platform's reset input: power-on reset (R450). -/
  | powerOn
  /-- No access: the core takes its turn. -/
  | noAccess
deriving DecidableEq, Repr

/-- The whole machine (R60). -/
structure State where
  /-- The build parameters; no step changes them (R8). -/
  cfg       : Config
  /-- B0 to B15 (R41). -/
  regs      : Vector Reg 16
  /-- R0 to R3 (R51). -/
  rings     : Vector Ring 4
  /-- FLAGS (R50). -/
  flags     : Flags
  /-- PC, a word index into CMDMEM (R45). -/
  pc        : BitVec 11
  /-- CTRL.IE (R53). -/
  ie        : Bool
  /-- STATUS.BUSY (R53). -/
  busy      : Bool
  /-- STATUS.DONE (R53). -/
  done      : Bool
  /-- STATUS.FAULT (R53). -/
  fault     : Bool
  /-- STATUS.HWERR (R53, R451). -/
  hwerr     : Bool
  /-- FAULTCODE (R401). -/
  faultCode : FaultCode
  /-- FAULTPC (R404). -/
  faultPc   : BitVec 11
  /-- FAULTCMD (R404). -/
  faultCmd  : Word
  /-- IOLEN (R59, R104). -/
  ioLen     : BitVec 16
  /-- IOBUF, by byte (R59, R103). -/
  ioBuf     : Memory 8
  /-- CMDMEM, by word (R57, R105). -/
  cmdMem    : Memory 32
  /-- The sequencer's scratch store, its digits as one number (R55; log 13). -/
  scratch   : Nat
  /-- The model's own: what the host and the platform will do, oldest first (log 3). -/
  inputs    : List HostEvent
  /-- The model's own: the words host reads have returned, newest first (log 15). -/
  responses : List Word
  /-- The model's own: how many entropy draws have been made (R58; log 8). -/
  draws     : Nat
  /-- The model's own: how many other unspecified values have been used (log 7, log 9). -/
  frees     : Nat
  /-- The model's own: how many power-on resets have happened (log 23). -/
  epoch     : Nat
deriving DecidableEq, Repr

/-- The machine right after power-on reset (R60, R450), with the default build parameters and no host event waiting. -/
def State.reset : State :=
  { cfg := Config.standard, regs := Vector.replicate 16 Reg.reset, rings := Vector.replicate 4 Ring.cleared,
    flags := { lt := false, eq := false, gt := false, bit := false },
    pc := 0, ie := false, busy := false, done := false, fault := false, hwerr := false,
    faultCode := .none, faultPc := 0, faultCmd := 0, ioLen := 0, ioBuf := [], cmdMem := [], scratch := 0,
    inputs := [], responses := [], draws := 0, frees := 0, epoch := 0 }

end Sys2Proof.Machine
end

