-- ==== Sys2Proof/Machine/Ops.lean ====
section
/-! DEFINITION. The operations the commands and the host share: memory cells, register and ring writes, IOBUF bytes, the end of a
command (40_control.md R180), trap entry and trap return (60_exceptions.md R404, R405), and reset (70_reset_and_hazards.md R450). -/

namespace Sys2Proof.Machine

/-- The written contents of a cell, if anything has written it since power-on. -/
def Memory.read? {w : Nat} (m : Memory w) (a : Nat) : Option (BitVec w) :=
  match m with
  | [] => none
  | (b, x) :: rest => if b = a then some x else Memory.read? rest a

/-- Write one cell, keeping the indexes rising. -/
def Memory.write {w : Nat} (m : Memory w) (a : Nat) (v : BitVec w) : Memory w :=
  match m with
  | [] => [(a, v)]
  | (b, x) :: rest =>
    if a < b then (a, v) :: (b, x) :: rest
    else if a = b then (a, v) :: rest
    else (b, x) :: Memory.write rest a v

/-- Write consecutive cells from index `a` on. -/
def Memory.writeList {w : Nat} (m : Memory w) (a : Nat) (vs : List (BitVec w)) : Memory w :=
  match vs with
  | [] => m
  | v :: rest => Memory.writeList (m.write a v) (a + 1) rest

/-- `VMAX` of this build (R9). -/
def State.vmax (s : State) : Nat := vmaxOf s.cfg.maxw

/-- `IOBYTES = 4 * MAXW` (R8). -/
def State.ioBytes (s : State) : Nat := 4 * s.cfg.maxw

/-- IOBUF byte `j`; a byte nothing has written since power-on holds an unspecified value (R59, U6; log 5). -/
def State.ioByte (s : State) (j : Nat) : Byte := (s.ioBuf.read? j).getD (Config.powerOnByte s.epoch j)

/-- CMDMEM word `i`; a word nothing has written since power-on holds an unspecified value (R57; log 6). -/
def State.cmdWord (s : State) (i : Nat) : Word := (s.cmdMem.read? i).getD (Config.powerOnWord s.epoch i)

/-- IOBUF bytes `0..n-1` (R204, R205). -/
def State.ioString (s : State) (n : Nat) : List Byte := (List.range n).map s.ioByte

/-- Physical digit `j` of a register, stale digits included (R41, R42). -/
def Reg.dig (r : Reg) (j : Nat) : Nat := if j < r.len then digit r.val j else digit r.stale (j - r.len)

/-- A register holding `v` normalized, with the given digits above its length (R42). -/
def Reg.holding (v stale : Nat) : Reg := { wr := true, len := digitLen v, val := v, stale := stale }

/-- What a write of `v` leaves above its length: any digits (R42, U1; log 7). -/
def State.staleAbove (s : State) (v : Nat) : Nat := Config.staleDigits s.frees % 2^(32 * (s.cfg.maxw - digitLen v))

/-- `B[i] <- v`: the value normalized, WR set, the digits above the length unspecified (R11, R42, R43). -/
def State.writeReg (s : State) (i : RegIdx) (v : Nat) : State :=
  { s with regs := s.regs.set i (Reg.holding v (s.staleAbove v)), frees := s.frees + 1 }

/-- Zero a register and scrub its whole capacity (R201). -/
def State.scrubReg (s : State) (i : RegIdx) : State := { s with regs := s.regs.set i (Reg.holding 0 0) }

/-- `RING[r] <- ctx` (R11). -/
def State.writeRing (s : State) (r : RingIdx) (ctx : Ring) : State := { s with rings := s.rings.set r ctx }

/-- `FLAGS <- f` (R11, R50). -/
def State.writeFlags (s : State) (f : Flags) : State := { s with flags := f }

/-- `IoWrite` of a byte string at offset 0, and its length into IOLEN (R104, R206). -/
def State.exportBytes (s : State) (bytes : List Byte) : State :=
  { s with ioBuf := s.ioBuf.writeList 0 bytes, ioLen := BitVec.ofNat 16 bytes.length }

/-- `Entropy(n)`: any value in `[0, 2^n)` (R11, R58; log 8). -/
def State.entropy (s : State) (n : Nat) : Nat := Config.entropy s.draws n % 2^n

/-- One draw of the entropy input is used up (R58). -/
def State.drawn (s : State) : State := { s with draws := s.draws + 1 }

/-- The end of a command that did not fault: PC moves past its `n` words and scratch is cleared (R55, R180). -/
def State.advance (s : State) (n : Nat) : State := { s with pc := s.pc + BitVec.ofNat 11 n, scratch := 0 }

/-- HALT's effect on the run: it ends with DONE (R181). -/
def State.endRun (s : State) : State := { s with busy := false, done := true }

/-- Trap entry, the same for every fault (R404); scratch is cleared (R55, R400). -/
def State.trap (s : State) (c : FaultCode) : State :=
  { s with
    fault := true, faultCode := c, faultPc := s.pc,
    faultCmd := if c = .commandOverrun ∧ cmdWords ≤ s.pc.toNat then 0 else s.cmdWord s.pc.toNat,
    busy := false, done := false, scratch := 0 }

/-- The first half of trap return, CTRL.CLR while idle: DONE, FAULT, HWERR and the FAULT registers are cleared (R54, R405). -/
def State.clearStatus (s : State) : State :=
  { s with done := false, fault := false, hwerr := false, faultCode := .none, faultPc := 0, faultCmd := 0 }

/-- The second half of trap return, and the start of any run: an accepted CTRL.START (R54, R185, R405). -/
def State.start (s : State) : State := { s with busy := true, done := false }

/-- A host interface error is recorded (R451). -/
def State.setHwerr (s : State) : State := { s with hwerr := true }

/-- Soft reset: the reset values, with IOBUF and CMDMEM unchanged (R450, R455). The build parameters and the model's own
fields stay. -/
def State.softReset (s : State) : State :=
  { State.reset with
    cfg := s.cfg, ioBuf := s.ioBuf, cmdMem := s.cmdMem,
    inputs := s.inputs, responses := s.responses, draws := s.draws, frees := s.frees, epoch := s.epoch }

/-- Power-on reset: as soft reset, and the contents of IOBUF and CMDMEM become unspecified anew (R450; log 23). -/
def State.powerOnReset (s : State) : State := { s.softReset with ioBuf := [], cmdMem := [], epoch := s.epoch + 1 }

/-- Run one command of `n` words (R180): `body` reads, checks and computes; its staged writes commit when it raises no fault,
and otherwise are dropped and the trap is taken from the state before the command (R11, R400, R403). -/
def State.command (s : State) (n : Nat) (body : Except FaultCode State) : Host.Outcome State Fault Refusal :=
  match body with
  | .ok t => .next (t.advance n)
  | .error c => .next (s.trap c)

end Sys2Proof.Machine
end

