-- ==== Sys2Proof/Machine/Operands.lean ====
section
/-! DEFINITION. The operand forms of DHC-1 and the checks its pseudocode makes (00_scope.md R11; 30_encoding.md R142, R144;
60_exceptions.md R402). Each answers a value or the fault it raises. -/

namespace Sys2Proof.Machine

/-- `B[i]` as a source: its value, or UnwrittenRegister (R11, R43). -/
def State.source (s : State) (i : RegIdx) : Except FaultCode Nat :=
  if s.regs[i].wr then .ok s.regs[i].val else .error .unwrittenRegister

/-- `RING[r]` as an operand: the context, or RingNotSet (R11, R280). -/
def State.context (s : State) (r : RingIdx) : Except FaultCode Ring :=
  if s.rings[r].valid then .ok s.rings[r] else .error .ringNotSet

/-- `RING[r]` for a Montgomery command: EvenModulus comes after RingNotSet (R323, R402). -/
def State.oddContext (s : State) (r : RingIdx) : Except FaultCode Ring :=
  match s.context r with
  | .ok ctx => if ctx.odd then .ok ctx else .error .evenModulus
  | .error c => .error c

/-- `imm` read as a natural number (R142). -/
def immUnsigned (imm : Word) : Nat := imm.toNat

/-- `sint32(imm)` (R10, R142). -/
def immSigned (imm : Word) : Int := imm.toInt

/-- `sint32(imm)` where a negative value faults (R142, R249, R251, R252). -/
def immNonNegative (imm : Word) (c : FaultCode) : Except FaultCode Nat :=
  if immSigned imm < 0 then .error c else .ok (immSigned imm).toNat

/-- An exact result that must fit a register: above `VMAX` it is CapacityOverflow (R9). -/
def State.fitted (s : State) (v : Nat) : Except FaultCode Nat :=
  if s.vmax < v then .error .capacityOverflow else .ok v

end Sys2Proof.Machine
end

