-- ==== Sys2Proof/Machine/Control.lean ====
section
/-! DEFINITION. The control commands NOP and HALT (40_control.md R181, R183). -/

namespace Sys2Proof.Machine

/-- NOP (R183). -/
def execNop (s : State) : Host.Outcome State Fault Refusal := s.command 1 (.ok s)

/-- HALT (R181). -/
def execHalt (s : State) : Host.Outcome State Fault Refusal := s.command 1 (.ok s.endRun)

end Sys2Proof.Machine
end

