-- ==== Sys2Proof/Machine/Flags.lean ====
section
/-! DEFINITION. The two flag computations of DHC-1 (10_state.md R50): CMP's and BITTEST's. -/

namespace Sys2Proof.Machine

/-- LT, EQ and GT from a comparison; BIT stays (R50, R240). -/
def Flags.compared (f : Flags) (a b : Nat) : Flags :=
  { f with lt := decide (a < b), eq := decide (a = b), gt := decide (b < a) }

/-- BIT from a tested bit; LT, EQ and GT stay (R50, R210). -/
def Flags.tested (f : Flags) (a i : Nat) : Flags := { f with bit := a.testBit i }

end Sys2Proof.Machine
end

