-- ==== Sys2Proof/Machine/Kernel.lean ====
section
/-! DEFINITION. The Magnitude Kernel commands (42_kernel.md). Each computes the exact value its command rule states; the digit
datapaths are in Machine/Datapath.lean (00_scope.md R3; log 18). -/

namespace Sys2Proof.Machine

/-- CMP (R240). -/
def execCmp (ra rb : RegIdx) (s : State) : Host.Outcome State Fault Refusal :=
  s.command 1 do
    let a ← s.source ra
    let b ← s.source rb
    return s.writeFlags (s.flags.compared a b)

/-- ADD (R242). -/
def execAdd (rd ra rb : RegIdx) (s : State) : Host.Outcome State Fault Refusal :=
  s.command 1 do
    let a ← s.source ra
    let b ← s.source rb
    let v ← s.fitted (a + b)
    return s.writeReg rd v

/-- SUB (R244). -/
def execSub (rd ra rb : RegIdx) (s : State) : Host.Outcome State Fault Refusal :=
  s.command 1 do
    let a ← s.source ra
    let b ← s.source rb
    if a < b then .error .negativeDifference else .ok (s.writeReg rd (a - b))

/-- MUL (R246). -/
def execMul (rd ra rb : RegIdx) (s : State) : Host.Outcome State Fault Refusal :=
  s.command 1 do
    let a ← s.source ra
    let b ← s.source rb
    let v ← s.fitted (a * b)
    return s.writeReg rd v

/-- SQR (R248). -/
def execSqr (rd ra : RegIdx) (s : State) : Host.Outcome State Fault Refusal :=
  s.command 1 do
    let a ← s.source ra
    let v ← s.fitted (a * a)
    return s.writeReg rd v

/-- MULW (R249): the multiplier is checked before the product. -/
def execMulw (rd ra : RegIdx) (imm : Word) (s : State) : Host.Outcome State Fault Refusal :=
  s.command 2 do
    let a ← s.source ra
    let c ← immNonNegative imm .negativeMultiplier
    let v ← s.fitted (a * c)
    return s.writeReg rd v

/-- `a * 2^n`, or CapacityOverflow when it exceeds `VMAX`; the test is R251's, on the bit length, so that no power of two
above the capacity is ever computed (R250, R251; log 19). -/
def State.shiftedLeft (s : State) (a n : Nat) : Except FaultCode Nat :=
  if a = 0 then .ok 0
  else if 32 * s.cfg.maxw < bitLen a + n then .error .capacityOverflow
  else .ok (a * 2^n)

/-- SHL (R251). -/
def execShl (rd ra : RegIdx) (imm : Word) (s : State) : Host.Outcome State Fault Refusal :=
  s.command 2 do
    let a ← s.source ra
    let n ← immNonNegative imm .negativeShift
    let v ← s.shiftedLeft a n
    return s.writeReg rd v

/-- SHR (R252): `floor(a / 2^n)`, written as a shift. -/
def execShr (rd ra : RegIdx) (imm : Word) (s : State) : Host.Outcome State Fault Refusal :=
  s.command 2 do
    let a ← s.source ra
    let n ← immNonNegative imm .negativeShift
    return s.writeReg rd (a >>> n)

/-- DIVREM (R254). One register as both destinations is illegal at decode (R148), and here too. -/
def execDivrem (rd re ra rb : RegIdx) (s : State) : Host.Outcome State Fault Refusal :=
  s.command 1 (
    if rd = re then .error .illegalCommand
    else do
      let a ← s.source ra
      let b ← s.source rb
      if b = 0 then .error .divideByZero
      else .ok ((s.writeReg rd (a / b)).writeReg re (a % b)))

end Sys2Proof.Machine
end

