-- ==== Sys2Proof/Machine/Ring.lean ====
section
/-! DEFINITION. The ModulusRing commands and the Barrett-reduction pipeline (43_ring.md), with the Montgomery constant that RSET
computes (44_montgomery.md R320). -/

namespace Sys2Proof.Machine

/-- One step of the Newton iteration for `m0^(-1) mod 2^32` (R320). -/
def newtonStep (m0 x : Word) : Word := x * (2 - m0 * x)

/-- Four Newton iterations from the seed `m0` (R320). -/
def newtonInverse (m0 : Word) : Word := newtonStep m0 (newtonStep m0 (newtonStep m0 (newtonStep m0 m0)))

/-- `MontInv(m) = -m^(-1) mod 2^32`: the iteration on the low digit, negated (R320). -/
def montInv (m : Nat) : Word := - newtonInverse (BitVec.ofNat 32 m)

/-- The context RSET stores for the modulus `m` (R51, R281). -/
def Ring.ofModulus (m : Nat) : Ring :=
  { valid := true, m := m, k := digitLen m, mu := radix^(2 * digitLen m) / m,
    odd := decide (m % 2 = 1), minv := if m % 2 = 1 then montInv m else 0 }

/-- One conditional subtraction of the modulus. -/
def subtractOnce (m r : Nat) : Nat := if m ≤ r then r - m else r

/-- The quotient estimate `q3` of the Barrett pipeline (R283). -/
def Ring.barrettQuotient (c : Ring) (x : Nat) : Nat := x / radix^(c.k - 1) * c.mu / radix^(c.k + 1)

/-- `r1 - r2`, with `b^(k+1)` added when it is negative (R283). -/
def Ring.barrettResidue (c : Ring) (x : Nat) : Nat :=
  let r1 := x % radix^(c.k + 1)
  let r2 := c.barrettQuotient x * c.m % radix^(c.k + 1)
  if r1 < r2 then r1 + radix^(c.k + 1) - r2 else r1 - r2

/-- `BarrettReduce(x)` (R283): the loop subtracts `m` "at most two times" (log 22). -/
def Ring.barrettReduce (c : Ring) (x : Nat) : Nat := subtractOnce c.m (subtractOnce c.m (c.barrettResidue x))

/-- `BarrettMod(p)`: reduce a product that is not already below `m` (R286, R353). -/
def Ring.barrettMod (c : Ring) (p : Nat) : Nat := if c.m ≤ p then c.barrettReduce p else p

/-- `Reduce(x)` (R284). -/
def Ring.reduce (c : Ring) (x : Nat) : Nat := if 2 * c.k < digitLen x then x % c.m else c.barrettMod x

/-- `PreReduce(x)` (R284). -/
def Ring.preReduce (c : Ring) (x : Nat) : Nat :=
  if 2 * c.k < digitLen x then x % c.m
  else if c.k < digitLen x then c.barrettReduce x
  else x

/-- The result of RMUL (R286). -/
def Ring.multiply (c : Ring) (a b : Nat) : Nat := c.barrettMod (c.preReduce a * c.preReduce b)

/-- The result of RDIFF: `|a - b|` reduced, then `m - result` when `a < b`, literally (R287, 90_conflicts.md C12). -/
def Ring.difference (c : Ring) (a b : Nat) : Nat :=
  if a = b then 0
  else if a < b then c.m - c.reduce (b - a)
  else c.reduce (a - b)

/-- RSET (R281). -/
def execRset (rg : RingIdx) (ra : RegIdx) (s : State) : Host.Outcome State Fault Refusal :=
  s.command 1 do
    let m ← s.source ra
    if m = 0 then .error .divideByZero else .ok (s.writeRing rg (Ring.ofModulus m))

/-- RCLR (R282). -/
def execRclr (rg : RingIdx) (s : State) : Host.Outcome State Fault Refusal := s.command 1 (.ok (s.writeRing rg Ring.cleared))

/-- RRED (R285). -/
def execRred (rd ra : RegIdx) (rg : RingIdx) (s : State) : Host.Outcome State Fault Refusal :=
  s.command 1 do
    let x ← s.source ra
    let ctx ← s.context rg
    return s.writeReg rd (ctx.reduce x)

/-- RMUL (R286). -/
def execRmul (rd ra rb : RegIdx) (rg : RingIdx) (s : State) : Host.Outcome State Fault Refusal :=
  s.command 1 do
    let a ← s.source ra
    let b ← s.source rb
    let ctx ← s.context rg
    return s.writeReg rd (ctx.multiply a b)

/-- RDIFF (R287). -/
def execRdiff (rd ra rb : RegIdx) (rg : RingIdx) (s : State) : Host.Outcome State Fault Refusal :=
  s.command 1 do
    let a ← s.source ra
    let b ← s.source rb
    let ctx ← s.context rg
    return s.writeReg rd (ctx.difference a b)

end Sys2Proof.Machine
end

