-- ==== Sys2Proof/Machine/Montgomery.lean ====
section
/-! DEFINITION. The Montgomery-multiplication engine and its commands (44_montgomery.md). -/

namespace Sys2Proof.Machine

/-- Digit step `i` of REDC: fold in the multiple of `m` that cancels digit `i` of the running value (R321). -/
def Ring.redcStep (c : Ring) (t i : Nat) : Nat := t + digit t i * c.minv.toNat % 2^32 * c.m * radix^i

/-- The digit steps `0 .. n-1` of REDC (R321). -/
def Ring.redcFold (c : Ring) (n t : Nat) : Nat := (List.range n).foldl c.redcStep t

/-- `Redc(t)`: the low `k` digits are cancelled and dropped, then one final conditional subtraction (R321,
90_conflicts.md C6). -/
def Ring.redc (c : Ring) (t : Nat) : Nat := subtractOnce c.m (c.redcFold c.k t / radix^c.k)

/-- `ToMont(x)` (R322). -/
def Ring.toMont (c : Ring) (x : Nat) : Nat := c.reduce (c.reduce x * radix^c.k)

/-- `FromMont(y)` (R322). -/
def Ring.fromMont (c : Ring) (y : Nat) : Nat := c.redc (c.reduce y)

/-- `MontMul(x, y)`, for operands below `m` (R322). -/
def Ring.montMul (c : Ring) (x y : Nat) : Nat := c.redc (x * y)

/-- RTOM (R324). -/
def execRtom (rd ra : RegIdx) (rg : RingIdx) (s : State) : Host.Outcome State Fault Refusal :=
  s.command 1 do
    let x ← s.source ra
    let ctx ← s.oddContext rg
    return s.writeReg rd (ctx.toMont x)

/-- RFROMM (R325). -/
def execRfromm (rd ra : RegIdx) (rg : RingIdx) (s : State) : Host.Outcome State Fault Refusal :=
  s.command 1 do
    let y ← s.source ra
    let ctx ← s.oddContext rg
    return s.writeReg rd (ctx.fromMont y)

/-- RMMUL: both operands are reduced first (R326). -/
def execRmmul (rd ra rb : RegIdx) (rg : RingIdx) (s : State) : Host.Outcome State Fault Refusal :=
  s.command 1 do
    let x ← s.source ra
    let y ← s.source rb
    let ctx ← s.oddContext rg
    return s.writeReg rd (ctx.montMul (ctx.reduce x) (ctx.reduce y))

end Sys2Proof.Machine
end

