-- ==== Sys2Proof/Machine/Pow.lean ====
section
/-! DEFINITION. The square-and-multiply exponentiation controller and its commands (45_pow.md). -/

namespace Sys2Proof.Machine

/-- `PowMod(base, e, m)`, the architectural result of every exponentiation, with `0^0 = 1` (R350). -/
def powMod (base e m : Nat) : Nat := base^e % m

/-- The exponent scan from bit `i` up, `n` bits: where the bit is set multiply the accumulator by the base power, then square
the base power regardless (R352, R353). -/
def scanLsb (mul : Nat → Nat → Nat) (e : Nat) : Nat → Nat → Nat → Nat → Nat
  | 0, _, acc, _ => acc
  | n + 1, i, acc, x => scanLsb mul e n (i + 1) (if e.testBit i then mul acc x else acc) (mul x x)

/-- The exponent scan from bit `n-1` down to bit 0: square the accumulator, then where the bit is set fold in the base
(R355, R356). -/
def scanMsb (square fold : Nat → Nat) (e : Nat) : Nat → Nat → Nat
  | 0, acc => acc
  | n + 1, acc => scanMsb square fold e n (if e.testBit n then fold (square acc) else square acc)

/-- `OddPow(base, e)`, the Montgomery path (R352). -/
def Ring.oddPow (c : Ring) (base e : Nat) : Nat :=
  c.fromMont (scanLsb c.montMul e (bitLen e) 0 (c.toMont 1) (c.toMont base))

/-- `EvenPow(base, e)`, the Barrett path (R353). -/
def Ring.evenPow (c : Ring) (base e : Nat) : Nat :=
  scanLsb (fun x y => c.barrettMod (x * y)) e (bitLen e) 0 (c.reduce 1) (c.reduce base)

/-- `SmallPow(c, e)` for a single-word base (R355). -/
def Ring.smallPow (c : Ring) (base e : Nat) : Nat :=
  scanMsb (fun a => c.barrettMod (a * a)) (fun a => c.reduce (a * base)) e (bitLen e) (c.reduce 1)

/-- `Pow2(e)`, the doubling path for base 2 (R356). -/
def Ring.pow2 (c : Ring) (e : Nat) : Nat :=
  scanMsb (fun a => c.barrettMod (a * a)) (fun a => subtractOnce c.m (2 * a)) e (bitLen e) (c.reduce 1)

/-- The result of RPOW: odd moduli take the Montgomery path, even ones the Barrett path (R351). -/
def Ring.pow (c : Ring) (base e : Nat) : Nat := if c.odd then c.oddPow base e else c.evenPow base e

/-- The result of RPOWI: base 2 takes the doubling path under either parity (R354, 90_conflicts.md C5). -/
def Ring.powImm (c : Ring) (base e : Nat) : Nat := if base = 2 then c.pow2 e else c.smallPow base e

/-- RPOW (R351). -/
def execRpow (rd ra rb : RegIdx) (rg : RingIdx) (s : State) : Host.Outcome State Fault Refusal :=
  s.command 1 do
    let base ← s.source ra
    let e ← s.source rb
    let ctx ← s.context rg
    return s.writeReg rd (ctx.pow base e)

/-- RPOWI (R354). -/
def execRpowi (rd : RegIdx) (imm : Word) (rb : RegIdx) (rg : RingIdx) (s : State) : Host.Outcome State Fault Refusal :=
  s.command 2 do
    let e ← s.source rb
    let ctx ← s.context rg
    return s.writeReg rd (ctx.powImm (immUnsigned imm) e)

end Sys2Proof.Machine
end

