-- ==== Sys2Proof/Machine/RegFile.lean ====
section
/-! DEFINITION. The register-file, byte-transfer and bit commands (41_regfile.md). -/

namespace Sys2Proof.Machine

/-- MOV (R200). -/
def execMov (rd ra : RegIdx) (s : State) : Host.Outcome State Fault Refusal :=
  s.command 1 do
    let a ← s.source ra
    return s.writeReg rd a

/-- ZERO (R201). -/
def execZero (rd : RegIdx) (s : State) : Host.Outcome State Fault Refusal := s.command 1 (.ok (s.scrubReg rd))

/-- LDI (R202). -/
def execLdi (rd : RegIdx) (imm : Word) (s : State) : Host.Outcome State Fault Refusal :=
  s.command 2 (.ok (s.writeReg rd (immUnsigned imm)))

/-- LDB (R205). -/
def execLdb (rd : RegIdx) (s : State) : Host.Outcome State Fault Refusal :=
  s.command 1 (
    if s.ioBytes < s.ioLen.toNat then .error .byteCount
    else .ok (s.writeReg rd (beValue (s.ioString s.ioLen.toNat))))

/-- STB (R206). -/
def execStb (ra : RegIdx) (s : State) : Host.Outcome State Fault Refusal :=
  s.command 1 do
    let v ← s.source ra
    return s.exportBytes (minBE v)

/-- RAND (R207): no draw when the bit count is 0. -/
def execRand (rd : RegIdx) (imm : Word) (s : State) : Host.Outcome State Fault Refusal :=
  s.command 2 (
    if 32 * s.cfg.maxw < immUnsigned imm then .error .bitCount
    else if immUnsigned imm = 0 then .ok (s.writeReg rd 0)
    else .ok (s.drawn.writeReg rd (s.entropy (immUnsigned imm))))

/-- BITSET (R203, R208). -/
def execBitset (rd : RegIdx) (imm : Word) (s : State) : Host.Outcome State Fault Refusal :=
  s.command 2 do
    let a ← s.source rd
    if 32 * s.cfg.maxw ≤ immUnsigned imm then .error .bitIndex
    else .ok (s.writeReg rd (a ||| 2^(immUnsigned imm)))

/-- BITCLR (R203, R209): `a - 2^i` when bit `i` is 1, else `a`. -/
def execBitclr (rd : RegIdx) (imm : Word) (s : State) : Host.Outcome State Fault Refusal :=
  s.command 2 do
    let a ← s.source rd
    return s.writeReg rd (if a.testBit (immUnsigned imm) then a - 2^(immUnsigned imm) else a)

/-- BITTEST (R210). -/
def execBittest (ra : RegIdx) (imm : Word) (s : State) : Host.Outcome State Fault Refusal :=
  s.command 2 do
    let a ← s.source ra
    return s.writeFlags (s.flags.tested a (immUnsigned imm))

/-- BITLEN (R211). -/
def execBitlen (rd ra : RegIdx) (s : State) : Host.Outcome State Fault Refusal :=
  s.command 1 do
    let a ← s.source ra
    return s.writeReg rd (bitLen a)

/-- INC2 (R203, R212). -/
def execInc2 (rd : RegIdx) (s : State) : Host.Outcome State Fault Refusal :=
  s.command 1 do
    let a ← s.source rd
    let v ← s.fitted (a + 2)
    return s.writeReg rd v

end Sys2Proof.Machine
end

