-- ==== Sys2Proof/Machine/Dispatch.lean ====
section
/-! DEFINITION. The meaning of every DHC-1 command: one arm per constructor (30_encoding.md R146). -/

namespace Sys2Proof.Machine

/-- Execute one command: the back half of the step (40_control.md R180). -/
def exec (i : Instr) (s : State) : Host.Outcome State Fault Refusal :=
  match i with
  | .nop => Sys2Proof.Machine.execNop s
  | .halt => Sys2Proof.Machine.execHalt s
  | .mov rd ra => Sys2Proof.Machine.execMov rd ra s
  | .zero rd => Sys2Proof.Machine.execZero rd s
  | .ldi rd imm => Sys2Proof.Machine.execLdi rd imm s
  | .ldb rd => Sys2Proof.Machine.execLdb rd s
  | .stb ra => Sys2Proof.Machine.execStb ra s
  | .rand rd imm => Sys2Proof.Machine.execRand rd imm s
  | .bitset rd imm => Sys2Proof.Machine.execBitset rd imm s
  | .bitclr rd imm => Sys2Proof.Machine.execBitclr rd imm s
  | .bittest ra imm => Sys2Proof.Machine.execBittest ra imm s
  | .bitlen rd ra => Sys2Proof.Machine.execBitlen rd ra s
  | .inc2 rd => Sys2Proof.Machine.execInc2 rd s
  | .cmp ra rb => Sys2Proof.Machine.execCmp ra rb s
  | .add rd ra rb => Sys2Proof.Machine.execAdd rd ra rb s
  | .sub rd ra rb => Sys2Proof.Machine.execSub rd ra rb s
  | .mul rd ra rb => Sys2Proof.Machine.execMul rd ra rb s
  | .sqr rd ra => Sys2Proof.Machine.execSqr rd ra s
  | .mulw rd ra imm => Sys2Proof.Machine.execMulw rd ra imm s
  | .shl rd ra imm => Sys2Proof.Machine.execShl rd ra imm s
  | .shr rd ra imm => Sys2Proof.Machine.execShr rd ra imm s
  | .divrem rd re ra rb => Sys2Proof.Machine.execDivrem rd re ra rb s
  | .rset rg ra => Sys2Proof.Machine.execRset rg ra s
  | .rclr rg => Sys2Proof.Machine.execRclr rg s
  | .rred rd ra rg => Sys2Proof.Machine.execRred rd ra rg s
  | .rmul rd ra rb rg => Sys2Proof.Machine.execRmul rd ra rb rg s
  | .rdiff rd ra rb rg => Sys2Proof.Machine.execRdiff rd ra rb rg s
  | .rpow rd ra rb rg => Sys2Proof.Machine.execRpow rd ra rb rg s
  | .rpowi rd imm rb rg => Sys2Proof.Machine.execRpowi rd imm rb rg s
  | .rtom rd ra rg => Sys2Proof.Machine.execRtom rd ra rg s
  | .rfromm rd ra rg => Sys2Proof.Machine.execRfromm rd ra rg s
  | .rmmul rd ra rb rg => Sys2Proof.Machine.execRmmul rd ra rb rg s

end Sys2Proof.Machine
end

