-- ==== Sys2Proof/WellFormed.lean ====
section
/-! DEFINITION. Which DHC-1 commands are legal. Register and ring numbers are bounded by their types (30_encoding.md R144); the
one further check is DIVREM's (R148). -/

namespace Sys2Proof

/-- A command is legal unless it is a DIVREM whose two destinations are one register (R148). -/
def Instr.wellFormed : Instr → Bool
  | .divrem rd re _ _ => rd != re
  | .nop | .halt | .mov .. | .zero .. | .ldi .. | .ldb .. | .stb .. | .rand .. | .bitset .. | .bitclr .. | .bittest ..
  | .bitlen .. | .inc2 .. | .cmp .. | .add .. | .sub .. | .mul .. | .sqr .. | .mulw .. | .shl .. | .shr ..
  | .rset .. | .rclr .. | .rred .. | .rmul .. | .rdiff .. | .rpow .. | .rpowi .. | .rtom .. | .rfromm .. | .rmmul .. => true

/-- The command is legal (R147, R148). -/
abbrev Instr.WellFormed (i : Instr) : Prop := i.wellFormed = true

end Sys2Proof
end

