-- ==== Sys2Proof/Decode.lean ====
section
/-! DEFINITION. The encoding of DHC-1 (30_encoding.md): fields R141, formats R143, the opcode map R146, strict decoding R147 and
R148; then the encoder written from the same map. -/

namespace Sys2Proof

/-- The register and ring fields of a command word (R141). -/
structure Fields where
  rd : RegIdx := 0
  ra : RegIdx := 0
  rb : RegIdx := 0
  rg : RingIdx := 0
  re : RegIdx := 0
deriving DecidableEq, Repr

/-- The fifteen formats (R143). -/
inductive Format where
  | n | d | a | da | ab | dab | deab | di | ai | dai | ga | g | dag | dabg | dbgi
deriving DecidableEq, Repr

/-- Why a command word is refused (R147); every one is the fault IllegalCommand. -/
inductive Illegal where
  /-- OPC is not listed in the opcode map (R147 point 1). -/
  | reservedOpcode
  /-- A field the format does not use is not zero (R147 point 2). -/
  | unusedField
  /-- Bits [7:0] are not zero (R147 point 3). -/
  | reservedBits
  /-- A DIVREM names one register as both destinations (R147 point 4, R148). -/
  | sameDestinations
deriving DecidableEq, Repr

/-- Does the format use RD (R143)? -/
def Format.usesRd : Format → Bool
  | .d | .da | .dab | .deab | .di | .dai | .dag | .dabg | .dbgi => true
  | .n | .a | .ab | .ai | .ga | .g => false

/-- Does the format use RA (R143)? -/
def Format.usesRa : Format → Bool
  | .a | .da | .ab | .dab | .deab | .ai | .dai | .ga | .dag | .dabg => true
  | .n | .d | .di | .g | .dbgi => false

/-- Does the format use RB (R143)? -/
def Format.usesRb : Format → Bool
  | .ab | .dab | .deab | .dabg | .dbgi => true
  | .n | .d | .a | .da | .di | .ai | .dai | .ga | .g | .dag => false

/-- Does the format use RG (R143)? -/
def Format.usesRg : Format → Bool
  | .ga | .g | .dag | .dabg | .dbgi => true
  | .n | .d | .a | .da | .ab | .dab | .deab | .di | .ai | .dai => false

/-- Does the format use RE (R143)? -/
def Format.usesRe : Format → Bool
  | .deab => true
  | .n | .d | .a | .da | .ab | .dab | .di | .ai | .dai | .ga | .g | .dag | .dabg | .dbgi => false

/-- The length of a command of the format, in words (R140, R143). -/
def Format.words : Format → Nat
  | .di | .ai | .dai | .dbgi => 2
  | .n | .d | .a | .da | .ab | .dab | .deab | .ga | .g | .dag | .dabg => 1

/-- One row of the opcode map (R146): the opcode, the format, `match` and `mask` as the spec prints them, and the command a
word's fields and extension word stand for (R150). -/
structure OpcodeRow where
  opc    : Nat
  format : Format
  mtch   : Word
  mask   : Word
  build  : Fields → Word → Instr

/-- The rows of the control and register-file range (R145, R146). -/
def opcodeRowsControl : List OpcodeRow := [
  ⟨0x00, .n,    0x00000000, 0xFFFFFFFF, fun _ _ => .nop⟩,
  ⟨0x01, .n,    0x04000000, 0xFFFFFFFF, fun _ _ => .halt⟩,
  ⟨0x02, .da,   0x08000000, 0xFC03FFFF, fun f _ => .mov f.rd f.ra⟩,
  ⟨0x03, .d,    0x0C000000, 0xFC3FFFFF, fun f _ => .zero f.rd⟩,
  ⟨0x04, .di,   0x10000000, 0xFC3FFFFF, fun f imm => .ldi f.rd imm⟩,
  ⟨0x05, .d,    0x14000000, 0xFC3FFFFF, fun f _ => .ldb f.rd⟩,
  ⟨0x06, .a,    0x18000000, 0xFFC3FFFF, fun f _ => .stb f.ra⟩,
  ⟨0x07, .di,   0x1C000000, 0xFC3FFFFF, fun f imm => .rand f.rd imm⟩,
  ⟨0x08, .di,   0x20000000, 0xFC3FFFFF, fun f imm => .bitset f.rd imm⟩,
  ⟨0x09, .di,   0x24000000, 0xFC3FFFFF, fun f imm => .bitclr f.rd imm⟩,
  ⟨0x0A, .ai,   0x28000000, 0xFFC3FFFF, fun f imm => .bittest f.ra imm⟩,
  ⟨0x0B, .da,   0x2C000000, 0xFC03FFFF, fun f _ => .bitlen f.rd f.ra⟩,
  ⟨0x0C, .d,    0x30000000, 0xFC3FFFFF, fun f _ => .inc2 f.rd⟩]

/-- The rows of the Magnitude Kernel range (R145, R146). -/
def opcodeRowsKernel : List OpcodeRow := [
  ⟨0x10, .ab,   0x40000000, 0xFFC03FFF, fun f _ => .cmp f.ra f.rb⟩,
  ⟨0x11, .dab,  0x44000000, 0xFC003FFF, fun f _ => .add f.rd f.ra f.rb⟩,
  ⟨0x12, .dab,  0x48000000, 0xFC003FFF, fun f _ => .sub f.rd f.ra f.rb⟩,
  ⟨0x13, .dab,  0x4C000000, 0xFC003FFF, fun f _ => .mul f.rd f.ra f.rb⟩,
  ⟨0x14, .da,   0x50000000, 0xFC03FFFF, fun f _ => .sqr f.rd f.ra⟩,
  ⟨0x15, .dai,  0x54000000, 0xFC03FFFF, fun f imm => .mulw f.rd f.ra imm⟩,
  ⟨0x16, .dai,  0x58000000, 0xFC03FFFF, fun f imm => .shl f.rd f.ra imm⟩,
  ⟨0x17, .dai,  0x5C000000, 0xFC03FFFF, fun f imm => .shr f.rd f.ra imm⟩,
  ⟨0x18, .deab, 0x60000000, 0xFC0030FF, fun f _ => .divrem f.rd f.re f.ra f.rb⟩]

/-- The rows of the ModulusRing, Montgomery and exponentiation range (R145, R146). -/
def opcodeRowsRing : List OpcodeRow := [
  ⟨0x20, .ga,   0x80000000, 0xFFC3CFFF, fun f _ => .rset f.rg f.ra⟩,
  ⟨0x21, .g,    0x84000000, 0xFFFFCFFF, fun f _ => .rclr f.rg⟩,
  ⟨0x22, .dag,  0x88000000, 0xFC03CFFF, fun f _ => .rred f.rd f.ra f.rg⟩,
  ⟨0x23, .dabg, 0x8C000000, 0xFC000FFF, fun f _ => .rmul f.rd f.ra f.rb f.rg⟩,
  ⟨0x24, .dabg, 0x90000000, 0xFC000FFF, fun f _ => .rdiff f.rd f.ra f.rb f.rg⟩,
  ⟨0x25, .dabg, 0x94000000, 0xFC000FFF, fun f _ => .rpow f.rd f.ra f.rb f.rg⟩,
  ⟨0x26, .dbgi, 0x98000000, 0xFC3C0FFF, fun f imm => .rpowi f.rd imm f.rb f.rg⟩,
  ⟨0x27, .dag,  0x9C000000, 0xFC03CFFF, fun f _ => .rtom f.rd f.ra f.rg⟩,
  ⟨0x28, .dag,  0xA0000000, 0xFC03CFFF, fun f _ => .rfromm f.rd f.ra f.rg⟩,
  ⟨0x29, .dabg, 0xA4000000, 0xFC000FFF, fun f _ => .rmmul f.rd f.ra f.rb f.rg⟩]

/-- The complete opcode map (R146). -/
def opcodeMap : List OpcodeRow := opcodeRowsControl ++ opcodeRowsKernel ++ opcodeRowsRing

/-- OPC, bits [31:26] of a command word (R141). -/
def opcOf (w : Word) : Nat := w.toNat / 2^26

/-- The field of four bits whose lowest bit is `lo` (R141). -/
def regField (w : Word) (lo : Nat) : RegIdx := Fin.ofNat 16 (w.toNat / 2^lo)

/-- RG, bits [13:12] (R141). -/
def ringField (w : Word) : RingIdx := Fin.ofNat 4 (w.toNat / 2^12)

/-- RSV, bits [7:0] (R141). -/
def reservedBitsOf (w : Word) : Nat := w.toNat % 2^8

/-- All register and ring fields of a command word (R141). -/
def fieldsOf (w : Word) : Fields :=
  { rd := regField w 22, ra := regField w 18, rb := regField w 14, rg := ringField w, re := regField w 8 }

/-- Strict decoding: every field the format does not use is zero (R141, R143). -/
def Format.unusedZero (t : Format) (f : Fields) : Bool :=
  (t.usesRd || f.rd == 0) && (t.usesRa || f.ra == 0) && (t.usesRb || f.rb == 0) && (t.usesRg || f.rg == 0) && (t.usesRe || f.re == 0)

/-- A decoded first word: the format, which fixes the length, and the command it becomes with its extension word. -/
structure Head where
  format : Format
  instr  : Word → Instr

/-- The length of the command a first word begins, in words (R140). -/
def Head.words (h : Head) : Nat := h.format.words

/-- Decode the first word of a command (R140, R146 to R148). The extension word plays no part in legality (R147). -/
def decodeHead (w : Word) : Except Illegal Head :=
  match opcodeMap.find? (fun r => r.opc == opcOf w) with
  | none => .error .reservedOpcode
  | some row =>
    let f := fieldsOf w
    if row.format.unusedZero f = false then .error .unusedField
    else if reservedBitsOf w ≠ 0 then .error .reservedBits
    else if row.format = .deab ∧ f.rd = f.re then .error .sameDestinations
    else .ok { format := row.format, instr := row.build f }

/-- Decode a command from its first word and the word after it, which counts only for a two-word command. -/
def decode (w ext : Word) : Except Illegal Instr :=
  match decodeHead w with
  | .ok h => .ok (h.instr ext)
  | .error e => .error e

/-- A command's opcode, the fields it sets and its extension word, from the opcode map and the formats (R143, R146, R150). -/
def Instr.parts : Instr → Nat × Fields × Option Word
  | .nop                 => (0x00, {}, none)
  | .halt                => (0x01, {}, none)
  | .mov rd ra           => (0x02, { rd, ra }, none)
  | .zero rd             => (0x03, { rd }, none)
  | .ldi rd imm          => (0x04, { rd }, some imm)
  | .ldb rd              => (0x05, { rd }, none)
  | .stb ra              => (0x06, { ra }, none)
  | .rand rd imm         => (0x07, { rd }, some imm)
  | .bitset rd imm       => (0x08, { rd }, some imm)
  | .bitclr rd imm       => (0x09, { rd }, some imm)
  | .bittest ra imm      => (0x0A, { ra }, some imm)
  | .bitlen rd ra        => (0x0B, { rd, ra }, none)
  | .inc2 rd             => (0x0C, { rd }, none)
  | .cmp ra rb           => (0x10, { ra, rb }, none)
  | .add rd ra rb        => (0x11, { rd, ra, rb }, none)
  | .sub rd ra rb        => (0x12, { rd, ra, rb }, none)
  | .mul rd ra rb        => (0x13, { rd, ra, rb }, none)
  | .sqr rd ra           => (0x14, { rd, ra }, none)
  | .mulw rd ra imm      => (0x15, { rd, ra }, some imm)
  | .shl rd ra imm       => (0x16, { rd, ra }, some imm)
  | .shr rd ra imm       => (0x17, { rd, ra }, some imm)
  | .divrem rd re ra rb  => (0x18, { rd, re, ra, rb }, none)
  | .rset rg ra          => (0x20, { rg, ra }, none)
  | .rclr rg             => (0x21, { rg }, none)
  | .rred rd ra rg       => (0x22, { rd, ra, rg }, none)
  | .rmul rd ra rb rg    => (0x23, { rd, ra, rb, rg }, none)
  | .rdiff rd ra rb rg   => (0x24, { rd, ra, rb, rg }, none)
  | .rpow rd ra rb rg    => (0x25, { rd, ra, rb, rg }, none)
  | .rpowi rd imm rb rg  => (0x26, { rd, rb, rg }, some imm)
  | .rtom rd ra rg       => (0x27, { rd, ra, rg }, none)
  | .rfromm rd ra rg     => (0x28, { rd, ra, rg }, none)
  | .rmmul rd ra rb rg   => (0x29, { rd, ra, rb, rg }, none)

/-- The command word with the given opcode and fields, RSV zero (R141). -/
def packWord (opc : Nat) (f : Fields) : Word :=
  BitVec.ofNat 32 (2^26 * opc + 2^22 * f.rd.val + 2^18 * f.ra.val + 2^14 * f.rb.val + 2^12 * f.rg.val + 2^8 * f.re.val)

/-- The first word of a command (R140, R141). -/
def encodeWord (i : Instr) : Word := packWord i.parts.1 i.parts.2.1

/-- The words of a command: its command word and, for a two-word command, its extension word (R140, R142). -/
def encode (i : Instr) : List Word := encodeWord i :: i.parts.2.2.toList

/-- The length of a command in words (R140). -/
def Instr.words (i : Instr) : Nat := if i.parts.2.2.isSome then 2 else 1

/-- The instruction the decoder reads from `nbits` bits of `w`, bits above them zero: the first word is bits [31:0], the
extension word bits [63:32] (R140, R105). -/
def decodeTableWord (nbits w : Nat) : Option Instr :=
  match decode (BitVec.ofNat 32 (w % 2^nbits)) (BitVec.ofNat 32 (w % 2^nbits / 2^32)) with
  | .ok i => some i
  | .error _ => none

end Sys2Proof
end

