-- ==== Sys2Proof/Machine/Fetch.lean ====
section
/-! DEFINITION. Fetching and decoding the command at PC (40_control.md R180), and placing a command there. -/

namespace Sys2Proof.Machine

/-- What the front half of the step finds at PC. -/
inductive Fetched where
  /-- A legal command, complete with its extension word. -/
  | run (i : Instr)
  /-- CommandOverrun or IllegalCommand (R180, R402 items 1 to 3). -/
  | trap (c : FaultCode)
  /-- A word nothing has written since power-on (93_implementation_defined.md U5; log 6). -/
  | unwritten (index : Nat)
deriving DecidableEq, Repr

/-- The front half of the step: the first word, its decoding, then the extension word of a two-word command (R45, R140, R147,
R180, R402). -/
def State.fetch (s : State) : Fetched :=
  if cmdWords ≤ s.pc.toNat then .trap .commandOverrun
  else
    match s.cmdMem.read? s.pc.toNat with
    | none => .unwritten s.pc.toNat
    | some w =>
      match decodeHead w with
      | .error _ => .trap .illegalCommand
      | .ok h =>
        if h.words = 1 then .run (h.instr 0)
        else if cmdWords ≤ s.pc.toNat + 1 then .trap .commandOverrun
        else
          match s.cmdMem.read? (s.pc.toNat + 1) with
          | none => .unwritten (s.pc.toNat + 1)
          | some ext => .run (h.instr ext)

/-- Where a command of up to two words placed for the next step goes: at PC, or at 0 when it would not fit there. -/
def State.placeAt (s : State) : BitVec 11 := if s.pc.toNat + 1 < cmdWords then s.pc else 0

/-- Place two words as the next command and start the run, as the host does with CMDMEM writes, CLR where a fault is pending,
and START (R453, R454); a host event that waits is kept behind the command (log 4). -/
def State.placeWords (s : State) (w ext : Word) : State :=
  let t := if s.fault then s.clearStatus else s
  { t.start with
    pc := s.placeAt, cmdMem := (s.cmdMem.write s.placeAt.toNat w).write (s.placeAt.toNat + 1) ext,
    inputs := if s.inputs = [] then [] else .noAccess :: s.inputs }

end Sys2Proof.Machine
end

