-- ==== Sys2Proof/Machine/HostInterface.lean ====
section
/-! DEFINITION. The host interface: the MMIO map (20_memory.md R106), the registers it shows (10_state.md R53), and what host
accesses and resets do (10_state.md R54; 20_memory.md R107 to R110; 70_reset_and_hazards.md R450 to R455). -/

namespace Sys2Proof.Machine

/-- What an aligned offset of the MMIO window names (R106). -/
inductive MmioTarget where
  | id | ctrl | status | flags | pc | faultCode | faultPc | faultCmd | ioLen | ringStat | regWr | param
  | ringK (r : RingIdx)
  | regLen (i : RegIdx)
  | ioBuf (word : Nat)
  | cmdMem (word : Nat)
  | reserved
deriving DecidableEq, Repr

/-- The MMIO map (R106), for an IOBUF of `ioBytes` bytes and an offset that is a multiple of 4. -/
def mmioTarget (ioBytes off : Nat) : MmioTarget :=
  if off < 0x030 then
    [MmioTarget.id, .ctrl, .status, .flags, .pc, .faultCode, .faultPc, .faultCmd, .ioLen, .ringStat, .regWr, .param].getD
      (off / 4) .reserved
  else if off < 0x040 then .ringK (Fin.ofNat 4 ((off - 0x030) / 4))
  else if off < 0x080 then .regLen (Fin.ofNat 16 ((off - 0x040) / 4))
  else if off < 0x800 then .reserved
  else if 0x1000 ≤ off then .cmdMem ((off - 0x1000) / 4)
  else if off < 0x800 + ioBytes then .ioBuf ((off - 0x800) / 4)
  else .reserved

/-- A word with bit `i` equal to `b` and every other bit 0. -/
def bitAt (b : Bool) (i : Nat) : Word := if b then BitVec.ofNat 32 (2^i) else 0

/-- The identification register: "DH" and revision 7 (R2). -/
def idWord : Word := 0x44480007

/-- FAULTCODE's bits (R401). -/
def FaultCode.byte : FaultCode → Byte
  | .none               => 0x00
  | .ringNotSet         => 0x11
  | .evenModulus        => 0x12
  | .byteCount          => 0x13
  | .bitCount           => 0x14
  | .bitIndex           => 0x15
  | .negativeDifference => 0x31
  | .divideByZero       => 0x32
  | .negativeMultiplier => 0x33
  | .negativeShift      => 0x34
  | .illegalCommand     => 0x81
  | .unwrittenRegister  => 0x82
  | .capacityOverflow   => 0x83
  | .commandOverrun     => 0x84

/-- The interrupt output (R410). -/
def State.irq (s : State) : Bool := s.ie && (s.done || s.fault)

/-- CTRL as read: IE, and 0 in every other bit (R53, R452). -/
def State.ctrlWord (s : State) : Word := bitAt s.ie 1

/-- STATUS as read (R53). -/
def State.statusWord (s : State) : Word :=
  bitAt s.busy 0 ||| bitAt s.done 1 ||| bitAt s.fault 2 ||| bitAt s.hwerr 3 ||| bitAt s.irq 4

/-- FLAGS as read (R50). -/
def State.flagsWord (s : State) : Word :=
  bitAt s.flags.lt 0 ||| bitAt s.flags.eq 1 ||| bitAt s.flags.gt 2 ||| bitAt s.flags.bit 3

/-- RINGSTAT as read: VALID in bits 3:0, ODD in bits 7:4, ODD 0 when invalid (R53). -/
def State.ringStatWord (s : State) : Word :=
  (List.finRange 4).foldl (fun w r =>
    w ||| bitAt s.rings[r].valid r.val ||| bitAt (s.rings[r].valid && s.rings[r].odd) (4 + r.val)) 0

/-- REGWR as read (R53). -/
def State.regWrWord (s : State) : Word := (List.finRange 16).foldl (fun w i => w ||| bitAt s.regs[i].wr i.val) 0

/-- PARAM as read: MAXW below, CMDW above (R53). -/
def State.paramWord (s : State) : Word := BitVec.ofNat 32 (cmdWords * 2^16 + s.cfg.maxw)

/-- IOBUF word `j` as the host sees it, four bytes packed big-endian (R103). -/
def State.ioWord (s : State) (j : Nat) : Word :=
  BitVec.ofNat 32 (beValue [s.ioByte (4*j), s.ioByte (4*j + 1), s.ioByte (4*j + 2), s.ioByte (4*j + 3)])

/-- The four bytes of a word, most significant first (R103). -/
def wordBytes (w : Word) : List Byte :=
  [BitVec.ofNat 8 (w.toNat >>> 24), BitVec.ofNat 8 (w.toNat >>> 16), BitVec.ofNat 8 (w.toNat >>> 8), BitVec.ofNat 8 w.toNat]

/-- What an aligned 32-bit read finds while the core is idle (R53, R103, R105, R108). -/
def State.mmioWord (s : State) : MmioTarget → Word
  | .id        => idWord
  | .ctrl      => s.ctrlWord
  | .status    => s.statusWord
  | .flags     => s.flagsWord
  | .pc        => BitVec.ofNat 32 s.pc.toNat
  | .faultCode => BitVec.ofNat 32 s.faultCode.byte.toNat
  | .faultPc   => BitVec.ofNat 32 s.faultPc.toNat
  | .faultCmd  => s.faultCmd
  | .ioLen     => BitVec.ofNat 32 s.ioLen.toNat
  | .ringStat  => s.ringStatWord
  | .regWr     => s.regWrWord
  | .param     => s.paramWord
  | .ringK r   => if s.rings[r].valid then BitVec.ofNat 32 s.rings[r].k else 0
  | .regLen i  => if s.regs[i].wr then BitVec.ofNat 32 s.regs[i].len else 0
  | .ioBuf j   => s.ioWord j
  | .cmdMem i  => s.cmdWord i
  | .reserved  => 0

/-- The targets whose reads are exact while a run is in progress (R110, R452). -/
def MmioTarget.exactWhileBusy : MmioTarget → Bool
  | .id | .ctrl | .status => true
  | .flags | .pc | .faultCode | .faultPc | .faultCmd | .ioLen | .ringStat | .regWr | .param | .ringK _ | .regLen _ | .ioBuf _
  | .cmdMem _ | .reserved => false

/-- The read answers with `w`. -/
def State.respond (s : State) (w : Word) : State := { s with responses := w :: s.responses }

/-- The read answers with an unspecified value (R107, R452, U2, U3; log 9). -/
def State.respondFree (s : State) : State :=
  { s with responses := Config.busRead s.frees :: s.responses, frees := s.frees + 1 }

/-- CTRL.CLR: acts while idle, is an interface error while busy (R54 step 3, R451 case 2). -/
def State.ctrlClear (s : State) : State := if s.busy then s.setHwerr else s.clearStatus

/-- CTRL.START: refused while busy or while FAULT = 1 (R54 step 4, R451 case 3, R454). -/
def State.ctrlStart (s : State) : State := if s.busy || s.fault then s.setHwerr else s.start

/-- A write of CTRL acts on SRST, then IE, then CLR, then START (R54). -/
def State.writeCtrl (s : State) (v : Word) : State :=
  if v.getLsbD 3 then s.softReset
  else
    let s1 := { s with ie := v.getLsbD 1 }
    let s2 := if v.getLsbD 2 then s1.ctrlClear else s1
    if v.getLsbD 0 then s2.ctrlStart else s2

/-- An aligned 32-bit write to something other than CTRL while the core is idle: PC, IOLEN, IOBUF and CMDMEM store it, anything
else ignores it (R46, R103, R105, R108, R109). -/
def State.writeIdle (s : State) (v : Word) : MmioTarget → State
  | .pc       => { s with pc := BitVec.ofNat 11 v.toNat }
  | .ioLen    => { s with ioLen := BitVec.ofNat 16 v.toNat }
  | .ioBuf j  => { s with ioBuf := s.ioBuf.writeList (4 * j) (wordBytes v) }
  | .cmdMem i => { s with cmdMem := s.cmdMem.write i v }
  | .id | .ctrl | .status | .flags | .faultCode | .faultPc | .faultCmd | .ringStat | .regWr | .param | .ringK _ | .regLen _
  | .reserved => s

/-- Is a host access one the interface accepts: 32 bits wide, at a multiple of 4 (R107)? -/
def accessOk (bytes off : Nat) : Bool := bytes == 4 && off % 4 == 0

/-- A host write at an offset of the window (R54, R107, R109, R451; log 10). -/
def State.writeOffset (s : State) (bytes off : Nat) (v : Word) : State :=
  if !accessOk bytes off then s.setHwerr
  else if mmioTarget s.ioBytes off = .ctrl then s.writeCtrl v
  else if s.busy then s.setHwerr
  else s.writeIdle v (mmioTarget s.ioBytes off)

/-- A host read at an offset of the window (R107, R109, R110, R452; log 24). -/
def State.readOffset (s : State) (bytes off : Nat) : State :=
  if !accessOk bytes off then s.respondFree.setHwerr
  else if s.busy && !(mmioTarget s.ioBytes off).exactWhileBusy then s.respondFree
  else s.respond (s.mmioWord (mmioTarget s.ioBytes off))

/-- The offset of a platform address in the window at `DHC_BASE`, if it lies there (R100, R106). -/
def Config.windowOffset (c : Config) (addr : Nat) : Option Nat :=
  if c.dhcBase ≤ addr ∧ addr < c.dhcBase + windowBytes then some (addr - c.dhcBase) else none

/-- One event from outside the core. An access whose address lies outside the window is not addressed to this block and does
nothing here (log 14). -/
def State.hostEvent (s : State) : HostEvent → State
  | .write bytes addr v =>
    match Config.windowOffset s.cfg addr with
    | some off => s.writeOffset bytes off v
    | none => s
  | .read bytes addr =>
    match Config.windowOffset s.cfg addr with
    | some off => s.readOffset bytes off
    | none => s
  | .powerOn => s.powerOnReset
  | .noAccess => s

end Sys2Proof.Machine
end

