-- ==== Sys2Proof/Machine/Step.lean ====
section
/-! DEFINITION. One step of DH-CORE (40_control.md R180) with its host (10_state.md R40; log 3), and how a command is placed for it. -/

namespace Sys2Proof.Machine

/-- The sequencer's step: fetch, decode and execute one command; a fault of the front half is trap entry (R180, R404). -/
def sequencerStep (s : State) : Host.Outcome State Fault Refusal :=
  match s.fetch with
  | .run i => exec i s
  | .trap c => .next (s.trap c)
  | .unwritten index => .refused (.unwrittenCommandWord index)

/-- The core's turn: a command while BUSY = 1; idle, all state is held (R180, R417; log 16). -/
def coreStep (s : State) : Host.Outcome State Fault Refusal := if s.busy then sequencerStep s else .next s

/-- One step: the next host event, if one waits; otherwise the core's turn. Host events fall between commands only (R12, R110). -/
def step (s : State) : Host.Outcome State Fault Refusal :=
  match s.inputs with
  | [] => coreStep s
  | .noAccess :: rest => coreStep { s with inputs := rest }
  | .write bytes addr v :: rest => .next (State.hostEvent { s with inputs := rest } (.write bytes addr v))
  | .read bytes addr :: rest => .next (State.hostEvent { s with inputs := rest } (.read bytes addr))
  | .powerOn :: rest => .next (State.hostEvent { s with inputs := rest } .powerOn)

/-- `s` with the command whose bits are `w` (bits from `nbits` on are zero) placed so that the very next step runs it: the
first word is bits [31:0], the extension word bits [63:32] (log 4). -/
def State.withFetchWord (s : State) (nbits w : Nat) : State :=
  s.placeWords (BitVec.ofNat 32 (w % 2^nbits)) (BitVec.ofNat 32 (w % 2^nbits / 2^32))

end Sys2Proof.Machine
end

