-- ==== Sys2Proof/Machine/Core.lean ====
section
/-! DEFINITION. DH-CORE as the host's machine interface takes it. -/

/-- DH-CORE. -/
def Sys2Proof.core : Host.Core :=
  { State := Sys2Proof.Machine.State, Fault := Sys2Proof.Machine.Fault, Refusal := Sys2Proof.Machine.Refusal,
    step := Sys2Proof.Machine.step, reset := Sys2Proof.Machine.State.reset }
end

