-- ==== Sys2Proof/Machine/Assembler.lean ====
section
/-! DEFINITION. The assembler of DHC-1 (30_encoding.md R150, R151): one line of text to the command words it stands for. The machine
itself never reads text. -/

namespace Sys2Proof.Machine

/-- One operand as written: a register `B0`..`B15`, a ring `R0`..`R3` or an immediate `#n` (R150). -/
inductive AsmOperand where
  | reg  (i : RegIdx)
  | ring (r : RingIdx)
  | imm  (n : Int)
deriving DecidableEq, Repr

/-- Text without spaces and tabs at its ends (DESIGN CHOICE, log 28: R150 does not say what may stand between the parts of a
line). -/
def trimChars (cs : List Char) : List Char :=
  let blank := fun c : Char => c == ' ' || c == '\t'
  ((cs.dropWhile blank).reverse.dropWhile blank).reverse

/-- A digit's value in a base up to 16. Hexadecimal letters in either case (DESIGN CHOICE, log 28). -/
def charDigit (base : Nat) (c : Char) : Option Nat :=
  let v := if '0' ≤ c ∧ c ≤ '9' then c.toNat - 48 else if 'a' ≤ c ∧ c ≤ 'f' then c.toNat - 87
    else if 'A' ≤ c ∧ c ≤ 'F' then c.toNat - 55 else 16
  if v < base then some v else none

/-- The digits of a number, read on from an accumulator. -/
def charsNumber (base : Nat) : List Char → Nat → Option Nat
  | [], acc => some acc
  | c :: rest, acc =>
    match charDigit base c with
    | some d => charsNumber base rest (acc * base + d)
    | none => none

/-- A decimal or `0x` hexadecimal number (R150), with leading zeros or without (DESIGN CHOICE, log 28). -/
def readNumber : List Char → Option Nat
  | [] => none
  | '0' :: 'x' :: c :: rest => charsNumber 16 (c :: rest) 0
  | c :: rest => charsNumber 10 (c :: rest) 0

/-- A number with an optional leading minus sign (R150). DESIGN CHOICE (log 28): the minus may stand before a hexadecimal number. -/
def readSigned : List Char → Option Int
  | '-' :: rest => (readNumber rest).map fun n => - (n : Int)
  | cs => (readNumber cs).map fun n => (n : Int)

/-- One operand (R150). DESIGN CHOICE (log 28): a register or ring number may have leading zeros, and a leading minus is read before
it is known whether the immediate is signed, so that `#-0` is an unsigned immediate too. -/
def readOperand (cs : List Char) : Option AsmOperand :=
  match trimChars cs with
  | 'B' :: c :: rest => (charsNumber 10 (c :: rest) 0).bind fun n => if h : n < 16 then some (.reg ⟨n, h⟩) else none
  | 'R' :: c :: rest => (charsNumber 10 (c :: rest) 0).bind fun n => if h : n < 4 then some (.ring ⟨n, h⟩) else none
  | '#' :: rest => (readSigned rest).map .imm
  | _ => none

/-- Comma-separated operands; no text is no operands (R150). -/
def readOperands (cs : List Char) : Option (List AsmOperand) :=
  if trimChars cs = [] then some [] else (cs.splitOn ',').mapM readOperand

/-- An unsigned immediate in its 32 bits (R142). A minus sign leaves only `#-0` (DESIGN CHOICE, log 28). -/
def immWord (n : Int) : Option Word := if 0 ≤ n ∧ n < 2^32 then some (BitVec.ofInt 32 n) else none

/-- A signed immediate (R142, R150), which may also be written as its 32-bit pattern in hexadecimal (95_test_vectors.md section
3.4). DESIGN CHOICE (log 28): the pattern may be written in decimal too, from 2^31 to 2^32 - 1. -/
def immWordSigned (n : Int) : Option Word := if - 2^31 ≤ n ∧ n < 2^32 then some (BitVec.ofInt 32 n) else none

/-- The commands whose operands hold no immediate, and the pseudo-instructions (R150, R151). -/
def assemblePlain (mnemonic : String) (ops : List AsmOperand) : Option Instr :=
  match mnemonic, ops with
  | "NOP", []                                     => some .nop
  | "HALT", []                                    => some .halt
  | "ZERO", [.reg d]                              => some (.zero d)
  | "CLR", [.reg d]                               => some (.zero d)
  | "ONE", [.reg d]                               => some (.ldi d 1)
  | "LDB", [.reg d]                               => some (.ldb d)
  | "INC2", [.reg d]                              => some (.inc2 d)
  | "STB", [.reg a]                               => some (.stb a)
  | "MOV", [.reg d, .reg a]                       => some (.mov d a)
  | "BITLEN", [.reg d, .reg a]                    => some (.bitlen d a)
  | "SQR", [.reg d, .reg a]                       => some (.sqr d a)
  | "DBL", [.reg d, .reg a]                       => some (.shl d a 1)
  | "HALF", [.reg d, .reg a]                      => some (.shr d a 1)
  | "CMP", [.reg a, .reg b]                       => some (.cmp a b)
  | "ADD", [.reg d, .reg a, .reg b]               => some (.add d a b)
  | "SUB", [.reg d, .reg a, .reg b]               => some (.sub d a b)
  | "MUL", [.reg d, .reg a, .reg b]               => some (.mul d a b)
  | "DIVREM", [.reg q, .reg r, .reg a, .reg b]    => some (.divrem q r a b)
  | "DIV", [.reg q, .reg r, .reg a, .reg b]       => some (.divrem q r a b)
  | "RSET", [.ring g, .reg a]                     => some (.rset g a)
  | "RCLR", [.ring g]                             => some (.rclr g)
  | "RRED", [.reg d, .reg a, .ring g]             => some (.rred d a g)
  | "RTOM", [.reg d, .reg a, .ring g]             => some (.rtom d a g)
  | "RFROMM", [.reg d, .reg a, .ring g]           => some (.rfromm d a g)
  | "RSQR", [.reg d, .reg a, .ring g]             => some (.rmul d a a g)
  | "RMUL", [.reg d, .reg a, .reg b, .ring g]     => some (.rmul d a b g)
  | "RDIFF", [.reg d, .reg a, .reg b, .ring g]    => some (.rdiff d a b g)
  | "RMMUL", [.reg d, .reg a, .reg b, .ring g]    => some (.rmmul d a b g)
  | "RPOW", [.reg d, .reg a, .reg b, .ring g]     => some (.rpow d a b g)
  | _, _                                          => none

/-- The commands with an immediate operand (R150). -/
def assembleImm (mnemonic : String) (ops : List AsmOperand) : Option Instr :=
  match mnemonic, ops with
  | "LDI", [.reg d, .imm n]                  => (immWord n).map (.ldi d)
  | "RAND", [.reg d, .imm n]                 => (immWord n).map (.rand d)
  | "BITSET", [.reg d, .imm n]               => (immWord n).map (.bitset d)
  | "BITCLR", [.reg d, .imm n]               => (immWord n).map (.bitclr d)
  | "BITTEST", [.reg a, .imm n]              => (immWord n).map (.bittest a)
  | "MULW", [.reg d, .reg a, .imm n]         => (immWordSigned n).map (.mulw d a)
  | "SHL", [.reg d, .reg a, .imm n]          => (immWordSigned n).map (.shl d a)
  | "SHR", [.reg d, .reg a, .imm n]          => (immWordSigned n).map (.shr d a)
  | "RPOWI", [.reg d, .imm n, .reg b, .ring g] => (immWord n).map fun w => .rpowi d w b g
  | _, _                                     => none

/-- One command without label or comment: its words (R150). `.word v` stands for the word itself. DESIGN CHOICE (log 28): a mnemonic
may mix upper and lower case, `.word` is in lower case, and its `v` is a decimal or `0x` number below 2^32. -/
def assembleCommand (cs : List Char) : Option (List Word) :=
  let name := cs.takeWhile fun c => c != ' ' && c != '\t'
  let rest := cs.drop name.length
  if name = ['.', 'w', 'o', 'r', 'd'] then
    (readNumber (trimChars rest)).bind fun n => if n < 2^32 then some [BitVec.ofNat 32 n] else none
  else
    let mnemonic := String.ofList (name.map Char.toUpper)
    match readOperands rest with
    | none => none
    | some ops =>
      match assemblePlain mnemonic ops with
      | some i => some (encode i)
      | none => (assembleImm mnemonic ops).map encode

/-- One line: a label ends at `:`, a comment begins at `;`, and an empty line stands for no words (R150). DESIGN CHOICE (log 28):
R150 says nothing of a label's name, and any text before the first `:` is taken for one, blanks or none at all included. A label
may stand alone or before a command. -/
def assembleLine (line : String) : Option (List Word) :=
  let code := line.toList.takeWhile (· != ';')
  let afterLabel := if code.contains ':' then (code.dropWhile (· != ':')).drop 1 else code
  if trimChars afterLabel = [] then some [] else assembleCommand (trimChars afterLabel)

/-- A program: the words of its lines in order, if every line assembles (R150). -/
def assemble (lines : List String) : Option (List Word) := (lines.mapM assembleLine).map List.flatten

end Sys2Proof.Machine
end

