-- ==== Sys2Proof/Machine/Datapath.lean ====
section
/-! DEFINITION. The digit datapaths of the Magnitude Kernel, as 42_kernel.md describes them: how the block reaches the exact values
that the command rules state (00_scope.md R3; log 18). Obligations state that each reaches its value. -/

namespace Sys2Proof.Machine

/-- The number a list of digits holds, least significant first (R42, R101). -/
def digitsValue (ds : List Nat) : Nat := ds.foldr (fun d acc => d + radix * acc) 0

/-- Comparator: from digit `i-1` down, the first differing digit decides; none means equal (R240). -/
def compareDigits (a b : Nat) : Nat → Ordering
  | 0 => .eq
  | i + 1 => if digit a i = digit b i then compareDigits a b i else if digit b i < digit a i then .gt else .lt

/-- Comparator datapath: by length, then by the most significant differing digit (R240). -/
def comparator (a b : Nat) : Ordering :=
  if digitLen b < digitLen a then .gt
  else if digitLen a < digitLen b then .lt
  else compareDigits a b (digitLen a)

/-- One digit step of the adder, on the sum so far and the carry (R241). -/
def addStep (a b : Nat) (p : Nat × Nat) (i : Nat) : Nat × Nat :=
  let t := digit a i + digit b i + p.2
  (p.1 + t % 2^32 * radix^i, t / 2^32)

/-- Adder datapath: the carry propagates across the digits and is the last digit (R241). -/
def adder (a b : Nat) : Nat :=
  let n := max (digitLen a) (digitLen b)
  let p := (List.range n).foldl (addStep a b) (0, 0)
  p.1 + p.2 * radix^n

/-- One digit step of the subtractor, on the difference so far and the borrow (R243). -/
def subStep (a b : Nat) (p : Nat × Nat) (i : Nat) : Nat × Nat :=
  if digit a i < digit b i + p.2 then (p.1 + (digit a i + 2^32 - (digit b i + p.2)) * radix^i, 1)
  else (p.1 + (digit a i - (digit b i + p.2)) * radix^i, 0)

/-- Subtractor datapath, for `b ≤ a`: the difference and the final borrow (R243). -/
def subtractor (a b : Nat) : Nat × Nat := (List.range (digitLen a)).foldl (subStep a b) (0, 0)

/-- Inner step of the multiplier, on the product buffer and the carry: `p[i+j] + a_i * b_j + c` (R245). -/
def mulStep (ai b i : Nat) (s : List Nat × Nat) (j : Nat) : List Nat × Nat :=
  let t := s.1.getD (i + j) 0 + ai * digit b j + s.2
  (s.1.set (i + j) (t % 2^32), t / 2^32)

/-- One row of the multiplier: digit `a_i` times `b`, the last carry stored above (R245). -/
def mulRow (a b : Nat) (p : List Nat) (i : Nat) : List Nat :=
  let s := (List.range (digitLen b)).foldl (mulStep (digit a i) b i) (p, 0)
  s.1.set (i + digitLen b) s.2

/-- Multiplier datapath: the schoolbook product buffer of `la + lb` digits (R245). -/
def multiplierDigits (a b : Nat) : List Nat :=
  (List.range (digitLen a)).foldl (mulRow a b) (List.replicate (digitLen a + digitLen b) 0)

/-- Multiplier datapath: the product (R245). -/
def multiplier (a b : Nat) : Nat := digitsValue (multiplierDigits a b)

/-- The cross terms of the squarer, each once (R247). -/
def squareCross (a : Nat) : Nat :=
  (List.range (digitLen a)).foldl (fun p i =>
    (List.range (digitLen a)).foldl (fun p j => if i < j then p + digit a i * digit a j * radix^(i + j) else p) p) 0

/-- Squarer datapath: the cross terms doubled, then the diagonal squares added (R247). -/
def squarer (a : Nat) : Nat :=
  (List.range (digitLen a)).foldl (fun p i => p + digit a i * digit a i * radix^(2 * i)) (squareCross a <<< 1)

/-- Digit `i + q` of a left shift by `32 * q + r` bits (R250). -/
def shiftLeftDigit (a r i : Nat) : Nat :=
  ((digit a i <<< r) ||| (if r = 0 ∨ i = 0 then 0 else digit a (i - 1) >>> (32 - r))) % 2^32

/-- Left-shifter datapath: `q = n >> 5` zero digits below, then the digits `0 .. la` shifted by `r = n & 31` (R250). -/
def leftShifter (a n : Nat) : Nat :=
  digitsValue (List.replicate (n >>> 5) 0 ++ (List.range (digitLen a + 1)).map (shiftLeftDigit a (n &&& 31)))

/-- Digit `i` of a right shift by `32 * q + r` bits (R250). -/
def shiftRightDigit (a q r i : Nat) : Nat :=
  (digit a (i + q) >>> r) ||| (if r = 0 then 0 else (digit a (i + q + 1) <<< (32 - r)) % 2^32)

/-- Right-shifter datapath (R250). -/
def rightShifter (a n : Nat) : Nat :=
  digitsValue ((List.range (digitLen a - n >>> 5)).map (shiftRightDigit a (n >>> 5) (n &&& 31)))

/-- Single-digit divider, from digit `i-1` down, on the quotient so far and the remainder (R253 step 1). -/
def divideSingle (a d : Nat) : Nat → Nat × Nat → Nat × Nat
  | 0, p => p
  | i + 1, p =>
    let t := p.2 * 2^32 + digit a i
    divideSingle a d i (p.1 + t / d * radix^i, t % d)

/-- One test of the quotient estimate against the divisor's second digit (R253, 93_implementation_defined.md K1). -/
def knuthCorrect (vTop vNext uNext : Nat) (p : Nat × Nat) : Nat × Nat :=
  if p.2 < 2^32 ∧ p.2 * 2^32 + uNext < p.1 * vNext then (p.1 - 1, p.2 + vTop) else p

/-- The quotient-digit estimate at position `j`, with up to two decrements (R253, K1). -/
def knuthEstimate (u v lb j : Nat) : Nat :=
  let top := digit u (j + lb) * 2^32 + digit u (j + lb - 1)
  let vTop := digit v (lb - 1)
  let qhat := min (top / vTop) (2^32 - 1)
  let fix := knuthCorrect vTop (digit v (lb - 2)) (digit u (j + lb - 2))
  (fix (fix (qhat, top - qhat * vTop))).1

/-- One quotient digit: subtract the estimate's multiple, and add the divisor back once when that is negative (R253). -/
def knuthStep (v lb : Nat) (p : Nat × Nat) (j : Nat) : Nat × Nat :=
  let qhat := knuthEstimate p.2 v lb j
  if p.2 < qhat * v * radix^j then (p.1 + (qhat - 1) * radix^j, p.2 + v * radix^j - qhat * v * radix^j)
  else (p.1 + qhat * radix^j, p.2 - qhat * v * radix^j)

/-- Multi-digit divider: positions `n-1` down to 0, on the quotient so far and the running dividend (R253 step 2). -/
def knuthLoop (v lb : Nat) : Nat → Nat × Nat → Nat × Nat
  | 0, p => p
  | j + 1, p => knuthLoop v lb j (knuthStep v lb p j)

/-- Multi-digit divider with normalization and de-normalization (R253 step 2). -/
def divideKnuth (a d : Nat) : Nat × Nat :=
  let lb := digitLen d
  let shift := 32 * lb - bitLen d
  let p := knuthLoop (d <<< shift) lb (digitLen a + 1 - lb) (0, a <<< shift)
  (p.1, p.2 >>> shift)

/-- Divider datapath, for `d ≠ 0`: quotient and remainder (R253). -/
def divider (a d : Nat) : Nat × Nat :=
  if digitLen d = 1 then divideSingle a d (digitLen a) (0, 0) else divideKnuth a d

end Sys2Proof.Machine
end

