-- ==== Sys2Proof/Safety.lean ====
section
/-! DEFINITION. What the spec says holds of every state of DH-CORE between two steps, and the vocabulary of the statements about
what a step leaves alone. -/

namespace Sys2Proof.Machine

/-- A register obeys the normalization invariant and its capacity (R41, R42), and an unwritten one is as reset left it (R43). -/
structure Reg.Ok (maxw : Nat) (r : Reg) : Prop where
  normalized : r.wr = true → r.len = digitLen r.val
  fits       : r.val ≤ vmaxOf maxw
  staleFits  : r.stale < 2^(32 * (maxw - r.len))
  unwritten  : r.wr = false → r = Reg.reset

/-- A ring context is cleared, or is the one RSET stores for a modulus `1 ≤ m ≤ VMAX` (R51, R281, R282). -/
structure Ring.Ok (maxw : Nat) (c : Ring) : Prop where
  cleared : c.valid = false → c = Ring.cleared
  setUp   : c.valid = true → c = Ring.ofModulus c.m
  nonzero : c.valid = true → c.m ≠ 0
  fits    : c.m ≤ vmaxOf maxw

/-- At most one of LT, EQ and GT is 1 (R50: all 0 after reset, exactly one after a CMP). -/
abbrev Flags.ok (f : Flags) : Prop := ¬ (f.lt = true ∧ f.eq = true) ∧ ¬ (f.lt = true ∧ f.gt = true) ∧ ¬ (f.eq = true ∧ f.gt = true)

/-- The invariant of the machine. -/
structure State.Inv (s : State) : Prop where
  /-- The build parameters are legal (R8, R106). -/
  config    : s.cfg.legal
  /-- Every register is well formed (R42). -/
  regs      : ∀ i : RegIdx, Reg.Ok s.cfg.maxw s.regs[i]
  /-- Every ring context is well formed (R51). -/
  rings     : ∀ r : RingIdx, Ring.Ok s.cfg.maxw s.rings[r]
  /-- FLAGS holds at most one comparison result (R50). -/
  flags     : s.flags.ok
  /-- IOBUF is in canonical form. -/
  ioWf      : s.ioBuf.wf
  /-- IOBUF has `IOBYTES` bytes (R59). -/
  ioBound   : ∀ c ∈ s.ioBuf, c.1 < s.ioBytes
  /-- CMDMEM is in canonical form. -/
  cmdWf     : s.cmdMem.wf
  /-- CMDMEM has `CMDW` words (R57). -/
  cmdBound  : ∀ c ∈ s.cmdMem, c.1 < cmdWords
  /-- A run in progress shows neither DONE nor FAULT (R54, R185). -/
  running   : s.busy = true → s.done = false ∧ s.fault = false
  /-- A run ends with exactly one of DONE and FAULT (R184, R410). -/
  oneCause  : ¬ (s.done = true ∧ s.fault = true)
  /-- FAULTCODE names a cause exactly while FAULT is 1 (R401, R404, R405). -/
  faultCode : s.fault = true ↔ s.faultCode ≠ .none
  /-- FAULTPC and FAULTCMD are 0 while FAULT is 0 (R404, R405). -/
  faultRegs : s.fault = false → s.faultPc = 0 ∧ s.faultCmd = 0
  /-- Scratch holds zero digits between commands (R55). -/
  scratch   : s.scratch = 0

/-- Everything that reports on the run to the host is as before: IE, BUSY, DONE, FAULT, HWERR and the FAULT registers. -/
structure State.StatusKept (s t : State) : Prop where
  ie        : t.ie = s.ie
  busy      : t.busy = s.busy
  done      : t.done = s.done
  fault     : t.fault = s.fault
  hwerr     : t.hwerr = s.hwerr
  faultCode : t.faultCode = s.faultCode
  faultPc   : t.faultPc = s.faultPc
  faultCmd  : t.faultCmd = s.faultCmd

/-- What no command ever changes: the build parameters, CMDMEM (R57, R118), and the model's own record of the outside world. -/
structure State.OutsideKept (s t : State) : Prop where
  cfg       : t.cfg = s.cfg
  cmdMem    : t.cmdMem = s.cmdMem
  cmdWord   : ∀ i, t.cmdWord i = s.cmdWord i
  inputs    : t.inputs = s.inputs
  responses : t.responses = s.responses
  epoch     : t.epoch = s.epoch

/-- Every byte of IOBUF and IOLEN are as before. -/
structure State.IoKept (s t : State) : Prop where
  ioByte : ∀ j, t.ioByte j = s.ioByte j
  ioLen  : t.ioLen = s.ioLen

/-- The frame common to all commands that complete within a run: PC has moved past the command's `n` words, scratch is cleared
(R55, R180), every register outside `ds` is as before, and so are the status and what no command changes. -/
structure State.Completed (s t : State) (n : Nat) (ds : List RegIdx) : Prop where
  pc      : t.pc = s.pc + BitVec.ofNat 11 n
  scratch : t.scratch = 0
  regs    : ∀ j : RegIdx, j ∉ ds → t.regs[j] = s.regs[j]
  status  : State.StatusKept s t
  outside : State.OutsideKept s t

/-- The frame of a command whose only destinations are the registers `ds`: rings, FLAGS, IOBUF and IOLEN are as before too. -/
structure State.OnlyRegs (s t : State) (n : Nat) (ds : List RegIdx) : Prop where
  completed : State.Completed s t n ds
  rings     : t.rings = s.rings
  flags     : t.flags = s.flags
  io        : State.IoKept s t

/-- The register holds `v`: written, normalized, of length `len(v)` (R42). -/
structure Reg.Holds (r : Reg) (v : Nat) : Prop where
  wr  : r.wr = true
  val : r.val = v
  len : r.len = digitLen v

/-- The command of `n` words wrote `v` to register `rd` and changed nothing else. -/
structure State.Wrote (s t : State) (n : Nat) (rd : RegIdx) (v : Nat) : Prop where
  holds : Reg.Holds t.regs[rd] v
  frame : State.OnlyRegs s t n [rd]

/-- The state after trap entry with cause `c` (R404): the FAULT state written, the run ended, IRQ at the level of IE, and
everything else as before the command (R400, R403). -/
structure State.Trapped (s t : State) (c : FaultCode) : Prop where
  fault     : t.fault = true
  faultCode : t.faultCode = c
  faultPc   : t.faultPc = s.pc
  faultCmd  : t.faultCmd = if c = .commandOverrun ∧ cmdWords ≤ s.pc.toNat then 0 else s.cmdWord s.pc.toNat
  pc        : t.pc = s.pc
  busy      : t.busy = false
  done      : t.done = false
  irq       : t.irq = s.ie
  regs      : t.regs = s.regs
  rings     : t.rings = s.rings
  flags     : t.flags = s.flags
  ie        : t.ie = s.ie
  hwerr     : t.hwerr = s.hwerr
  io        : State.IoKept s t
  outside   : State.OutsideKept s t
  scratch   : t.scratch = 0
  draws     : t.draws = s.draws

/-- The values both resets leave (R60, R450): every register unwritten with every digit zero, every ring cleared, every status
and control field 0, scratch 0 and IRQ low. -/
structure State.ResetValues (t : State) : Prop where
  regs      : ∀ i : RegIdx, t.regs[i].wr = false ∧ t.regs[i].len = 0 ∧ (∀ j, t.regs[i].dig j = 0) ∧ t.mmioWord (.regLen i) = 0
  rings     : ∀ r : RingIdx, t.rings[r].valid = false ∧ t.rings[r].m = 0 ∧ t.rings[r].k = 0 ∧ t.rings[r].mu = 0 ∧
                t.rings[r].odd = false ∧ t.rings[r].minv = 0
  flags     : t.flagsWord = 0
  pc        : t.pc = 0
  ie        : t.ie = false
  status    : t.busy = false ∧ t.done = false ∧ t.fault = false ∧ t.hwerr = false
  faultRegs : t.faultCode.byte = 0 ∧ t.faultPc = 0 ∧ t.faultCmd = 0
  ioLen     : t.ioLen = 0
  scratch   : t.scratch = 0
  irq       : t.irq = false

/-- Executing the command ends in a next state of which `P` holds. -/
def Completes (i : Instr) (s : State) (P : State → Prop) : Prop := ∃ t, exec i s = .next t ∧ P t

/-- Executing the command takes the trap `c`. -/
def Traps (i : Instr) (s : State) (c : FaultCode) : Prop := ∃ t, exec i s = .next t ∧ State.Trapped s t c

/-- The command's word has the given opcode and format, and decodes to the command with its extension word (R141, R143, R146). -/
def EncodedAs (i : Instr) (opc : Nat) (format : Format) : Prop :=
  opcOf (encodeWord i) = opc ∧
  ∃ h, decodeHead (encodeWord i) = .ok h ∧ h.format = format ∧ ∀ ext, h.instr (i.parts.2.2.getD ext) = i

/-- The words of a command, field by field: the command word holds the opcode, RD, RA, RB, RG and RE in their bits and zero in
RSV, and `ext` is the extension word, if there is one (R140, R141, R142). -/
structure EncodesTo (i : Instr) (opc rd ra rb rg re : Nat) (ext : Option Word) : Prop where
  words : encode i = encodeWord i :: ext.toList
  opc   : ((encodeWord i).extractLsb 31 26).toNat = opc
  rd    : ((encodeWord i).extractLsb 25 22).toNat = rd
  ra    : ((encodeWord i).extractLsb 21 18).toNat = ra
  rb    : ((encodeWord i).extractLsb 17 14).toNat = rb
  rg    : ((encodeWord i).extractLsb 13 12).toNat = rg
  re    : ((encodeWord i).extractLsb 11 8).toNat = re
  rsv   : ((encodeWord i).extractLsb 7 0).toNat = 0

/-- The words that the next command is fetched from have been written since power-on: the word at PC, and after a two-word
command's first word the word after it, as far as they lie in CMDMEM (R180, U5). -/
def State.FetchesWritten (s : State) : Prop :=
  s.pc.toNat < cmdWords → ∃ w, s.cmdMem.read? s.pc.toNat = some w ∧
    ∀ h, decodeHead w = .ok h → h.words = 2 → s.pc.toNat + 1 < cmdWords → ∃ ext, s.cmdMem.read? (s.pc.toNat + 1) = some ext

/-- The core takes its turn at `s`, from the state `u`: no host event waits, or the next one is "no access", which is used up
(R40; log 3). -/
def State.CoreTurn (s u : State) : Prop :=
  (s.inputs = [] ∧ u = s) ∨ ∃ rest, s.inputs = .noAccess :: rest ∧ u = { s with inputs := rest }

/-- The next host event is an aligned 32-bit write of `v` to CTRL (R54, R106). -/
def State.CtrlNext (s : State) (v : Word) : Prop :=
  ∃ addr, s.inputs.head? = some (.write 4 addr v) ∧ Config.windowOffset s.cfg addr = some 0x004

/-- The next event is a reset: the platform's reset input, or a CTRL write with SRST (R450). -/
def State.ResetNext (s : State) : Prop :=
  s.inputs.head? = some .powerOn ∨ ∃ v : Word, State.CtrlNext s v ∧ v.getLsbD 3 = true

/-- The state without the digits above the registers' lengths (R42). -/
def State.forgetStale (s : State) : State := { s with regs := s.regs.map fun r => { r with stale := 0 } }

end Sys2Proof.Machine

namespace Sys2Proof

/-- The registers a command reads, in the order they are checked: RA, RB, then RD of the in-place commands (R402, R203). -/
def Instr.sources : Instr → List RegIdx
  | .nop | .halt | .zero _ | .ldi _ _ | .ldb _ | .rand _ _ | .rclr _ => []
  | .mov _ ra | .stb ra | .bittest ra _ | .bitlen _ ra | .sqr _ ra | .mulw _ ra _ | .shl _ ra _ | .shr _ ra _ | .rset _ ra
  | .rred _ ra _ | .rtom _ ra _ | .rfromm _ ra _ => [ra]
  | .bitset rd _ | .bitclr rd _ | .inc2 rd => [rd]
  | .cmp ra rb | .add _ ra rb | .sub _ ra rb | .mul _ ra rb | .divrem _ _ ra rb | .rmul _ ra rb _ | .rdiff _ ra rb _
  | .rpow _ ra rb _ | .rmmul _ ra rb _ => [ra, rb]
  | .rpowi _ _ rb _ => [rb]

/-- The ring context a command reads: every ring command but RSET and RCLR reads one (R280, R282). -/
def Instr.ringRead : Instr → Option RingIdx
  | .rred _ _ rg | .rmul _ _ _ rg | .rdiff _ _ _ rg | .rpow _ _ _ rg | .rpowi _ _ _ rg | .rtom _ _ rg | .rfromm _ _ rg
  | .rmmul _ _ _ rg => some rg
  | .nop | .halt | .mov .. | .zero .. | .ldi .. | .ldb .. | .stb .. | .rand .. | .bitset .. | .bitclr .. | .bittest ..
  | .bitlen .. | .inc2 .. | .cmp .. | .add .. | .sub .. | .mul .. | .sqr .. | .mulw .. | .shl .. | .shr .. | .divrem ..
  | .rset .. | .rclr .. => none

end Sys2Proof
end

