-- ==== Sys2Proof/Certificates/Slice0/Obligations.lean ====
section
/-! DEFINITION. The statements about DH-CORE for the provers, in the order of OBLIGATIONS.json. -/

open Sys2Proof Sys2Proof.Machine

/-- The encoding examples (30_encoding.md R152), read both ways. -/
def Obligations.SampleCommandWordsDecode : Prop :=
  (decode 0x44804000 0 = .ok (.add 2 0 1) ∧ assembleLine "ADD B2, B0, B1" = some [0x44804000]) ∧
  (decode 0x49440000 0 = .ok (.sub 5 1 0) ∧ assembleLine "SUB B5, B1, B0" = some [0x49440000]) ∧
  (decode 0x60C04400 0 = .ok (.divrem 3 4 0 1) ∧ assembleLine "DIVREM B3, B4, B0, B1" = some [0x60C04400]) ∧
  (decode 0x80001000 0 = .ok (.rset 1 0) ∧ assembleLine "RSET R1, B0" = some [0x80001000]) ∧
  (decode 0x95048000 0 = .ok (.rpow 4 1 2 0) ∧ assembleLine "RPOW B4, B1, B2, R0" = some [0x95048000]) ∧
  (decode 0x9900B000 0x00000002 = .ok (.rpowi 4 2 2 3) ∧
    assembleLine "RPOWI B4, #2, B2, R3" = some [0x9900B000, 0x00000002]) ∧
  (decode 0x58C80000 0x00000020 = .ok (.shl 3 2 32) ∧ assembleLine "SHL B3, B2, #32" = some [0x58C80000, 0x00000020]) ∧
  (decode 0x54440000 0xFFFFFFFF = .ok (.mulw 1 1 0xFFFFFFFF) ∧
    assembleLine "MULW B1, B1, #-1" = some [0x54440000, 0xFFFFFFFF]) ∧
  (decode 0x04000000 0 = .ok .halt ∧ assembleLine "HALT" = some [0x04000000])

/-- No bit of an encoding is dropped: decode of encode is the identity on legal commands (30_encoding.md R140 to R146). -/
def Obligations.DecodeInvertsEncode : Prop :=
  ∀ i : Instr, i.WellFormed →
    (∃ h, decodeHead (encodeWord i) = .ok h ∧ h.words = i.words) ∧
    (∀ ext : Word, decode (encodeWord i) (i.parts.2.2.getD ext) = .ok i) ∧
    decodeTableWord (32 * i.words) ((encodeWord i).toNat + 2^32 * (i.parts.2.2.getD 0).toNat) = some i

/-- Strict decoding, in the other direction: encode of decode is the identity on accepted words (30_encoding.md R141, R147,
R149). -/
def Obligations.LegalWordsHaveOneMeaning : Prop :=
  ∀ (w ext : Word) (i : Instr), decode w ext = .ok i →
    i.WellFormed ∧ ((i.words = 1 ∧ encode i = [w]) ∨ (i.words = 2 ∧ encode i = [w, ext]))

/-- The opcode map by match and mask (30_encoding.md R146), with the one exception of R148. -/
def Obligations.MatchAndMaskRowsAreTheDecoder : Prop :=
  ∀ w : Word,
    (∀ row ∈ opcodeMap, w &&& row.mask = row.mtch →
      opcOf w = row.opc ∧
      if row.format = .deab ∧ regField w 22 = regField w 8 then decodeHead w = .error .sameDestinations
      else ∃ h, decodeHead w = .ok h ∧ h.format = row.format ∧ h.words = row.format.words ∧
        ∀ ext, h.instr ext = row.build (fieldsOf w) ext) ∧
    ((∀ row ∈ opcodeMap, w &&& row.mask ≠ row.mtch) → ∃ e, decodeHead w = .error e) ∧
    opcodeMap.Pairwise (fun r q => ¬ (w &&& r.mask = r.mtch ∧ w &&& q.mask = q.mtch))

/-- Illegal encodings and their fault (30_encoding.md R147). -/
def Obligations.IllegalWordsFaultAtDecode : Prop :=
  (∀ n < 64, (∀ row ∈ opcodeMap, row.opc ≠ n) ↔ (0x0D ≤ n ∧ n ≤ 0x0F) ∨ (0x19 ≤ n ∧ n ≤ 0x1F) ∨ 0x2A ≤ n) ∧
  (∀ w : Word, (∃ e, decodeHead w = .error e) ↔
    (∀ row ∈ opcodeMap, row.opc ≠ opcOf w) ∨
    ∃ row ∈ opcodeMap, row.opc = opcOf w ∧
      (row.format.unusedZero (fieldsOf w) = false ∨ reservedBitsOf w ≠ 0 ∨
        (row.format = .deab ∧ regField w 22 = regField w 8))) ∧
  (∀ (s u : State) (w : Word) (e : Illegal), State.CoreTurn s u → s.busy = true → s.pc.toNat < cmdWords →
    s.cmdMem.read? s.pc.toNat = some w → decodeHead w = .error e →
    ∃ t, step s = .next t ∧ State.Trapped u t .illegalCommand ∧ t.faultCmd = w) ∧
  (∀ w ext ext' : Word, (∃ i, decode w ext = .ok i) → ∃ i, decode w ext' = .ok i)

/-- Both resets (10_state.md R60, 70_reset_and_hazards.md R450), and SRST as the end of a run (R455). What IOBUF and CMDMEM
hold after power-on is a free value (log 5, log 6). -/
def Obligations.ResetsLeaveTheResetValues : Prop :=
  State.ResetValues State.reset ∧
  ∀ (s : State) (rest : List HostEvent),
    (s.inputs = .powerOn :: rest →
      ∃ t, step s = .next t ∧ State.ResetValues t ∧ t.ioBuf = [] ∧ t.cmdMem = [] ∧ t.inputs = rest ∧ t.cfg = s.cfg) ∧
    (∀ (addr : Nat) (v : Word), s.inputs = .write 4 addr v :: rest → Config.windowOffset s.cfg addr = some 0x004 →
      v.getLsbD 3 = true →
      ∃ t, step s = .next t ∧ State.ResetValues t ∧ (∀ j, t.ioByte j = s.ioByte j) ∧ t.ioBuf = s.ioBuf ∧
        (∀ i, t.cmdWord i = s.cmdWord i) ∧ t.cmdMem = s.cmdMem ∧ t.inputs = rest ∧ t.cfg = s.cfg)

/-- The invariant of the statement below holds right after reset (10_state.md R60). -/
def Obligations.ResetMeetsTheInvariant : Prop :=
  State.reset.Inv

/-- The machine's invariant (State.Inv) is kept by every step from every state that meets it, not only from reset. -/
def Obligations.EveryStepKeepsTheInvariant : Prop :=
  ∀ s t : State, s.Inv → step s = .next t → t.Inv

/-- The link between fetch and the meanings (40_control.md R180), and idle (60_exceptions.md R417). Host events are the
model's own form of the host (log 3). -/
def Obligations.StepRunsTheDecodedCommand : Prop :=
  ∀ s u : State, State.CoreTurn s u →
    (s.busy = false → step s = .next u) ∧
    (∀ (w ext : Word) (i : Instr), s.busy = true → s.pc.toNat + i.words ≤ cmdWords →
      s.cmdMem.read? s.pc.toNat = some w → decode w ext = .ok i →
      (i.words = 2 → s.cmdMem.read? (s.pc.toNat + 1) = some ext) → step s = exec i u)

/-- CommandOverrun at either word (10_state.md R45, 40_control.md R180; 60_exceptions.md R402 items 1 and 3, R404). -/
def Obligations.FetchBeyondCommandMemoryOverruns : Prop :=
  ∀ s u : State, State.CoreTurn s u → s.busy = true →
    (cmdWords ≤ s.pc.toNat → ∃ t, step s = .next t ∧ State.Trapped u t .commandOverrun ∧ t.faultCmd = 0) ∧
    (∀ (w : Word) (h : Head), s.pc.toNat < cmdWords → cmdWords ≤ s.pc.toNat + 1 →
      s.cmdMem.read? s.pc.toNat = some w → decodeHead w = .ok h → h.words = 2 →
      ∃ t, step s = .next t ∧ State.Trapped u t .commandOverrun ∧ t.faultCmd = w)

/-- The one stop of the model is the spec's own "refuse" (93_implementation_defined.md U5; log 6). -/
def Obligations.StepStopsOnlyAtAnUnwrittenCommandWord : Prop :=
  ∀ s : State,
    (∀ f, step s ≠ .fault f) ∧
    (∀ r, step s = .refused r →
      s.busy = true ∧ ∃ index, r = .unwrittenCommandWord index ∧ index < cmdWords ∧ s.cmdMem.read? index = none ∧
        (index = s.pc.toNat ∨ index = s.pc.toNat + 1)) ∧
    ((∀ index < cmdWords, ∃ w, s.cmdMem.read? index = some w) → ∃ t, step s = .next t)

/-- Faults are the only error outcome, are precise, and enter the same way (60_exceptions.md R400, R403, R404). -/
def Obligations.EveryCommandCompletesOrTakesAPreciseFault : Prop :=
  (∀ (i : Instr) (s : State), ∃ t, exec i s = .next t ∧
    ((∃ c, c ≠ .none ∧ State.Trapped s t c) ∨
      (t.pc = s.pc + BitVec.ofNat 11 i.words ∧ t.scratch = 0 ∧ t.fault = s.fault ∧ t.faultCode = s.faultCode ∧
        t.faultPc = s.faultPc ∧ t.faultCmd = s.faultCmd ∧ t.ie = s.ie ∧ t.hwerr = s.hwerr ∧ State.OutsideKept s t ∧
        (i ≠ .halt → t.busy = s.busy ∧ t.done = s.done)))) ∧
  (∀ s u t : State, State.CoreTurn s u → s.fault = false → step s = .next t → t.fault = true →
    ∃ c, c ≠ .none ∧ State.Trapped u t c)

/-- The fault order, items 4 and 5 (60_exceptions.md R402, 43_ring.md R280). -/
def Obligations.UnwrittenSourcesFaultBeforeUnsetRings : Prop :=
  ∀ (i : Instr) (s : State), i.WellFormed →
    ((∃ r ∈ i.sources, s.regs[r].wr = false) → Traps i s .unwrittenRegister) ∧
    ((∀ r ∈ i.sources, s.regs[r].wr = true) →
      ∀ rg, i.ringRead = some rg → s.rings[rg].valid = false → Traps i s .ringNotSet)

/-- The written bits (10_state.md R43). -/
def Obligations.WrittenBitsAreSetByWritesAndClearedByReset : Prop :=
  (∀ (s t : State) (j : RegIdx), State.ResetNext s → step s = .next t → t.regs[j].wr = false) ∧
  (∀ (i : Instr) (s t : State) (j : RegIdx), exec i s = .next t → t.regs[j] ≠ s.regs[j] → t.regs[j].wr = true) ∧
  (∀ (s t : State) (j : RegIdx), step s = .next t → s.regs[j].wr = true → t.regs[j].wr = false → State.ResetNext s) ∧
  (∀ (i : Instr) (s : State) (r : RegIdx), i.WellFormed → r ∈ i.sources → s.regs[r].wr = false →
    Traps i s .unwrittenRegister)

/-- Who writes FLAGS (10_state.md R50). -/
def Obligations.OnlyCmpAndBittestWriteFlags : Prop :=
  ∀ (i : Instr) (s t : State), exec i s = .next t → t.flags ≠ s.flags →
    (∃ ra rb, i = .cmp ra rb ∧ t.flags.bit = s.flags.bit) ∨
    (∃ ra imm, i = .bittest ra imm ∧ t.flags.lt = s.flags.lt ∧ t.flags.eq = s.flags.eq ∧ t.flags.gt = s.flags.gt)

/-- No command reads FLAGS (10_state.md R50, 40_control.md R182). -/
def Obligations.NoCommandReadsFlags : Prop :=
  ∀ (i : Instr) (s t : State) (f : Flags), exec i s = .next t →
    ∃ t', exec i { s with flags := f } = .next t' ∧ { t' with flags := t.flags } = t

/-- Buffer reuse is invisible (10_state.md R42). -/
def Obligations.StaleDigitsAreNeverObserved : Prop :=
  ∀ s s' : State, s.forgetStale = s'.forgetStale →
    (∀ t, step s = .next t → ∃ t', step s' = .next t' ∧ t.forgetStale = t'.forgetStale) ∧
    (∀ r, step s = .refused r → step s' = .refused r)

/-- Which command touches which space (10_state.md R51, R57, R58; 20_memory.md R111, R118). -/
def Obligations.OnlyNamedCommandsTouchRingsIobufAndEntropy : Prop :=
  ∀ (i : Instr) (s t : State), exec i s = .next t →
    (∀ r : RingIdx, t.rings[r] ≠ s.rings[r] → (∃ ra, i = .rset r ra) ∨ i = .rclr r) ∧
    ((∃ j, t.ioByte j ≠ s.ioByte j) ∨ t.ioLen ≠ s.ioLen → ∃ ra, i = .stb ra) ∧
    (t.draws ≠ s.draws → ∃ rd imm, i = .rand rd imm ∧ imm ≠ 0 ∧ t.draws = s.draws + 1) ∧
    State.OutsideKept s t

/-- No branches, no wrap (10_state.md R45, R46; 40_control.md R182, R184). -/
def Obligations.PcMovesByCommandsHostWritesAndResetOnly : Prop :=
  ∀ s t : State, step s = .next t →
    (∀ u, State.CoreTurn s u → s.busy = true → t.busy = true → s.pc.toNat < t.pc.toNat ∧ t.pc.toNat ≤ cmdWords) ∧
    (t.pc ≠ s.pc →
      State.ResetNext s ∨
      (s.busy = true ∧ (∃ u, State.CoreTurn s u) ∧ (t.pc.toNat = s.pc.toNat + 1 ∨ t.pc.toNat = s.pc.toNat + 2)) ∨
      (s.busy = false ∧ ∃ (addr : Nat) (v : Word), s.inputs.head? = some (.write 4 addr v) ∧
        Config.windowOffset s.cfg addr = some 0x010 ∧ t.pc = BitVec.ofNat 11 v.toNat))

/-- Every run ends (40_control.md R184), for every program and every start state. The premise on the fetched words is that of
93_implementation_defined.md U5. -/
def Obligations.EveryRunEnds : Prop :=
  ∀ s : State, s.Inv → s.busy = true → s.inputs = [] →
    (∀ (k : Nat) (v : State), Host.Core.run Sys2Proof.core k s = .next v → v.busy = true → v.FetchesWritten) →
    ∃ (n : Nat) (t : State), n ≤ cmdWords + 1 ∧ Host.Core.run Sys2Proof.core n s = .next t ∧ t.busy = false ∧
      t.done = !t.fault ∧ (t.fault = true → t.pc = t.faultPc) ∧
      ∀ k < n, ∃ v : State, Host.Core.run Sys2Proof.core k s = .next v ∧ v.busy = true

/-- NOP (40_control.md R183) and HALT (R181). -/
def Obligations.NopAndHaltDoTheirEffectOnly : Prop :=
  (∀ s : State, Completes .nop s fun t => t = { s with pc := s.pc + 1, scratch := 0 }) ∧
  (∀ s : State, Completes .halt s fun t =>
    t = { s with pc := s.pc + 1, busy := false, done := true, scratch := 0 } ∧ t.irq = s.ie) ∧
  EncodedAs .nop 0x00 .n ∧ encodeWord .nop = 0 ∧ EncodedAs .halt 0x01 .n ∧ encodeWord .halt = 0x04000000 ∧
  (∀ w : Word, opcOf w = 0x00 → w ≠ 0 → ∃ e, decodeHead w = .error e) ∧
  (∀ w : Word, opcOf w = 0x01 → w ≠ 0x04000000 → ∃ e, decodeHead w = .error e)

/-- MOV, ZERO and LDI (41_regfile.md R200, R201, R202). -/
def Obligations.MovZeroAndLdiWriteOneRegister : Prop :=
  (∀ (s : State) (rd ra : RegIdx),
    EncodedAs (.mov rd ra) 0x02 .da ∧
    (s.regs[ra].wr = false → Traps (.mov rd ra) s .unwrittenRegister) ∧
    (s.regs[ra].wr = true → Completes (.mov rd ra) s fun t => State.Wrote s t 1 rd s.regs[ra].val)) ∧
  (∀ (s : State) (rd : RegIdx),
    EncodedAs (.zero rd) 0x03 .d ∧
    Completes (.zero rd) s fun t => State.Wrote s t 1 rd 0 ∧ ∀ j < s.cfg.maxw, t.regs[rd].dig j = 0) ∧
  (∀ (s : State) (rd : RegIdx) (imm : Word),
    EncodedAs (.ldi rd imm) 0x04 .di ∧
    Completes (.ldi rd imm) s fun t => State.Wrote s t 2 rd imm.toNat)

/-- LDB (41_regfile.md R205). -/
def Obligations.LdbImportsIobufBigEndian : Prop :=
  ∀ (s : State) (rd : RegIdx),
    EncodedAs (.ldb rd) 0x05 .d ∧
    (s.ioBytes < s.ioLen.toNat → Traps (.ldb rd) s .byteCount) ∧
    (s.ioLen.toNat ≤ s.ioBytes →
      beValue (s.ioString s.ioLen.toNat) ≤ s.vmax ∧
      Completes (.ldb rd) s fun t => State.Wrote s t 1 rd (beValue (s.ioString s.ioLen.toNat)))

/-- STB (41_regfile.md R206). The invariant rules out register values above the capacity. -/
def Obligations.StbExportsMinimalBigEndian : Prop :=
  ∀ (s : State) (ra : RegIdx), s.Inv →
    EncodedAs (.stb ra) 0x06 .a ∧
    (s.regs[ra].wr = false → Traps (.stb ra) s .unwrittenRegister) ∧
    (s.regs[ra].wr = true →
      (minBE s.regs[ra].val).length ≤ s.ioBytes ∧
      Completes (.stb ra) s fun t =>
        State.Completed s t 1 [] ∧ t.rings = s.rings ∧ t.flags = s.flags ∧
        t.ioLen.toNat = (minBE s.regs[ra].val).length ∧
        (∀ j (h : j < (minBE s.regs[ra].val).length), t.ioByte j = (minBE s.regs[ra].val)[j]) ∧
        (∀ j, (minBE s.regs[ra].val).length ≤ j → t.ioByte j = s.ioByte j))

/-- The byte-string functions of LDB and STB (41_regfile.md R204). -/
def Obligations.ByteStringsRoundTrip : Prop :=
  (∀ bytes : List Byte, beValue bytes =
    ((List.range bytes.length).map fun j => (bytes.getD j 0).toNat * 256^(bytes.length - 1 - j)).sum) ∧
  (∀ v : Nat, (minBE v).length = if v = 0 then 1 else (bitLen v + 7) / 8) ∧
  (∀ v j : Nat, j < (minBE v).length →
    ((minBE v).getD j 0).toNat = (v >>> (8 * ((minBE v).length - 1 - j))) % 256) ∧
  (∀ v : Nat, v ≠ 0 → (minBE v).getD 0 0 ≠ 0) ∧
  (∀ v : Nat, beValue (minBE v) = v)

/-- RAND (41_regfile.md R207). `draws` is the model's own count of draws (log 8). -/
def Obligations.RandWritesAValueBelowTwoToTheCount : Prop :=
  ∀ (s : State) (rd : RegIdx) (imm : Word),
    EncodedAs (.rand rd imm) 0x07 .di ∧
    (32 * s.cfg.maxw < imm.toNat → Traps (.rand rd imm) s .bitCount) ∧
    (imm.toNat ≤ 32 * s.cfg.maxw →
      Completes (.rand rd imm) s fun t =>
        ∃ v, v < 2^imm.toNat ∧ State.Wrote s t 2 rd v ∧ t.draws = if imm.toNat = 0 then s.draws else s.draws + 1)

/-- BITSET and BITCLR (41_regfile.md R203, R208, R209). The invariant rules out register values above the capacity. -/
def Obligations.BitsetAndBitclrChangeOneBit : Prop :=
  ∀ (s : State) (rd : RegIdx) (imm : Word), s.Inv →
    EncodedAs (.bitset rd imm) 0x08 .di ∧ EncodedAs (.bitclr rd imm) 0x09 .di ∧
    (s.regs[rd].wr = false →
      Traps (.bitset rd imm) s .unwrittenRegister ∧ Traps (.bitclr rd imm) s .unwrittenRegister) ∧
    (s.regs[rd].wr = true →
      (32 * s.cfg.maxw ≤ imm.toNat → Traps (.bitset rd imm) s .bitIndex) ∧
      (imm.toNat < 32 * s.cfg.maxw →
        s.regs[rd].val ||| 2^imm.toNat ≤ s.vmax ∧
        digitLen (s.regs[rd].val ||| 2^imm.toNat) = max (digitLen s.regs[rd].val) (imm.toNat / 32 + 1) ∧
        Completes (.bitset rd imm) s fun t => State.Wrote s t 2 rd (s.regs[rd].val ||| 2^imm.toNat)) ∧
      Completes (.bitclr rd imm) s fun t =>
        ∃ v, State.Wrote s t 2 rd v ∧
          v = (if s.regs[rd].val.testBit imm.toNat then s.regs[rd].val - 2^imm.toNat else s.regs[rd].val) ∧
          ∀ k, v.testBit k = (s.regs[rd].val.testBit k && decide (k ≠ imm.toNat)))

/-- BITTEST (41_regfile.md R210) and BITLEN (R211). -/
def Obligations.BittestAndBitlenReadTheirSource : Prop :=
  (∀ (s : State) (ra : RegIdx) (imm : Word),
    EncodedAs (.bittest ra imm) 0x0A .ai ∧
    (s.regs[ra].wr = false → Traps (.bittest ra imm) s .unwrittenRegister) ∧
    (s.regs[ra].wr = true → Completes (.bittest ra imm) s fun t =>
      State.Completed s t 2 [] ∧ t.rings = s.rings ∧ State.IoKept s t ∧
      t.flags = { s.flags with bit := s.regs[ra].val.testBit imm.toNat } ∧
      (bitLen s.regs[ra].val ≤ imm.toNat → t.flags.bit = false))) ∧
  (∀ (s : State) (rd ra : RegIdx),
    EncodedAs (.bitlen rd ra) 0x0B .da ∧
    (s.regs[ra].wr = false → Traps (.bitlen rd ra) s .unwrittenRegister) ∧
    (s.regs[ra].wr = true → Completes (.bitlen rd ra) s fun t =>
      State.Wrote s t 1 rd (if s.regs[ra].val = 0 then 0 else Nat.log2 s.regs[ra].val + 1)))

/-- INC2 (41_regfile.md R203, R212). -/
def Obligations.Inc2AddsTwoInPlace : Prop :=
  ∀ (s : State) (rd : RegIdx),
    EncodedAs (.inc2 rd) 0x0C .d ∧
    (s.regs[rd].wr = false → Traps (.inc2 rd) s .unwrittenRegister) ∧
    (s.regs[rd].wr = true →
      (s.vmax < s.regs[rd].val + 2 → Traps (.inc2 rd) s .capacityOverflow) ∧
      (s.regs[rd].val + 2 ≤ s.vmax → Completes (.inc2 rd) s fun t => State.Wrote s t 1 rd (s.regs[rd].val + 2)))

/-- CMP and its datapath (42_kernel.md R240). -/
def Obligations.CmpOrdersTwoMagnitudes : Prop :=
  (∀ (s : State) (ra rb : RegIdx),
    EncodedAs (.cmp ra rb) 0x10 .ab ∧
    (s.regs[ra].wr = false ∨ s.regs[rb].wr = false → Traps (.cmp ra rb) s .unwrittenRegister) ∧
    (s.regs[ra].wr = true → s.regs[rb].wr = true → Completes (.cmp ra rb) s fun t =>
      State.Completed s t 1 [] ∧ t.rings = s.rings ∧ State.IoKept s t ∧
      t.flags.lt = decide (s.regs[ra].val < s.regs[rb].val) ∧ t.flags.eq = decide (s.regs[ra].val = s.regs[rb].val) ∧
      t.flags.gt = decide (s.regs[rb].val < s.regs[ra].val) ∧ t.flags.bit = s.flags.bit ∧ t.flags.ok ∧
      (t.flags.lt || t.flags.eq || t.flags.gt) = true)) ∧
  (∀ a b : Nat, comparator a b = compare a b)

/-- ADD (42_kernel.md R242). -/
def Obligations.AddIsExactOrOverflows : Prop :=
  ∀ (s : State) (rd ra rb : RegIdx),
    EncodedAs (.add rd ra rb) 0x11 .dab ∧
    (s.regs[ra].wr = false ∨ s.regs[rb].wr = false → Traps (.add rd ra rb) s .unwrittenRegister) ∧
    (s.regs[ra].wr = true → s.regs[rb].wr = true →
      (s.vmax < s.regs[ra].val + s.regs[rb].val → Traps (.add rd ra rb) s .capacityOverflow) ∧
      (s.regs[ra].val + s.regs[rb].val ≤ s.vmax →
        Completes (.add rd ra rb) s fun t => State.Wrote s t 1 rd (s.regs[ra].val + s.regs[rb].val)))

/-- SUB (42_kernel.md R244). -/
def Obligations.SubIsExactOrFaultsNegative : Prop :=
  ∀ (s : State) (rd ra rb : RegIdx),
    EncodedAs (.sub rd ra rb) 0x12 .dab ∧
    (s.regs[ra].wr = false ∨ s.regs[rb].wr = false → Traps (.sub rd ra rb) s .unwrittenRegister) ∧
    (s.regs[ra].wr = true → s.regs[rb].wr = true →
      (s.regs[ra].val < s.regs[rb].val → Traps (.sub rd ra rb) s .negativeDifference) ∧
      (s.regs[rb].val ≤ s.regs[ra].val →
        Completes (.sub rd ra rb) s fun t => State.Wrote s t 1 rd (s.regs[ra].val - s.regs[rb].val)))

/-- MUL (42_kernel.md R246) and SQR (R248). -/
def Obligations.MulAndSqrAreExactOrOverflow : Prop :=
  (∀ (s : State) (rd ra rb : RegIdx),
    EncodedAs (.mul rd ra rb) 0x13 .dab ∧
    (s.regs[ra].wr = false ∨ s.regs[rb].wr = false → Traps (.mul rd ra rb) s .unwrittenRegister) ∧
    (s.regs[ra].wr = true → s.regs[rb].wr = true →
      (s.vmax < s.regs[ra].val * s.regs[rb].val → Traps (.mul rd ra rb) s .capacityOverflow) ∧
      (s.regs[ra].val * s.regs[rb].val ≤ s.vmax →
        Completes (.mul rd ra rb) s fun t => State.Wrote s t 1 rd (s.regs[ra].val * s.regs[rb].val)))) ∧
  (∀ (s : State) (rd ra : RegIdx),
    EncodedAs (.sqr rd ra) 0x14 .da ∧
    (s.regs[ra].wr = false → Traps (.sqr rd ra) s .unwrittenRegister) ∧
    (s.regs[ra].wr = true →
      (s.vmax < s.regs[ra].val * s.regs[ra].val → Traps (.sqr rd ra) s .capacityOverflow) ∧
      (s.regs[ra].val * s.regs[ra].val ≤ s.vmax →
        Completes (.sqr rd ra) s fun t => State.Wrote s t 1 rd (s.regs[ra].val * s.regs[ra].val))))

/-- MULW (42_kernel.md R249). -/
def Obligations.MulwMultipliesByASignedImmediate : Prop :=
  ∀ (s : State) (rd ra : RegIdx) (imm : Word),
    EncodedAs (.mulw rd ra imm) 0x15 .dai ∧
    (s.regs[ra].wr = false → Traps (.mulw rd ra imm) s .unwrittenRegister) ∧
    (s.regs[ra].wr = true →
      (imm.toInt < 0 → Traps (.mulw rd ra imm) s .negativeMultiplier) ∧
      (0 ≤ imm.toInt →
        (s.vmax < s.regs[ra].val * imm.toNat → Traps (.mulw rd ra imm) s .capacityOverflow) ∧
        (s.regs[ra].val * imm.toNat ≤ s.vmax →
          Completes (.mulw rd ra imm) s fun t => State.Wrote s t 2 rd (s.regs[ra].val * imm.toNat))))

/-- SHL (42_kernel.md R251) and SHR (R252). SHL's overflow is stated on the value, as the rule does; the meaning tests the
bit length (log 19). -/
def Obligations.ShlAndShrScaleByPowersOfTwo : Prop :=
  ∀ (s : State) (rd ra : RegIdx) (imm : Word),
    EncodedAs (.shl rd ra imm) 0x16 .dai ∧ EncodedAs (.shr rd ra imm) 0x17 .dai ∧
    (s.regs[ra].wr = false →
      Traps (.shl rd ra imm) s .unwrittenRegister ∧ Traps (.shr rd ra imm) s .unwrittenRegister) ∧
    (s.regs[ra].wr = true →
      (imm.toInt < 0 → Traps (.shl rd ra imm) s .negativeShift ∧ Traps (.shr rd ra imm) s .negativeShift) ∧
      (0 ≤ imm.toInt →
        (s.vmax < s.regs[ra].val * 2^imm.toNat → Traps (.shl rd ra imm) s .capacityOverflow) ∧
        (s.regs[ra].val * 2^imm.toNat ≤ s.vmax →
          Completes (.shl rd ra imm) s fun t => State.Wrote s t 2 rd (s.regs[ra].val * 2^imm.toNat)) ∧
        Completes (.shr rd ra imm) s fun t => State.Wrote s t 2 rd (s.regs[ra].val / 2^imm.toNat)))

/-- DIVREM (42_kernel.md R254, 30_encoding.md R148). -/
def Obligations.DivremWritesQuotientAndRemainder : Prop :=
  ∀ (s : State) (rd re ra rb : RegIdx),
    (rd = re → ∃ e, decodeHead (encodeWord (.divrem rd re ra rb)) = .error e) ∧
    (rd ≠ re →
      EncodedAs (.divrem rd re ra rb) 0x18 .deab ∧
      (s.regs[ra].wr = false ∨ s.regs[rb].wr = false → Traps (.divrem rd re ra rb) s .unwrittenRegister) ∧
      (s.regs[ra].wr = true → s.regs[rb].wr = true →
        (s.regs[rb].val = 0 → Traps (.divrem rd re ra rb) s .divideByZero) ∧
        (s.regs[rb].val ≠ 0 → Completes (.divrem rd re ra rb) s fun t =>
          Reg.Holds t.regs[rd] (s.regs[ra].val / s.regs[rb].val) ∧
          Reg.Holds t.regs[re] (s.regs[ra].val % s.regs[rb].val) ∧
          s.regs[ra].val = t.regs[rd].val * s.regs[rb].val + t.regs[re].val ∧ t.regs[re].val < s.regs[rb].val ∧
          State.OnlyRegs s t 1 [rd, re])))

/-- The laws (a+b)-b = a, (a*b)/b = a, a % b < b and the byte round trip, as sequences of two commands. -/
def Obligations.SourceLawsHoldAcrossCommands : Prop :=
  (∀ (s : State) (rd re ra rb : RegIdx), s.regs[ra].wr = true → s.regs[rb].wr = true → rd ≠ rb →
    s.regs[ra].val + s.regs[rb].val ≤ s.vmax →
    Completes (.add rd ra rb) s fun t => Completes (.sub re rd rb) t fun u => Reg.Holds u.regs[re] s.regs[ra].val) ∧
  (∀ (s : State) (rd rq rr ra rb : RegIdx), s.regs[ra].wr = true → s.regs[rb].wr = true → rd ≠ rb → rq ≠ rr →
    s.regs[rb].val ≠ 0 → s.regs[ra].val * s.regs[rb].val ≤ s.vmax →
    Completes (.mul rd ra rb) s fun t => Completes (.divrem rq rr rd rb) t fun u =>
      Reg.Holds u.regs[rq] s.regs[ra].val ∧ Reg.Holds u.regs[rr] 0) ∧
  (∀ (s : State) (rq rr ra rb : RegIdx), s.regs[ra].wr = true → s.regs[rb].wr = true → rq ≠ rr → rq ≠ rb → rr ≠ rb →
    s.regs[rb].val ≠ 0 →
    Completes (.divrem rq rr ra rb) s fun t => Completes (.cmp rr rb) t fun u => u.flags.lt = true) ∧
  (∀ (s : State) (rd ra : RegIdx), s.Inv → s.regs[ra].wr = true →
    Completes (.stb ra) s fun t => Completes (.ldb rd) t fun u => Reg.Holds u.regs[rd] s.regs[ra].val)

/-- RSET (43_ring.md R281) and RCLR (R282). -/
def Obligations.RsetAndRclrSetUpAndTearDownARing : Prop :=
  (∀ (s : State) (rg : RingIdx) (ra : RegIdx),
    EncodedAs (.rset rg ra) 0x20 .ga ∧
    (s.regs[ra].wr = false → Traps (.rset rg ra) s .unwrittenRegister) ∧
    (s.regs[ra].wr = true →
      (s.regs[ra].val = 0 → Traps (.rset rg ra) s .divideByZero) ∧
      (s.regs[ra].val ≠ 0 → Completes (.rset rg ra) s fun t =>
        t.rings[rg].valid = true ∧ t.rings[rg].m = s.regs[ra].val ∧ t.rings[rg].k = digitLen s.regs[ra].val ∧
        t.rings[rg].mu = radix^(2 * digitLen s.regs[ra].val) / s.regs[ra].val ∧
        t.rings[rg].odd = decide (s.regs[ra].val % 2 = 1) ∧
        t.rings[rg].minv = (if s.regs[ra].val % 2 = 1 then montInv s.regs[ra].val else 0) ∧
        (∀ q : RingIdx, q ≠ rg → t.rings[q] = s.rings[q]) ∧
        State.Completed s t 1 [] ∧ t.flags = s.flags ∧ State.IoKept s t))) ∧
  (∀ (s : State) (rg : RingIdx),
    EncodedAs (.rclr rg) 0x21 .g ∧
    Completes (.rclr rg) s fun t =>
      t.rings[rg] = { valid := false, m := 0, k := 0, mu := 0, odd := false, minv := 0 } ∧
      (∀ q : RingIdx, q ≠ rg → t.rings[q] = s.rings[q]) ∧
      State.Completed s t 1 [] ∧ t.flags = s.flags ∧ State.IoKept s t)

/-- RRED (43_ring.md R285). The invariant rules out contexts that no RSET stores. -/
def Obligations.RredReducesModuloTheRing : Prop :=
  ∀ (s : State) (rd ra : RegIdx) (rg : RingIdx), s.Inv →
    EncodedAs (.rred rd ra rg) 0x22 .dag ∧
    (s.regs[ra].wr = false → Traps (.rred rd ra rg) s .unwrittenRegister) ∧
    (s.regs[ra].wr = true →
      (s.rings[rg].valid = false → Traps (.rred rd ra rg) s .ringNotSet) ∧
      (s.rings[rg].valid = true →
        Completes (.rred rd ra rg) s fun t => State.Wrote s t 1 rd (s.regs[ra].val % s.rings[rg].m)))

/-- RMUL (43_ring.md R286). The invariant rules out contexts that no RSET stores. -/
def Obligations.RmulMultipliesModuloTheRing : Prop :=
  ∀ (s : State) (rd ra rb : RegIdx) (rg : RingIdx), s.Inv →
    EncodedAs (.rmul rd ra rb rg) 0x23 .dabg ∧
    (s.regs[ra].wr = false ∨ s.regs[rb].wr = false → Traps (.rmul rd ra rb rg) s .unwrittenRegister) ∧
    (s.regs[ra].wr = true → s.regs[rb].wr = true →
      (s.rings[rg].valid = false → Traps (.rmul rd ra rb rg) s .ringNotSet) ∧
      (s.rings[rg].valid = true → Completes (.rmul rd ra rb rg) s fun t =>
        State.Wrote s t 1 rd (s.regs[ra].val * s.regs[rb].val % s.rings[rg].m)))

/-- RDIFF (43_ring.md R287, 90_conflicts.md C12). The invariant rules out contexts that no RSET stores. -/
def Obligations.RdiffEmulatesSignedSubtraction : Prop :=
  ∀ (s : State) (rd ra rb : RegIdx) (rg : RingIdx), s.Inv →
    EncodedAs (.rdiff rd ra rb rg) 0x24 .dabg ∧
    (s.regs[ra].wr = false ∨ s.regs[rb].wr = false → Traps (.rdiff rd ra rb rg) s .unwrittenRegister) ∧
    (s.regs[ra].wr = true → s.regs[rb].wr = true →
      (s.rings[rg].valid = false → Traps (.rdiff rd ra rb rg) s .ringNotSet) ∧
      (s.rings[rg].valid = true → Completes (.rdiff rd ra rb rg) s fun t =>
        State.Wrote s t 1 rd (
          if s.regs[ra].val = s.regs[rb].val then 0
          else if s.regs[rb].val < s.regs[ra].val then (s.regs[ra].val - s.regs[rb].val) % s.rings[rg].m
          else s.rings[rg].m - (s.regs[rb].val - s.regs[ra].val) % s.rings[rg].m)))

/-- The Montgomery commands (44_montgomery.md R323 to R326). The invariant rules out contexts that no RSET stores. -/
def Obligations.MontgomeryCommandsConvertAndMultiply : Prop :=
  ∀ (s : State) (rd ra rb : RegIdx) (rg : RingIdx), s.Inv →
    (EncodedAs (.rtom rd ra rg) 0x27 .dag ∧ EncodedAs (.rfromm rd ra rg) 0x28 .dag ∧
      EncodedAs (.rmmul rd ra rb rg) 0x29 .dabg) ∧
    (s.regs[ra].wr = false →
      Traps (.rtom rd ra rg) s .unwrittenRegister ∧ Traps (.rfromm rd ra rg) s .unwrittenRegister) ∧
    (s.regs[ra].wr = false ∨ s.regs[rb].wr = false → Traps (.rmmul rd ra rb rg) s .unwrittenRegister) ∧
    (s.regs[ra].wr = true →
      (s.rings[rg].valid = false → Traps (.rtom rd ra rg) s .ringNotSet ∧ Traps (.rfromm rd ra rg) s .ringNotSet) ∧
      (s.rings[rg].valid = true → s.rings[rg].m % 2 = 0 →
        Traps (.rtom rd ra rg) s .evenModulus ∧ Traps (.rfromm rd ra rg) s .evenModulus) ∧
      (s.rings[rg].valid = true → s.rings[rg].m % 2 = 1 →
        Completes (.rtom rd ra rg) s (fun t =>
          State.Wrote s t 1 rd (s.regs[ra].val * radix^(digitLen s.rings[rg].m) % s.rings[rg].m)) ∧
        Completes (.rfromm rd ra rg) s (fun t => ∃ v, State.Wrote s t 1 rd v ∧ v < s.rings[rg].m ∧
          v * radix^(digitLen s.rings[rg].m) % s.rings[rg].m = s.regs[ra].val % s.rings[rg].m))) ∧
    (s.regs[ra].wr = true → s.regs[rb].wr = true →
      (s.rings[rg].valid = false → Traps (.rmmul rd ra rb rg) s .ringNotSet) ∧
      (s.rings[rg].valid = true → s.rings[rg].m % 2 = 0 → Traps (.rmmul rd ra rb rg) s .evenModulus) ∧
      (s.rings[rg].valid = true → s.rings[rg].m % 2 = 1 →
        Completes (.rmmul rd ra rb rg) s fun t => ∃ v, State.Wrote s t 1 rd v ∧ v < s.rings[rg].m ∧
          v * radix^(digitLen s.rings[rg].m) % s.rings[rg].m = s.regs[ra].val * s.regs[rb].val % s.rings[rg].m))

/-- The exponentiation commands and their architectural result (45_pow.md R350, R351, R354), through the square-and-multiply
paths. The invariant rules out contexts that no RSET stores. -/
def Obligations.PowersAreExactModuloTheRing : Prop :=
  (∀ (s : State) (rd ra rb : RegIdx) (rg : RingIdx), s.Inv →
    EncodedAs (.rpow rd ra rb rg) 0x25 .dabg ∧
    (s.regs[ra].wr = false ∨ s.regs[rb].wr = false → Traps (.rpow rd ra rb rg) s .unwrittenRegister) ∧
    (s.regs[ra].wr = true → s.regs[rb].wr = true →
      (s.rings[rg].valid = false → Traps (.rpow rd ra rb rg) s .ringNotSet) ∧
      (s.rings[rg].valid = true → Completes (.rpow rd ra rb rg) s fun t =>
        State.Wrote s t 1 rd (s.regs[ra].val ^ s.regs[rb].val % s.rings[rg].m)))) ∧
  (∀ (s : State) (rd rb : RegIdx) (imm : Word) (rg : RingIdx), s.Inv →
    EncodedAs (.rpowi rd imm rb rg) 0x26 .dbgi ∧
    (s.regs[rb].wr = false → Traps (.rpowi rd imm rb rg) s .unwrittenRegister) ∧
    (s.regs[rb].wr = true →
      (s.rings[rg].valid = false → Traps (.rpowi rd imm rb rg) s .ringNotSet) ∧
      (s.rings[rg].valid = true → Completes (.rpowi rd imm rb rg) s fun t =>
        State.Wrote s t 2 rd (imm.toNat ^ s.regs[rb].val % s.rings[rg].m))))

/-- The equivalence the source requires (45_pow.md R357). -/
def Obligations.ExponentiationPathsAgree : Prop :=
  (∀ m base e : Nat, m ≠ 0 →
    (m % 2 = 1 → (Ring.ofModulus m).oddPow base e = powMod base e m) ∧
    (Ring.ofModulus m).evenPow base e = powMod base e m ∧
    (base < 2^32 → (Ring.ofModulus m).smallPow base e = powMod base e m) ∧
    (Ring.ofModulus m).pow2 e = powMod 2 e m) ∧
  (∀ (s : State) (rd ra rb : RegIdx) (imm : Word) (rg : RingIdx), s.Inv → s.regs[ra].wr = true → s.regs[rb].wr = true →
    s.rings[rg].valid = true → s.regs[ra].val = imm.toNat →
    ∃ v, (Completes (.rpowi rd imm rb rg) s fun t => Reg.Holds t.regs[rd] v) ∧
      Completes (.rpow rd ra rb rg) s fun t => Reg.Holds t.regs[rd] v)

/-- The Montgomery path and the Barrett path give the same value (44_montgomery.md R327). -/
def Obligations.MontgomeryAndBarrettPathsAgree : Prop :=
  (∀ m a c : Nat, m % 2 = 1 →
    (Ring.ofModulus m).fromMont ((Ring.ofModulus m).montMul ((Ring.ofModulus m).toMont a) ((Ring.ofModulus m).toMont c)) =
      a * c % m ∧
    (Ring.ofModulus m).multiply a c = a * c % m) ∧
  (∀ (s : State) (d e ra rb : RegIdx) (rg : RingIdx), s.Inv → s.regs[ra].wr = true → s.regs[rb].wr = true →
    s.rings[rg].valid = true → s.rings[rg].m % 2 = 1 → d ≠ rb → d ≠ e →
    ∃ v, (Completes (.rtom d ra rg) s fun t => Completes (.rtom e rb rg) t fun u => Completes (.rmmul d d e rg) u fun x =>
        Completes (.rfromm d d rg) x fun y => Reg.Holds y.regs[d] v) ∧
      Completes (.rmul d ra rb rg) s fun t => Reg.Holds t.regs[d] v)

/-- The Barrett datapath and the two reduction helpers (43_ring.md R283, R284). -/
def Obligations.BarrettPipelineReduces : Prop :=
  ∀ m x : Nat, m ≠ 0 →
    (digitLen x ≤ 2 * digitLen m →
      (Ring.ofModulus m).barrettQuotient x ≤ x / m ∧ x / m ≤ (Ring.ofModulus m).barrettQuotient x + 2 ∧
      (Ring.ofModulus m).barrettResidue x < 3 * m ∧ (Ring.ofModulus m).barrettReduce x = x % m) ∧
    (Ring.ofModulus m).reduce x = x % m ∧
    (Ring.ofModulus m).preReduce x % m = x % m ∧ digitLen ((Ring.ofModulus m).preReduce x) ≤ digitLen m

/-- The Montgomery constant, the REDC datapath and the conversions (44_montgomery.md R320, R321, R322). -/
def Obligations.RedcAndItsConstantMeetTheirInvariants : Prop :=
  (∀ m : Nat, m % 2 = 1 →
    (m * (montInv m).toNat + 1) % 2^32 = 0 ∧ (m % 2^32 * (montInv m).toNat + 1) % 2^32 = 0 ∧
    (∀ t, t < m * radix^(digitLen m) →
      (∀ n ≤ digitLen m, (Ring.ofModulus m).redcFold n t % radix^n = 0 ∧
        digitLen ((Ring.ofModulus m).redcFold n t) ≤ 2 * digitLen m + 1) ∧
      (Ring.ofModulus m).redcFold (digitLen m) t / radix^(digitLen m) < 2 * m ∧
      (Ring.ofModulus m).redc t < m ∧ (Ring.ofModulus m).redc t * radix^(digitLen m) % m = t % m) ∧
    (∀ x, (Ring.ofModulus m).toMont x = x * radix^(digitLen m) % m) ∧
    (∀ y, (Ring.ofModulus m).fromMont y < m ∧ (Ring.ofModulus m).fromMont y * radix^(digitLen m) % m = y % m) ∧
    (∀ a c, (Ring.ofModulus m).montMul ((Ring.ofModulus m).toMont a) ((Ring.ofModulus m).toMont c) =
      (Ring.ofModulus m).toMont (a * c % m)) ∧
    (∀ a, (Ring.ofModulus m).fromMont ((Ring.ofModulus m).toMont a) = a % m) ∧
    (Ring.ofModulus m).toMont 1 = radix^(digitLen m) % m) ∧
  (∀ m : Nat, m % 2 = 0 → (Ring.ofModulus m).minv = 0)

/-- The adder and subtractor datapaths (42_kernel.md R241, R243). -/
def Obligations.AdderAndSubtractorPropagateCarries : Prop :=
  (∀ a b : Nat, adder a b = a + b ∧ digitLen (a + b) ≤ max (digitLen a) (digitLen b) + 1) ∧
  (∀ a b : Nat, b ≤ a → subtractor a b = (a - b, 0))

/-- The multiplier and squarer datapaths (42_kernel.md R245, R247). -/
def Obligations.MultiplierAndSquarerAreExact : Prop :=
  (∀ a b : Nat, (multiplierDigits a b).length = digitLen a + digitLen b ∧ (∀ d ∈ multiplierDigits a b, d < 2^32) ∧
    multiplier a b = a * b) ∧
  (∀ a : Nat, squarer a = a * a)

/-- The shifter datapath (42_kernel.md R250). -/
def Obligations.ShiftersScaleByPowersOfTwo : Prop :=
  ∀ a n : Nat, leftShifter a n = a * 2^n ∧ rightShifter a n = a / 2^n

/-- The divider datapath, single-digit and Knuth (42_kernel.md R253). -/
def Obligations.DividerGivesQuotientAndRemainder : Prop :=
  ∀ a d : Nat, d ≠ 0 →
    divider a d = (a / d, a % d) ∧ a = (divider a d).1 * d + (divider a d).2 ∧ (divider a d).2 < d

/-- CTRL (10_state.md R54), the start of a run (40_control.md R185) and when START is accepted (70_reset_and_hazards.md
R454). What SRST leaves is the statement about the resets. -/
def Obligations.CtrlWritesActInOrder : Prop :=
  ∀ (s : State) (rest : List HostEvent) (addr : Nat) (v : Word),
    s.inputs = .write 4 addr v :: rest → Config.windowOffset s.cfg addr = some 0x004 →
    (v.getLsbD 3 = true → step s = .next (State.softReset { s with inputs := rest })) ∧
    (v.getLsbD 3 = false →
      ∃ t, step s = .next t ∧
        ∃ cleared started : Bool,
          cleared = (v.getLsbD 2 && !s.busy) ∧
          started = (v.getLsbD 0 && !s.busy && !(s.fault && !cleared)) ∧
          t = { s with
            inputs := rest, ie := v.getLsbD 1,
            busy := s.busy || started,
            done := s.done && !cleared && !started,
            fault := s.fault && !cleared,
            hwerr := (s.hwerr && !cleared) || (v.getLsbD 2 && s.busy) || (v.getLsbD 0 && !started),
            faultCode := if cleared then .none else s.faultCode,
            faultPc := if cleared then 0 else s.faultPc,
            faultCmd := if cleared then 0 else s.faultCmd })

/-- Host writes other than to CTRL (70_reset_and_hazards.md R451; 20_memory.md R105, R107 to R109; 10_state.md R46). That a
busy write to a read-only offset sets HWERR too is log 10. That an access is decided by its start offset, so that one that
straddles the end of the window is misaligned or of another width, is log 24. The four bytes of an IOBUF store are the
statement about IOBUF words. -/
def Obligations.HostWritesStoreOrAreRefused : Prop :=
  (∀ (s : State) (rest : List HostEvent) (bytes addr off : Nat) (v : Word),
    s.inputs = .write bytes addr v :: rest → Config.windowOffset s.cfg addr = some off →
    (bytes ≠ 4 ∨ off % 4 ≠ 0 → step s = .next { s with inputs := rest, hwerr := true }) ∧
    (bytes = 4 → off % 4 = 0 → off ≠ 0x004 →
      (s.busy = true → step s = .next { s with inputs := rest, hwerr := true }) ∧
      (s.busy = false →
        (off = 0x010 → step s = .next { s with inputs := rest, pc := BitVec.ofNat 11 v.toNat }) ∧
        (off = 0x020 → step s = .next { s with inputs := rest, ioLen := BitVec.ofNat 16 v.toNat }) ∧
        (0x800 ≤ off → off < 0x800 + s.ioBytes → off < 0x1000 → ∃ t, step s = .next t ∧
          t.mmioWord (.ioBuf ((off - 0x800) / 4)) = v ∧
          (∀ a, a < off - 0x800 ∨ off - 0x800 + 4 ≤ a → t.ioByte a = s.ioByte a) ∧
          t = { s with inputs := rest, ioBuf := t.ioBuf }) ∧
        (0x1000 ≤ off → ∃ t, step s = .next t ∧
          t.cmdWord ((off - 0x1000) / 4) = v ∧ t.cmdMem.read? ((off - 0x1000) / 4) = some v ∧
          (∀ i, i ≠ (off - 0x1000) / 4 → t.cmdWord i = s.cmdWord i ∧ t.cmdMem.read? i = s.cmdMem.read? i) ∧
          t = { s with inputs := rest, cmdMem := t.cmdMem }) ∧
        (off ≠ 0x010 → off ≠ 0x020 → off < 0x800 ∨ (0x800 + s.ioBytes ≤ off ∧ off < 0x1000) →
          step s = .next { s with inputs := rest })))) ∧
  (∀ s t : State, step s = .next t → s.hwerr = true → t.hwerr = false →
    State.ResetNext s ∨ (s.busy = false ∧ ∃ v : Word, State.CtrlNext s v ∧ v.getLsbD 2 = true))

/-- Host reads (20_memory.md R107, R109, R110; 70_reset_and_hazards.md R452). `responses` and `frees` are the model's own
(log 9, log 15, log 24). -/
def Obligations.HostReadsAnswerAndChangeNothing : Prop :=
  ∀ (s : State) (rest : List HostEvent) (bytes addr off : Nat),
    s.inputs = .read bytes addr :: rest → Config.windowOffset s.cfg addr = some off →
    ∃ (t : State) (w : Word), step s = .next t ∧
      t = { s with
        inputs := rest, responses := w :: s.responses, frees := t.frees,
        hwerr := s.hwerr || decide (bytes ≠ 4 ∨ off % 4 ≠ 0) } ∧
      (bytes = 4 → off % 4 = 0 → s.busy = false ∨ off = 0x000 ∨ off = 0x004 ∨ off = 0x008 →
        w = s.mmioWord (mmioTarget s.ioBytes off))

/-- The MMIO map (20_memory.md R106). -/
def Obligations.MmioMapHasTheListedOffsets : Prop :=
  (∀ n ≤ 0x800,
    mmioTarget n 0x000 = .id ∧ mmioTarget n 0x004 = .ctrl ∧ mmioTarget n 0x008 = .status ∧ mmioTarget n 0x00C = .flags ∧
    mmioTarget n 0x010 = .pc ∧ mmioTarget n 0x014 = .faultCode ∧ mmioTarget n 0x018 = .faultPc ∧
    mmioTarget n 0x01C = .faultCmd ∧ mmioTarget n 0x020 = .ioLen ∧ mmioTarget n 0x024 = .ringStat ∧
    mmioTarget n 0x028 = .regWr ∧ mmioTarget n 0x02C = .param ∧
    (∀ r : RingIdx, mmioTarget n (0x030 + 4 * r.val) = .ringK r) ∧
    (∀ i : RegIdx, mmioTarget n (0x040 + 4 * i.val) = .regLen i) ∧
    (∀ off, 0x080 ≤ off → off < 0x800 → mmioTarget n off = .reserved) ∧
    (∀ j, 4 * j < n → mmioTarget n (0x800 + 4 * j) = .ioBuf j) ∧
    (∀ off, 0x800 + n ≤ off → off < 0x1000 → mmioTarget n off = .reserved) ∧
    (∀ i < 1024, mmioTarget n (0x1000 + 4 * i) = .cmdMem i)) ∧
  (∀ (c : Config) (addr off : Nat), Config.windowOffset c addr = some off ↔ off < 0x2000 ∧ addr = c.dhcBase + off)

/-- What an exact read of each register returns (10_state.md R53), with the fault codes of 60_exceptions.md R401, and of a
CMDMEM word (20_memory.md R105). The invariant bounds LEN and K. What a CMDMEM word nothing has written reads as is a free
value (log 6). -/
def Obligations.RegistersReadAsTheirFields : Prop :=
  ∀ s : State, s.Inv →
    s.mmioWord .id = 0x44480007 ∧
    (∀ n, (s.mmioWord .ctrl).getLsbD n = (decide (n = 1) && s.ie)) ∧
    (∀ n, (s.mmioWord .status).getLsbD n =
      ((decide (n = 0) && s.busy) || (decide (n = 1) && s.done) || (decide (n = 2) && s.fault) ||
        (decide (n = 3) && s.hwerr) || (decide (n = 4) && (s.ie && (s.done || s.fault))))) ∧
    (∀ n, (s.mmioWord .flags).getLsbD n =
      ((decide (n = 0) && s.flags.lt) || (decide (n = 1) && s.flags.eq) || (decide (n = 2) && s.flags.gt) ||
        (decide (n = 3) && s.flags.bit))) ∧
    (s.mmioWord .pc).toNat = s.pc.toNat ∧
    s.mmioWord .faultCode = (match s.faultCode with
      | .none => 0x00 | .ringNotSet => 0x11 | .evenModulus => 0x12 | .byteCount => 0x13 | .bitCount => 0x14
      | .bitIndex => 0x15 | .negativeDifference => 0x31 | .divideByZero => 0x32 | .negativeMultiplier => 0x33
      | .negativeShift => 0x34 | .illegalCommand => 0x81 | .unwrittenRegister => 0x82 | .capacityOverflow => 0x83
      | .commandOverrun => 0x84) ∧
    (s.mmioWord .faultPc).toNat = s.faultPc.toNat ∧ s.mmioWord .faultCmd = s.faultCmd ∧
    (s.mmioWord .ioLen).toNat = s.ioLen.toNat ∧
    (∀ r : RingIdx, (s.mmioWord .ringStat).getLsbD r.val = s.rings[r].valid ∧
      (s.mmioWord .ringStat).getLsbD (4 + r.val) = (s.rings[r].valid && s.rings[r].odd)) ∧
    (∀ n, 8 ≤ n → (s.mmioWord .ringStat).getLsbD n = false) ∧
    (∀ i : RegIdx, (s.mmioWord .regWr).getLsbD i.val = s.regs[i].wr) ∧
    (∀ n, 16 ≤ n → (s.mmioWord .regWr).getLsbD n = false) ∧
    (s.mmioWord .param).toNat = 1024 * 2^16 + s.cfg.maxw ∧
    (∀ r : RingIdx, (s.mmioWord (.ringK r)).toNat = if s.rings[r].valid then s.rings[r].k else 0) ∧
    (∀ i : RegIdx, (s.mmioWord (.regLen i)).toNat = if s.regs[i].wr then s.regs[i].len else 0) ∧
    s.mmioWord .reserved = 0 ∧
    (∀ i, s.mmioWord (.cmdMem i) = s.cmdWord i ∧ ∀ w, s.cmdMem.read? i = some w → s.mmioWord (.cmdMem i) = w)

/-- IOBUF as the host sees it (20_memory.md R103). -/
def Obligations.IobufWordsArePackedBigEndian : Prop :=
  (∀ (s : State) (j : Nat),
    (s.mmioWord (.ioBuf j)).toNat =
      (s.ioByte (4 * j)).toNat * 2^24 + (s.ioByte (4 * j + 1)).toNat * 2^16 + (s.ioByte (4 * j + 2)).toNat * 2^8 +
        (s.ioByte (4 * j + 3)).toNat) ∧
  (∀ (s : State) (rest : List HostEvent) (addr j : Nat) (v : Word),
    s.inputs = .write 4 addr v :: rest → Config.windowOffset s.cfg addr = some (0x800 + 4 * j) → 4 * j < s.ioBytes →
    s.ioBytes ≤ 0x800 → s.busy = false →
    ∃ t, step s = .next t ∧ t.mmioWord (.ioBuf j) = v ∧
      (t.ioByte (4 * j)).toNat = v.toNat / 2^24 ∧ (t.ioByte (4 * j + 1)).toNat = v.toNat / 2^16 % 2^8 ∧
      (t.ioByte (4 * j + 2)).toNat = v.toNat / 2^8 % 2^8 ∧ (t.ioByte (4 * j + 3)).toNat = v.toNat % 2^8 ∧
      (∀ a, a < 4 * j ∨ 4 * j + 4 ≤ a → t.ioByte a = s.ioByte a) ∧
      t = { s with inputs := rest, ioBuf := t.ioBuf })

/-- Trap return and host interface errors (60_exceptions.md R405, R406; 70_reset_and_hazards.md R451, R454). -/
def Obligations.FaultIsHeldUntilClearedOrReset : Prop :=
  ∀ s t : State, step s = .next t →
    (s.fault = true → t.fault = false →
      State.ResetNext s ∨ (s.busy = false ∧ ∃ v : Word, State.CtrlNext s v ∧ v.getLsbD 2 = true)) ∧
    (s.fault = true → s.busy = false → t.busy = true →
      ∃ v : Word, State.CtrlNext s v ∧ v.getLsbD 2 = true ∧ v.getLsbD 0 = true) ∧
    (s.hwerr = false → t.hwerr = true →
      t.busy = s.busy ∧ t.fault = s.fault ∧ t.faultCode = s.faultCode ∧ t.pc = s.pc)

/-- The interrupt output (60_exceptions.md R410). -/
def Obligations.InterruptRisesAndFallsForItsCausesOnly : Prop :=
  (∀ s : State, s.statusWord.getLsbD 4 = s.irq ∧ (s.irq = true ↔ s.ie = true ∧ (s.done = true ∨ s.fault = true))) ∧
  (∀ s t : State, step s = .next t →
    (s.irq = false → t.irq = true →
      ((∃ u, State.CoreTurn s u) ∧ s.busy = true ∧ t.busy = false ∧ s.ie = true) ∨
      (s.ie = false ∧ (s.done = true ∨ s.fault = true) ∧ ∃ v : Word, State.CtrlNext s v ∧ v.getLsbD 1 = true)) ∧
    (s.irq = true → t.irq = false →
      State.ResetNext s ∨
      ∃ v : Word, State.CtrlNext s v ∧ (v.getLsbD 1 = false ∨ v.getLsbD 2 = true ∨ v.getLsbD 0 = true)))

/-- The field positions (30_encoding.md R141), the extension word (R142) and the field of each operand (R143, R150). With the
round trip of decode and encode it fixes which operand the decoder reads from which bits. -/
def Obligations.OperandsStandAtTheirBitPositions : Prop :=
  ∀ (rd re ra rb : RegIdx) (rg : RingIdx) (imm : Word),
    EncodesTo .nop 0x00 0 0 0 0 0 none ∧
    EncodesTo .halt 0x01 0 0 0 0 0 none ∧
    EncodesTo (.mov rd ra) 0x02 rd ra 0 0 0 none ∧
    EncodesTo (.zero rd) 0x03 rd 0 0 0 0 none ∧
    EncodesTo (.ldi rd imm) 0x04 rd 0 0 0 0 (some imm) ∧
    EncodesTo (.ldb rd) 0x05 rd 0 0 0 0 none ∧
    EncodesTo (.stb ra) 0x06 0 ra 0 0 0 none ∧
    EncodesTo (.rand rd imm) 0x07 rd 0 0 0 0 (some imm) ∧
    EncodesTo (.bitset rd imm) 0x08 rd 0 0 0 0 (some imm) ∧
    EncodesTo (.bitclr rd imm) 0x09 rd 0 0 0 0 (some imm) ∧
    EncodesTo (.bittest ra imm) 0x0A 0 ra 0 0 0 (some imm) ∧
    EncodesTo (.bitlen rd ra) 0x0B rd ra 0 0 0 none ∧
    EncodesTo (.inc2 rd) 0x0C rd 0 0 0 0 none ∧
    EncodesTo (.cmp ra rb) 0x10 0 ra rb 0 0 none ∧
    EncodesTo (.add rd ra rb) 0x11 rd ra rb 0 0 none ∧
    EncodesTo (.sub rd ra rb) 0x12 rd ra rb 0 0 none ∧
    EncodesTo (.mul rd ra rb) 0x13 rd ra rb 0 0 none ∧
    EncodesTo (.sqr rd ra) 0x14 rd ra 0 0 0 none ∧
    EncodesTo (.mulw rd ra imm) 0x15 rd ra 0 0 0 (some imm) ∧
    EncodesTo (.shl rd ra imm) 0x16 rd ra 0 0 0 (some imm) ∧
    EncodesTo (.shr rd ra imm) 0x17 rd ra 0 0 0 (some imm) ∧
    EncodesTo (.divrem rd re ra rb) 0x18 rd ra rb 0 re none ∧
    EncodesTo (.rset rg ra) 0x20 0 ra 0 rg 0 none ∧
    EncodesTo (.rclr rg) 0x21 0 0 0 rg 0 none ∧
    EncodesTo (.rred rd ra rg) 0x22 rd ra 0 rg 0 none ∧
    EncodesTo (.rmul rd ra rb rg) 0x23 rd ra rb rg 0 none ∧
    EncodesTo (.rdiff rd ra rb rg) 0x24 rd ra rb rg 0 none ∧
    EncodesTo (.rpow rd ra rb rg) 0x25 rd ra rb rg 0 none ∧
    EncodesTo (.rpowi rd imm rb rg) 0x26 rd 0 rb rg 0 (some imm) ∧
    EncodesTo (.rtom rd ra rg) 0x27 rd ra 0 rg 0 none ∧
    EncodesTo (.rfromm rd ra rg) 0x28 rd ra 0 rg 0 none ∧
    EncodesTo (.rmmul rd ra rb rg) 0x29 rd ra rb rg 0 none
end

