-- ==== Sys2Proof/Laws/Encoding.lean ====
section
/-! SUPPORT. The packing of a command word, field by field, and what the decoder makes of a packed word. -/

namespace Sys2Proof

/-- A packed word's number (R141). -/
theorem packWord_toNat (opc : Nat) (h : opc < 64) (f : Fields) :
    (packWord opc f).toNat =
      2^26 * opc + 2^22 * f.rd.val + 2^18 * f.ra.val + 2^14 * f.rb.val + 2^12 * f.rg.val + 2^8 * f.re.val := by
  have := f.rd.isLt; have := f.ra.isLt; have := f.rb.isLt; have := f.rg.isLt; have := f.re.isLt
  unfold packWord
  rw [BitVec.toNat_ofNat, Nat.mod_eq_of_lt (by omega)]

@[simp] theorem opcOf_packWord {opc : Nat} (h : opc < 64) (f : Fields) : opcOf (packWord opc f) = opc := by
  have := f.rd.isLt; have := f.ra.isLt; have := f.rb.isLt; have := f.rg.isLt; have := f.re.isLt
  unfold opcOf
  rw [packWord_toNat opc h]; omega

@[simp] theorem reservedBitsOf_packWord {opc : Nat} (h : opc < 64) (f : Fields) : reservedBitsOf (packWord opc f) = 0 := by
  unfold reservedBitsOf
  rw [packWord_toNat opc h]; omega

/-- The digits of a packed word's number (R141). -/
theorem packed_fields {n opc rd ra rb rg re : Nat} (hd : rd < 16) (ha : ra < 16) (hb : rb < 16) (hg : rg < 4) (he : re < 16)
    (h : n = 2^26 * opc + 2^22 * rd + 2^18 * ra + 2^14 * rb + 2^12 * rg + 2^8 * re) :
    n / 2^22 % 16 = rd ∧ n / 2^18 % 16 = ra ∧ n / 2^14 % 16 = rb ∧ n / 2^12 % 4 = rg ∧ n / 2^8 % 16 = re := by
  subst h
  refine ⟨?_, ?_, ?_, ?_, ?_⟩ <;> omega

@[simp] theorem fieldsOf_packWord {opc : Nat} (h : opc < 64) (f : Fields) : fieldsOf (packWord opc f) = f := by
  obtain ⟨e1, e2, e3, e4, e5⟩ :=
    packed_fields f.rd.isLt f.ra.isLt f.rb.isLt f.rg.isLt f.re.isLt (packWord_toNat opc h f)
  have e1 : regField (packWord opc f) 22 = f.rd := Fin.ext e1
  have e2 : regField (packWord opc f) 18 = f.ra := Fin.ext e2
  have e3 : regField (packWord opc f) 14 = f.rb := Fin.ext e3
  have e4 : ringField (packWord opc f) = f.rg := Fin.ext e4
  have e5 : regField (packWord opc f) 8 = f.re := Fin.ext e5
  unfold fieldsOf
  rw [e1, e2, e3, e4, e5]

/-- The decoder on a word whose opcode has the given row and whose fields are legal (R147, R148). -/
theorem decodeHead_eq_ok {w : Word} {row : OpcodeRow} (hrow : opcodeMap.find? (fun r => r.opc == opcOf w) = some row)
    (hf : row.format.unusedZero (fieldsOf w) = true) (hr : reservedBitsOf w = 0)
    (hd : ¬ (row.format = .deab ∧ (fieldsOf w).rd = (fieldsOf w).re)) :
    decodeHead w = .ok { format := row.format, instr := row.build (fieldsOf w) } := by
  unfold decodeHead
  rw [hrow]
  dsimp only
  rw [hf, hr, if_neg (by decide), if_neg (by decide), if_neg hd]

/-- What an accepted word must be (R147). -/
theorem decodeHead_ok_inv {w : Word} {h : Head} (hd : decodeHead w = .ok h) :
    ∃ row ∈ opcodeMap, row.opc = opcOf w ∧ row.format.unusedZero (fieldsOf w) = true ∧ reservedBitsOf w = 0 ∧
      ¬ (row.format = .deab ∧ (fieldsOf w).rd = (fieldsOf w).re) ∧
      h = { format := row.format, instr := row.build (fieldsOf w) } := by
  unfold decodeHead at hd
  split at hd
  · cases hd
  · next row hr =>
    dsimp only at hd
    split_ifs at hd with h1 h2 h3
    refine ⟨row, List.mem_of_find?_eq_some hr, by simpa using List.find?_some hr, by simpa using h1, by simpa using h2, h3, ?_⟩
    injection hd with hd
    exact hd.symm

/-- The decoder on a packed word. -/
theorem decodeHead_packWord {opc : Nat} (h : opc < 64) {row : OpcodeRow}
    (hrow : opcodeMap.find? (fun r => r.opc == opc) = some row) {f : Fields} (hf : row.format.unusedZero f = true)
    (hd : ¬ (row.format = .deab ∧ f.rd = f.re)) :
    decodeHead (packWord opc f) = .ok { format := row.format, instr := row.build f } := by
  have ho := opcOf_packWord h f
  have hf' := fieldsOf_packWord h f
  have hr := reservedBitsOf_packWord h f
  generalize packWord opc f = w at ho hf' hr
  subst ho hf'
  exact decodeHead_eq_ok hrow hf hr hd

/-- The five fields of a word and its opcode and reserved bits make up the word (R141). -/
theorem packWord_fieldsOf (w : Word) (h : reservedBitsOf w = 0) : packWord (opcOf w) (fieldsOf w) = w := by
  have ho : opcOf w < 64 := by unfold opcOf; have := w.isLt; omega
  have h0 : w.toNat % 2^8 = 0 := h
  have split : ∀ n, n % 2^8 = 0 → 2^26 * (n / 2^26) + 2^22 * (n / 2^22 % 16) + 2^18 * (n / 2^18 % 16) +
      2^14 * (n / 2^14 % 16) + 2^12 * (n / 2^12 % 4) + 2^8 * (n / 2^8 % 16) = n := by omega
  apply BitVec.eq_of_toNat_eq
  rw [packWord_toNat _ ho]
  exact split w.toNat h0

/-- The row of a legal command, and what it needs of the row (R143, R146). -/
theorem Instr.row_of_wellFormed {i : Instr} (h : i.WellFormed) :
    ∃ row, opcodeMap.find? (fun r => r.opc == i.parts.1) = some row ∧ i.parts.1 < 64 ∧
      row.format.unusedZero i.parts.2.1 = true ∧ ¬ (row.format = .deab ∧ i.parts.2.1.rd = i.parts.2.1.re) ∧
      row.format.words = i.words ∧ ∀ ext, row.build i.parts.2.1 (i.parts.2.2.getD ext) = i := by
  cases i with
  | divrem rd re ra rb =>
    refine ⟨_, rfl, by simp [Instr.parts], rfl, ?_, rfl, fun _ => rfl⟩
    rintro ⟨-, h'⟩
    exact (by simpa [Instr.WellFormed, Instr.wellFormed] using h : rd ≠ re) h'
  | _ =>
    exact ⟨_, rfl, by simp [Instr.parts], rfl, by rintro ⟨h, -⟩; exact absurd h (by decide), rfl, fun _ => rfl⟩

/-- The first word of a legal command, decoded (R146, R147). -/
theorem decodeHead_encodeWord {i : Instr} (h : i.WellFormed) {row : OpcodeRow}
    (hr : opcodeMap.find? (fun r => r.opc == i.parts.1) = some row) :
    decodeHead (encodeWord i) = .ok { format := row.format, instr := row.build i.parts.2.1 } ∧
      row.format.words = i.words ∧ ∀ ext, row.build i.parts.2.1 (i.parts.2.2.getD ext) = i := by
  obtain ⟨row', h1, h2, h3, h4, h5, h6⟩ := Instr.row_of_wellFormed h
  obtain rfl : row' = row := Option.some.inj (h1.symm.trans hr)
  exact ⟨decodeHead_packWord h2 h1 h3 h4, h5, h6⟩

/-- A legal command is encoded with its row's opcode and format. -/
theorem Machine.encodedAs {i : Instr} (h : i.WellFormed) {row : OpcodeRow}
    (hr : opcodeMap.find? (fun r => r.opc == i.parts.1) = some row) : Machine.EncodedAs i i.parts.1 row.format := by
  obtain ⟨h1, -, h3⟩ := decodeHead_encodeWord h hr
  obtain ⟨_, -, h2, -⟩ := Instr.row_of_wellFormed h
  exact ⟨opcOf_packWord h2 _, _, h1, rfl, h3⟩

/-- The number of a slice of bits. -/
theorem toNat_extractLsb (w : Word) (hi lo : Nat) : (w.extractLsb hi lo).toNat = w.toNat / 2^lo % 2^(hi - lo + 1) := by
  rw [BitVec.extractLsb_toNat, Nat.shiftRight_eq_div_pow]

/-- A command's words hold its parts, each in the bits of its field (R141, R142). -/
theorem Machine.encodesTo_parts {i : Instr} (h : i.parts.1 < 64) :
    Machine.EncodesTo i i.parts.1 i.parts.2.1.rd i.parts.2.1.ra i.parts.2.1.rb i.parts.2.1.rg i.parts.2.1.re i.parts.2.2 := by
  have hw : (encodeWord i).toNat = _ := packWord_toNat i.parts.1 h i.parts.2.1
  obtain ⟨e1, e2, e3, e4, e5⟩ := packed_fields i.parts.2.1.rd.isLt i.parts.2.1.ra.isLt i.parts.2.1.rb.isLt
    i.parts.2.1.rg.isLt i.parts.2.1.re.isLt hw
  have ho : opcOf (encodeWord i) = _ := opcOf_packWord h i.parts.2.1
  have hr : reservedBitsOf (encodeWord i) = _ := reservedBitsOf_packWord h i.parts.2.1
  refine ⟨rfl, ?_, ?_, ?_, ?_, ?_, ?_, ?_⟩ <;> rw [toNat_extractLsb]
  · unfold opcOf at ho; omega
  · exact e1
  · exact e2
  · exact e3
  · exact e4
  · exact e5
  · simpa [reservedBitsOf] using hr

/-- What a row builds from fields that are legal for it: a legal command with the row's opcode and those fields (R143, R146). -/
theorem OpcodeRow.build_spec {row : OpcodeRow} (hrow : row ∈ opcodeMap) {f : Fields} (hf : row.format.unusedZero f = true)
    (hd : ¬ (row.format = .deab ∧ f.rd = f.re)) (ext : Word) :
    (row.build f ext).WellFormed ∧ (row.build f ext).parts.1 = row.opc ∧ (row.build f ext).parts.2.1 = f ∧
      (((row.build f ext).parts.2.2 = none ∧ row.format.words = 1) ∨
        ((row.build f ext).parts.2.2 = some ext ∧ row.format.words = 2)) := by
  obtain ⟨rd, ra, rb, rg, re⟩ := f
  simp only [opcodeMap, opcodeRowsControl, opcodeRowsKernel, opcodeRowsRing, List.cons_append, List.nil_append, List.mem_cons,
    List.not_mem_nil, or_false] at hrow
  rcases hrow with rfl | rfl | rfl | rfl | rfl | rfl | rfl | rfl | rfl | rfl | rfl | rfl | rfl | rfl | rfl | rfl | rfl | rfl |
    rfl | rfl | rfl | rfl | rfl | rfl | rfl | rfl | rfl | rfl | rfl | rfl | rfl | rfl <;>
  simp [Format.unusedZero, Format.usesRd, Format.usesRa, Format.usesRb, Format.usesRg, Format.usesRe] at hf <;>
  simp_all [Instr.WellFormed, Instr.wellFormed, Instr.parts, Format.words]

/-- A one-word command's row does not look at the extension word. -/
theorem OpcodeRow.build_ext {row : OpcodeRow} (hrow : row ∈ opcodeMap) (h1 : row.format.words = 1) (f : Fields) (e e' : Word) :
    row.build f e = row.build f e' := by
  simp only [opcodeMap, opcodeRowsControl, opcodeRowsKernel, opcodeRowsRing, List.cons_append, List.nil_append, List.mem_cons,
    List.not_mem_nil, or_false] at hrow
  rcases hrow with rfl | rfl | rfl | rfl | rfl | rfl | rfl | rfl | rfl | rfl | rfl | rfl | rfl | rfl | rfl | rfl | rfl | rfl |
    rfl | rfl | rfl | rfl | rfl | rfl | rfl | rfl | rfl | rfl | rfl | rfl | rfl | rfl <;>
  first | rfl | (exact absurd h1 (by decide))

/-- A decoded command has its head's length, one word or two (R140). -/
theorem decodeHead_ok_words {w : Word} {h : Head} (hd : decodeHead w = .ok h) (ext : Word) :
    (h.instr ext).words = h.words ∧ (h.words = 1 ∨ h.words = 2) := by
  obtain ⟨row, hr, -, h2, -, h4, rfl⟩ := decodeHead_ok_inv hd
  obtain ⟨-, -, -, d⟩ := OpcodeRow.build_spec hr h2 h4 ext
  unfold Instr.words
  obtain ⟨d, hw⟩ | ⟨d, hw⟩ := d <;> rw [d]
  · exact ⟨hw.symm, .inl hw⟩
  · exact ⟨hw.symm, .inr hw⟩

/-- A decoded command and the head of its first word (R140, R147). -/
theorem decode_ok_inv {w ext : Word} {i : Instr} (h : decode w ext = .ok i) :
    ∃ hd, decodeHead w = .ok hd ∧ hd.words = i.words ∧ hd.instr ext = i ∧ (hd.words = 1 → ∀ e, hd.instr e = i) := by
  unfold decode at h
  split at h
  · next hd hh =>
    injection h with h
    subst h
    refine ⟨_, hh, (decodeHead_ok_words hh ext).1.symm, rfl, fun h1 e => ?_⟩
    obtain ⟨row, hr, -, -, -, -, rfl⟩ := decodeHead_ok_inv hh
    exact OpcodeRow.build_ext hr h1 _ _ _
  · cases h

end Sys2Proof
end

