-- ==== Sys2Proof/Laws/Magnitude.lean ====
section
/-! SUPPORT. Bounds on bit length, digit length, digits and byte strings (00_scope.md R10; 41_regfile.md R204). -/

namespace Sys2Proof.Machine

theorem radix_pos : 0 < radix := by decide

theorem radix_pow_pos (n : Nat) : 0 < radix^n := Nat.pow_pos radix_pos

theorem radix_pow_eq (n : Nat) : radix^n = 2^(32 * n) := by rw [radix, ← Nat.pow_mul]

@[simp] theorem bitLen_zero : bitLen 0 = 0 := rfl

/-- `bitlen(v)` is the least width that holds `v`. -/
theorem bitLen_le_iff {v n : Nat} : bitLen v ≤ n ↔ v < 2^n := by
  unfold bitLen
  split
  · next h => subst h; simp
  · next h => rw [← Nat.log2_lt h]; omega

theorem lt_two_pow_bitLen (v : Nat) : v < 2^(bitLen v) := bitLen_le_iff.mp (Nat.le_refl _)

theorem two_pow_le_of_ne_zero {v : Nat} (h : v ≠ 0) : 2^(bitLen v - 1) ≤ v := by
  by_contra hlt
  have h1 := bitLen_le_iff.mpr (Nat.lt_of_not_le hlt)
  have h2 : bitLen v ≠ 0 := by simp [bitLen, h]
  omega

theorem bitLen_pos {v : Nat} (h : v ≠ 0) : 0 < bitLen v := by simp [bitLen, h]

theorem digitLen_pos (v : Nat) : 1 ≤ digitLen v := by unfold digitLen; omega

/-- `len(v)` is the least number of digits, at least one, that holds `v`. -/
theorem digitLen_le_iff {v n : Nat} (hn : 1 ≤ n) : digitLen v ≤ n ↔ v < radix^n := by
  rw [radix_pow_eq, ← bitLen_le_iff]
  unfold digitLen
  omega

theorem lt_radix_pow_digitLen (v : Nat) : v < radix^(digitLen v) :=
  (digitLen_le_iff (digitLen_pos v)).mp (Nat.le_refl _)

theorem radix_pow_le_of_ne_zero {v : Nat} (h : v ≠ 0) : radix^(digitLen v - 1) ≤ v := by
  rcases Nat.lt_or_ge (digitLen v) 2 with h1 | h1
  · have := digitLen_pos v
    have h0 : digitLen v - 1 = 0 := by omega
    rw [h0]
    simpa using Nat.one_le_iff_ne_zero.mpr h
  · by_contra hlt
    have := (digitLen_le_iff (v := v) (n := digitLen v - 1) (by omega)).mpr (Nat.lt_of_not_le hlt)
    omega

@[simp] theorem digitLen_zero : digitLen 0 = 1 := by decide

theorem digitLen_eq_one_of_lt {v : Nat} (h : v < 2^32) : digitLen v = 1 :=
  Nat.le_antisymm ((digitLen_le_iff (Nat.le_refl 1)).mpr (by simpa [radix] using h)) (digitLen_pos v)

theorem digitLen_mono {v w : Nat} (h : v ≤ w) : digitLen v ≤ digitLen w :=
  (digitLen_le_iff (digitLen_pos w)).mpr (Nat.lt_of_le_of_lt h (lt_radix_pow_digitLen w))

theorem digit_eq (v i : Nat) : digit v i = v / radix^i % radix := by
  rw [digit, Nat.shiftRight_eq_div_pow, radix_pow_eq, radix]

theorem digit_lt (v i : Nat) : digit v i < radix := by rw [digit_eq]; exact Nat.mod_lt _ radix_pos

/-- A number below `radix^(i+1)` is its digit `i` over its low `i` digits. -/
theorem mod_radix_pow_succ (v i : Nat) : v % radix^(i + 1) = digit v i * radix^i + v % radix^i := by
  rw [digit_eq, Nat.pow_succ, Nat.mod_mul, Nat.mul_comm, Nat.add_comm]

theorem vmaxOf_lt (n : Nat) : vmaxOf n < radix^n := by
  rw [radix_pow_eq, vmaxOf]
  have := Nat.two_pow_pos (32 * n)
  omega

theorem le_vmaxOf_iff {v n : Nat} : v ≤ vmaxOf n ↔ v < radix^n := by
  rw [radix_pow_eq, vmaxOf]
  have := Nat.two_pow_pos (32 * n)
  omega

theorem minBE_length (v : Nat) : (minBE v).length = minBELen v := by simp [minBE]

theorem minBELen_pos (v : Nat) : 1 ≤ minBELen v := by
  unfold minBELen
  split
  · exact Nat.le_refl 1
  · next h => have := bitLen_pos h; omega

/-- A magnitude of at most `n` digits exports as at most `4n` bytes. -/
theorem minBELen_le {v n : Nat} (hn : 1 ≤ n) (h : v < radix^n) : minBELen v ≤ 4 * n := by
  rw [radix_pow_eq, ← bitLen_le_iff] at h
  unfold minBELen
  split <;> omega

theorem beValue_append (s t : List Byte) : beValue (s ++ t) = beValue s * 256^t.length + beValue t := by
  unfold beValue
  rw [List.foldl_append]
  generalize s.foldl (fun acc x => acc * 256 + x.toNat) 0 = a
  induction t using List.reverseRecOn with
  | nil => simp
  | append_singleton t x ih =>
    simp only [List.foldl_append, List.foldl_cons, List.foldl_nil, ih, List.length_append, List.length_singleton]
    ring

/-- A string of `n` bytes is below `256^n`. -/
theorem beValue_lt (s : List Byte) : beValue s < 256^s.length := by
  induction s using List.reverseRecOn with
  | nil => simp [beValue]
  | append_singleton s x ih =>
    rw [beValue_append]
    have hx : x.toNat < 256 := x.isLt
    simp only [beValue, List.length_append, List.length_singleton, List.foldl_cons, List.foldl_nil] at *
    rw [Nat.pow_succ]
    omega

end Sys2Proof.Machine
end

