-- ==== Sys2Proof/Laws/Memory.lean ====
section
/-! SUPPORT. The laws of the memories: a read after a write, that a write leaves every other cell alone, and that every memory
operation keeps the canonical form. -/

namespace Sys2Proof.Machine

variable {w : Nat}

@[simp] theorem Memory.read?_nil (a : Nat) : Memory.read? ([] : Memory w) a = none := rfl

/-- A cell whose index lies below every listed index is not listed. -/
theorem Memory.read?_eq_none_of_lt {m : Memory w} {a : Nat} (h : ∀ c ∈ m, a < c.1) : m.read? a = none := by
  induction m with
  | nil => rfl
  | cons c rest ih =>
    have hc := h c (by simp)
    simp only [Memory.read?, show c.1 ≠ a by omega, if_false]
    exact ih fun d hd => h d (by simp [hd])

/-- A read of the cell just written gives the value written. -/
@[simp] theorem Memory.read?_write_self (m : Memory w) (a : Nat) (v : BitVec w) : (m.write a v).read? a = some v := by
  induction m with
  | nil => simp [Memory.write, Memory.read?]
  | cons c rest ih =>
    simp only [Memory.write]
    split
    · simp [Memory.read?]
    · split
      · simp [Memory.read?]
      · next h1 h2 => simp only [Memory.read?, show c.1 ≠ a by omega, if_false, ih]

/-- A write leaves every other cell alone. -/
theorem Memory.read?_write_ne (m : Memory w) {a b : Nat} (v : BitVec w) (h : b ≠ a) :
    (m.write a v).read? b = m.read? b := by
  induction m with
  | nil => simp [Memory.write, Memory.read?, Ne.symm h]
  | cons c rest ih =>
    simp only [Memory.write]
    split
    · simp [Memory.read?, Ne.symm h]
    · split
      · next h1 h2 => subst h2; simp [Memory.read?, Ne.symm h]
      · simp only [Memory.read?, ih]

/-- The indexes a write lists: the one written and those listed before. -/
theorem Memory.mem_write {m : Memory w} {a : Nat} {v : BitVec w} {c : Nat × BitVec w} (h : c ∈ m.write a v) :
    c = (a, v) ∨ c ∈ m := by
  induction m with
  | nil => simpa [Memory.write] using h
  | cons d rest ih =>
    simp only [Memory.write] at h
    split at h
    · simpa using h
    · split at h
      · rcases List.mem_cons.mp h with h | h
        · exact .inl h
        · exact .inr (List.mem_cons_of_mem _ h)
      · rcases List.mem_cons.mp h with h | h
        · exact .inr (h ▸ List.mem_cons_self)
        · exact (ih h).imp id (List.mem_cons_of_mem _)

/-- A write keeps the canonical form. -/
theorem Memory.wf_write {m : Memory w} (h : m.wf) (a : Nat) (v : BitVec w) : Memory.wf (m.write a v) := by
  induction m with
  | nil => simp [Memory.write]
  | cons c rest ih =>
    have hc := List.pairwise_cons.mp h
    simp only [Memory.write]
    split
    · next hlt =>
      refine List.pairwise_cons.mpr ⟨fun d hd => ?_, h⟩
      rcases List.mem_cons.mp hd with rfl | hd
      · exact hlt
      · exact Nat.lt_trans hlt (hc.1 d hd)
    · split
      · next h1 h2 => exact List.pairwise_cons.mpr ⟨fun d hd => h2 ▸ hc.1 d hd, hc.2⟩
      · next h1 h2 =>
        refine List.pairwise_cons.mpr ⟨fun d hd => ?_, ih hc.2⟩
        rcases Memory.mem_write hd with rfl | hd
        · simp only; omega
        · exact hc.1 d hd

/-- Every index listed after a write of several cells is one written or was listed before. -/
theorem Memory.mem_writeList {m : Memory w} {a : Nat} {vs : List (BitVec w)} {c : Nat × BitVec w}
    (h : c ∈ m.writeList a vs) : (a ≤ c.1 ∧ c.1 < a + vs.length) ∨ c ∈ m := by
  induction vs generalizing m a with
  | nil => exact .inr h
  | cons v rest ih =>
    rcases ih h with h | h
    · left; simp only [List.length_cons]; omega
    · rcases Memory.mem_write h with rfl | h
      · left; simp
      · exact .inr h

/-- Writing several cells keeps the canonical form. -/
theorem Memory.wf_writeList {m : Memory w} (h : m.wf) (a : Nat) (vs : List (BitVec w)) : Memory.wf (m.writeList a vs) := by
  induction vs generalizing m a with
  | nil => exact h
  | cons v rest ih => exact ih (Memory.wf_write h a v) (a + 1)

/-- Cells outside the ones written read as before. -/
theorem Memory.read?_writeList_outside (m : Memory w) {a b : Nat} (vs : List (BitVec w)) (h : b < a ∨ a + vs.length ≤ b) :
    (m.writeList a vs).read? b = m.read? b := by
  induction vs generalizing m a with
  | nil => rfl
  | cons v rest ih =>
    simp only [List.length_cons] at h
    simp only [Memory.writeList]
    rw [ih _ (by omega), Memory.read?_write_ne _ _ (by omega)]

/-- A cell among those written reads as the value written to it. -/
theorem Memory.read?_writeList_inside (m : Memory w) {a j : Nat} (vs : List (BitVec w)) (h : j < vs.length) :
    (m.writeList a vs).read? (a + j) = some vs[j] := by
  induction vs generalizing m a j with
  | nil => simp at h
  | cons v rest ih =>
    simp only [Memory.writeList]
    cases j with
    | zero =>
      rw [Memory.read?_writeList_outside _ _ (.inl (by omega))]
      simp
    | succ j =>
      have := ih (m.write a v) (a := a + 1) (j := j) (by simpa using h)
      rw [show a + (j + 1) = a + 1 + j by omega, this]
      simp

/-- Equal memories: two canonical memories that read alike are equal lists. -/
theorem Memory.ext_of_wf {m n : Memory w} (hm : m.wf) (hn : n.wf) (h : ∀ a, m.read? a = n.read? a) : m = n := by
  induction m generalizing n with
  | nil =>
    cases n with
    | nil => rfl
    | cons d _ => simpa [Memory.read?] using h d.1
  | cons c rest ih =>
    have hc := List.pairwise_cons.mp hm
    cases n with
    | nil => simpa [Memory.read?] using h c.1
    | cons d rest' =>
      have hd := List.pairwise_cons.mp hn
      have key : c.1 = d.1 := by
        rcases Nat.lt_trichotomy c.1 d.1 with hlt | heq | hgt
        · have := h c.1
          rw [Memory.read?_eq_none_of_lt (m := d :: rest') (a := c.1)] at this
          · simp [Memory.read?] at this
          · intro e he
            rcases List.mem_cons.mp he with rfl | he
            · exact hlt
            · exact Nat.lt_trans hlt (hd.1 e he)
        · exact heq
        · have := h d.1
          rw [Memory.read?_eq_none_of_lt (m := c :: rest) (a := d.1)] at this
          · simp [Memory.read?] at this
          · intro e he
            rcases List.mem_cons.mp he with rfl | he
            · exact hgt
            · exact Nat.lt_trans hgt (hc.1 e he)
      have hval : c = d := by
        have := h c.1
        simp only [Memory.read?, key, if_true, Option.some.injEq] at this
        exact Prod.ext key this
      subst hval
      refine congrArg _ (ih hc.2 hd.2 fun a => ?_)
      by_cases ha : a = c.1
      · subst ha
        rw [Memory.read?_eq_none_of_lt hc.1, Memory.read?_eq_none_of_lt hd.1]
      · simpa [Memory.read?, Ne.symm ha] using h a

end Sys2Proof.Machine
end

