-- ==== Sys2Proof/Laws/State.lean ====
section
/-! SUPPORT. What each named update of State does to each field: one lemma per update and field, each by rfl. -/

namespace Sys2Proof.Machine

variable (s : State)

/-! ### State.writeReg -/

@[simp] theorem State.writeReg_cfg (i : RegIdx) (v : Nat) : (s.writeReg i v).cfg = s.cfg := rfl
@[simp] theorem State.writeReg_regs (i : RegIdx) (v : Nat) : (s.writeReg i v).regs = s.regs.set i (Reg.holding v (s.staleAbove v)) := rfl
@[simp] theorem State.writeReg_rings (i : RegIdx) (v : Nat) : (s.writeReg i v).rings = s.rings := rfl
@[simp] theorem State.writeReg_flags (i : RegIdx) (v : Nat) : (s.writeReg i v).flags = s.flags := rfl
@[simp] theorem State.writeReg_pc (i : RegIdx) (v : Nat) : (s.writeReg i v).pc = s.pc := rfl
@[simp] theorem State.writeReg_ie (i : RegIdx) (v : Nat) : (s.writeReg i v).ie = s.ie := rfl
@[simp] theorem State.writeReg_busy (i : RegIdx) (v : Nat) : (s.writeReg i v).busy = s.busy := rfl
@[simp] theorem State.writeReg_done (i : RegIdx) (v : Nat) : (s.writeReg i v).done = s.done := rfl
@[simp] theorem State.writeReg_fault (i : RegIdx) (v : Nat) : (s.writeReg i v).fault = s.fault := rfl
@[simp] theorem State.writeReg_hwerr (i : RegIdx) (v : Nat) : (s.writeReg i v).hwerr = s.hwerr := rfl
@[simp] theorem State.writeReg_faultCode (i : RegIdx) (v : Nat) : (s.writeReg i v).faultCode = s.faultCode := rfl
@[simp] theorem State.writeReg_faultPc (i : RegIdx) (v : Nat) : (s.writeReg i v).faultPc = s.faultPc := rfl
@[simp] theorem State.writeReg_faultCmd (i : RegIdx) (v : Nat) : (s.writeReg i v).faultCmd = s.faultCmd := rfl
@[simp] theorem State.writeReg_ioLen (i : RegIdx) (v : Nat) : (s.writeReg i v).ioLen = s.ioLen := rfl
@[simp] theorem State.writeReg_ioBuf (i : RegIdx) (v : Nat) : (s.writeReg i v).ioBuf = s.ioBuf := rfl
@[simp] theorem State.writeReg_cmdMem (i : RegIdx) (v : Nat) : (s.writeReg i v).cmdMem = s.cmdMem := rfl
@[simp] theorem State.writeReg_scratch (i : RegIdx) (v : Nat) : (s.writeReg i v).scratch = s.scratch := rfl
@[simp] theorem State.writeReg_inputs (i : RegIdx) (v : Nat) : (s.writeReg i v).inputs = s.inputs := rfl
@[simp] theorem State.writeReg_responses (i : RegIdx) (v : Nat) : (s.writeReg i v).responses = s.responses := rfl
@[simp] theorem State.writeReg_draws (i : RegIdx) (v : Nat) : (s.writeReg i v).draws = s.draws := rfl
@[simp] theorem State.writeReg_frees (i : RegIdx) (v : Nat) : (s.writeReg i v).frees = s.frees + 1 := rfl
@[simp] theorem State.writeReg_epoch (i : RegIdx) (v : Nat) : (s.writeReg i v).epoch = s.epoch := rfl

/-! ### State.scrubReg -/

@[simp] theorem State.scrubReg_cfg (i : RegIdx) : (s.scrubReg i).cfg = s.cfg := rfl
@[simp] theorem State.scrubReg_regs (i : RegIdx) : (s.scrubReg i).regs = s.regs.set i (Reg.holding 0 0) := rfl
@[simp] theorem State.scrubReg_rings (i : RegIdx) : (s.scrubReg i).rings = s.rings := rfl
@[simp] theorem State.scrubReg_flags (i : RegIdx) : (s.scrubReg i).flags = s.flags := rfl
@[simp] theorem State.scrubReg_pc (i : RegIdx) : (s.scrubReg i).pc = s.pc := rfl
@[simp] theorem State.scrubReg_ie (i : RegIdx) : (s.scrubReg i).ie = s.ie := rfl
@[simp] theorem State.scrubReg_busy (i : RegIdx) : (s.scrubReg i).busy = s.busy := rfl
@[simp] theorem State.scrubReg_done (i : RegIdx) : (s.scrubReg i).done = s.done := rfl
@[simp] theorem State.scrubReg_fault (i : RegIdx) : (s.scrubReg i).fault = s.fault := rfl
@[simp] theorem State.scrubReg_hwerr (i : RegIdx) : (s.scrubReg i).hwerr = s.hwerr := rfl
@[simp] theorem State.scrubReg_faultCode (i : RegIdx) : (s.scrubReg i).faultCode = s.faultCode := rfl
@[simp] theorem State.scrubReg_faultPc (i : RegIdx) : (s.scrubReg i).faultPc = s.faultPc := rfl
@[simp] theorem State.scrubReg_faultCmd (i : RegIdx) : (s.scrubReg i).faultCmd = s.faultCmd := rfl
@[simp] theorem State.scrubReg_ioLen (i : RegIdx) : (s.scrubReg i).ioLen = s.ioLen := rfl
@[simp] theorem State.scrubReg_ioBuf (i : RegIdx) : (s.scrubReg i).ioBuf = s.ioBuf := rfl
@[simp] theorem State.scrubReg_cmdMem (i : RegIdx) : (s.scrubReg i).cmdMem = s.cmdMem := rfl
@[simp] theorem State.scrubReg_scratch (i : RegIdx) : (s.scrubReg i).scratch = s.scratch := rfl
@[simp] theorem State.scrubReg_inputs (i : RegIdx) : (s.scrubReg i).inputs = s.inputs := rfl
@[simp] theorem State.scrubReg_responses (i : RegIdx) : (s.scrubReg i).responses = s.responses := rfl
@[simp] theorem State.scrubReg_draws (i : RegIdx) : (s.scrubReg i).draws = s.draws := rfl
@[simp] theorem State.scrubReg_frees (i : RegIdx) : (s.scrubReg i).frees = s.frees := rfl
@[simp] theorem State.scrubReg_epoch (i : RegIdx) : (s.scrubReg i).epoch = s.epoch := rfl

/-! ### State.writeRing -/

@[simp] theorem State.writeRing_cfg (r : RingIdx) (c : Ring) : (s.writeRing r c).cfg = s.cfg := rfl
@[simp] theorem State.writeRing_regs (r : RingIdx) (c : Ring) : (s.writeRing r c).regs = s.regs := rfl
@[simp] theorem State.writeRing_rings (r : RingIdx) (c : Ring) : (s.writeRing r c).rings = s.rings.set r c := rfl
@[simp] theorem State.writeRing_flags (r : RingIdx) (c : Ring) : (s.writeRing r c).flags = s.flags := rfl
@[simp] theorem State.writeRing_pc (r : RingIdx) (c : Ring) : (s.writeRing r c).pc = s.pc := rfl
@[simp] theorem State.writeRing_ie (r : RingIdx) (c : Ring) : (s.writeRing r c).ie = s.ie := rfl
@[simp] theorem State.writeRing_busy (r : RingIdx) (c : Ring) : (s.writeRing r c).busy = s.busy := rfl
@[simp] theorem State.writeRing_done (r : RingIdx) (c : Ring) : (s.writeRing r c).done = s.done := rfl
@[simp] theorem State.writeRing_fault (r : RingIdx) (c : Ring) : (s.writeRing r c).fault = s.fault := rfl
@[simp] theorem State.writeRing_hwerr (r : RingIdx) (c : Ring) : (s.writeRing r c).hwerr = s.hwerr := rfl
@[simp] theorem State.writeRing_faultCode (r : RingIdx) (c : Ring) : (s.writeRing r c).faultCode = s.faultCode := rfl
@[simp] theorem State.writeRing_faultPc (r : RingIdx) (c : Ring) : (s.writeRing r c).faultPc = s.faultPc := rfl
@[simp] theorem State.writeRing_faultCmd (r : RingIdx) (c : Ring) : (s.writeRing r c).faultCmd = s.faultCmd := rfl
@[simp] theorem State.writeRing_ioLen (r : RingIdx) (c : Ring) : (s.writeRing r c).ioLen = s.ioLen := rfl
@[simp] theorem State.writeRing_ioBuf (r : RingIdx) (c : Ring) : (s.writeRing r c).ioBuf = s.ioBuf := rfl
@[simp] theorem State.writeRing_cmdMem (r : RingIdx) (c : Ring) : (s.writeRing r c).cmdMem = s.cmdMem := rfl
@[simp] theorem State.writeRing_scratch (r : RingIdx) (c : Ring) : (s.writeRing r c).scratch = s.scratch := rfl
@[simp] theorem State.writeRing_inputs (r : RingIdx) (c : Ring) : (s.writeRing r c).inputs = s.inputs := rfl
@[simp] theorem State.writeRing_responses (r : RingIdx) (c : Ring) : (s.writeRing r c).responses = s.responses := rfl
@[simp] theorem State.writeRing_draws (r : RingIdx) (c : Ring) : (s.writeRing r c).draws = s.draws := rfl
@[simp] theorem State.writeRing_frees (r : RingIdx) (c : Ring) : (s.writeRing r c).frees = s.frees := rfl
@[simp] theorem State.writeRing_epoch (r : RingIdx) (c : Ring) : (s.writeRing r c).epoch = s.epoch := rfl

/-! ### State.writeFlags -/

@[simp] theorem State.writeFlags_cfg (f : Flags) : (s.writeFlags f).cfg = s.cfg := rfl
@[simp] theorem State.writeFlags_regs (f : Flags) : (s.writeFlags f).regs = s.regs := rfl
@[simp] theorem State.writeFlags_rings (f : Flags) : (s.writeFlags f).rings = s.rings := rfl
@[simp] theorem State.writeFlags_flags (f : Flags) : (s.writeFlags f).flags = f := rfl
@[simp] theorem State.writeFlags_pc (f : Flags) : (s.writeFlags f).pc = s.pc := rfl
@[simp] theorem State.writeFlags_ie (f : Flags) : (s.writeFlags f).ie = s.ie := rfl
@[simp] theorem State.writeFlags_busy (f : Flags) : (s.writeFlags f).busy = s.busy := rfl
@[simp] theorem State.writeFlags_done (f : Flags) : (s.writeFlags f).done = s.done := rfl
@[simp] theorem State.writeFlags_fault (f : Flags) : (s.writeFlags f).fault = s.fault := rfl
@[simp] theorem State.writeFlags_hwerr (f : Flags) : (s.writeFlags f).hwerr = s.hwerr := rfl
@[simp] theorem State.writeFlags_faultCode (f : Flags) : (s.writeFlags f).faultCode = s.faultCode := rfl
@[simp] theorem State.writeFlags_faultPc (f : Flags) : (s.writeFlags f).faultPc = s.faultPc := rfl
@[simp] theorem State.writeFlags_faultCmd (f : Flags) : (s.writeFlags f).faultCmd = s.faultCmd := rfl
@[simp] theorem State.writeFlags_ioLen (f : Flags) : (s.writeFlags f).ioLen = s.ioLen := rfl
@[simp] theorem State.writeFlags_ioBuf (f : Flags) : (s.writeFlags f).ioBuf = s.ioBuf := rfl
@[simp] theorem State.writeFlags_cmdMem (f : Flags) : (s.writeFlags f).cmdMem = s.cmdMem := rfl
@[simp] theorem State.writeFlags_scratch (f : Flags) : (s.writeFlags f).scratch = s.scratch := rfl
@[simp] theorem State.writeFlags_inputs (f : Flags) : (s.writeFlags f).inputs = s.inputs := rfl
@[simp] theorem State.writeFlags_responses (f : Flags) : (s.writeFlags f).responses = s.responses := rfl
@[simp] theorem State.writeFlags_draws (f : Flags) : (s.writeFlags f).draws = s.draws := rfl
@[simp] theorem State.writeFlags_frees (f : Flags) : (s.writeFlags f).frees = s.frees := rfl
@[simp] theorem State.writeFlags_epoch (f : Flags) : (s.writeFlags f).epoch = s.epoch := rfl

/-! ### State.exportBytes -/

@[simp] theorem State.exportBytes_cfg (bytes : List Byte) : (s.exportBytes bytes).cfg = s.cfg := rfl
@[simp] theorem State.exportBytes_regs (bytes : List Byte) : (s.exportBytes bytes).regs = s.regs := rfl
@[simp] theorem State.exportBytes_rings (bytes : List Byte) : (s.exportBytes bytes).rings = s.rings := rfl
@[simp] theorem State.exportBytes_flags (bytes : List Byte) : (s.exportBytes bytes).flags = s.flags := rfl
@[simp] theorem State.exportBytes_pc (bytes : List Byte) : (s.exportBytes bytes).pc = s.pc := rfl
@[simp] theorem State.exportBytes_ie (bytes : List Byte) : (s.exportBytes bytes).ie = s.ie := rfl
@[simp] theorem State.exportBytes_busy (bytes : List Byte) : (s.exportBytes bytes).busy = s.busy := rfl
@[simp] theorem State.exportBytes_done (bytes : List Byte) : (s.exportBytes bytes).done = s.done := rfl
@[simp] theorem State.exportBytes_fault (bytes : List Byte) : (s.exportBytes bytes).fault = s.fault := rfl
@[simp] theorem State.exportBytes_hwerr (bytes : List Byte) : (s.exportBytes bytes).hwerr = s.hwerr := rfl
@[simp] theorem State.exportBytes_faultCode (bytes : List Byte) : (s.exportBytes bytes).faultCode = s.faultCode := rfl
@[simp] theorem State.exportBytes_faultPc (bytes : List Byte) : (s.exportBytes bytes).faultPc = s.faultPc := rfl
@[simp] theorem State.exportBytes_faultCmd (bytes : List Byte) : (s.exportBytes bytes).faultCmd = s.faultCmd := rfl
@[simp] theorem State.exportBytes_ioLen (bytes : List Byte) : (s.exportBytes bytes).ioLen = BitVec.ofNat 16 bytes.length := rfl
@[simp] theorem State.exportBytes_ioBuf (bytes : List Byte) : (s.exportBytes bytes).ioBuf = s.ioBuf.writeList 0 bytes := rfl
@[simp] theorem State.exportBytes_cmdMem (bytes : List Byte) : (s.exportBytes bytes).cmdMem = s.cmdMem := rfl
@[simp] theorem State.exportBytes_scratch (bytes : List Byte) : (s.exportBytes bytes).scratch = s.scratch := rfl
@[simp] theorem State.exportBytes_inputs (bytes : List Byte) : (s.exportBytes bytes).inputs = s.inputs := rfl
@[simp] theorem State.exportBytes_responses (bytes : List Byte) : (s.exportBytes bytes).responses = s.responses := rfl
@[simp] theorem State.exportBytes_draws (bytes : List Byte) : (s.exportBytes bytes).draws = s.draws := rfl
@[simp] theorem State.exportBytes_frees (bytes : List Byte) : (s.exportBytes bytes).frees = s.frees := rfl
@[simp] theorem State.exportBytes_epoch (bytes : List Byte) : (s.exportBytes bytes).epoch = s.epoch := rfl

/-! ### State.drawn -/

@[simp] theorem State.drawn_cfg : (s.drawn).cfg = s.cfg := rfl
@[simp] theorem State.drawn_regs : (s.drawn).regs = s.regs := rfl
@[simp] theorem State.drawn_rings : (s.drawn).rings = s.rings := rfl
@[simp] theorem State.drawn_flags : (s.drawn).flags = s.flags := rfl
@[simp] theorem State.drawn_pc : (s.drawn).pc = s.pc := rfl
@[simp] theorem State.drawn_ie : (s.drawn).ie = s.ie := rfl
@[simp] theorem State.drawn_busy : (s.drawn).busy = s.busy := rfl
@[simp] theorem State.drawn_done : (s.drawn).done = s.done := rfl
@[simp] theorem State.drawn_fault : (s.drawn).fault = s.fault := rfl
@[simp] theorem State.drawn_hwerr : (s.drawn).hwerr = s.hwerr := rfl
@[simp] theorem State.drawn_faultCode : (s.drawn).faultCode = s.faultCode := rfl
@[simp] theorem State.drawn_faultPc : (s.drawn).faultPc = s.faultPc := rfl
@[simp] theorem State.drawn_faultCmd : (s.drawn).faultCmd = s.faultCmd := rfl
@[simp] theorem State.drawn_ioLen : (s.drawn).ioLen = s.ioLen := rfl
@[simp] theorem State.drawn_ioBuf : (s.drawn).ioBuf = s.ioBuf := rfl
@[simp] theorem State.drawn_cmdMem : (s.drawn).cmdMem = s.cmdMem := rfl
@[simp] theorem State.drawn_scratch : (s.drawn).scratch = s.scratch := rfl
@[simp] theorem State.drawn_inputs : (s.drawn).inputs = s.inputs := rfl
@[simp] theorem State.drawn_responses : (s.drawn).responses = s.responses := rfl
@[simp] theorem State.drawn_draws : (s.drawn).draws = s.draws + 1 := rfl
@[simp] theorem State.drawn_frees : (s.drawn).frees = s.frees := rfl
@[simp] theorem State.drawn_epoch : (s.drawn).epoch = s.epoch := rfl

/-! ### State.advance -/

@[simp] theorem State.advance_cfg (n : Nat) : (s.advance n).cfg = s.cfg := rfl
@[simp] theorem State.advance_regs (n : Nat) : (s.advance n).regs = s.regs := rfl
@[simp] theorem State.advance_rings (n : Nat) : (s.advance n).rings = s.rings := rfl
@[simp] theorem State.advance_flags (n : Nat) : (s.advance n).flags = s.flags := rfl
@[simp] theorem State.advance_pc (n : Nat) : (s.advance n).pc = s.pc + BitVec.ofNat 11 n := rfl
@[simp] theorem State.advance_ie (n : Nat) : (s.advance n).ie = s.ie := rfl
@[simp] theorem State.advance_busy (n : Nat) : (s.advance n).busy = s.busy := rfl
@[simp] theorem State.advance_done (n : Nat) : (s.advance n).done = s.done := rfl
@[simp] theorem State.advance_fault (n : Nat) : (s.advance n).fault = s.fault := rfl
@[simp] theorem State.advance_hwerr (n : Nat) : (s.advance n).hwerr = s.hwerr := rfl
@[simp] theorem State.advance_faultCode (n : Nat) : (s.advance n).faultCode = s.faultCode := rfl
@[simp] theorem State.advance_faultPc (n : Nat) : (s.advance n).faultPc = s.faultPc := rfl
@[simp] theorem State.advance_faultCmd (n : Nat) : (s.advance n).faultCmd = s.faultCmd := rfl
@[simp] theorem State.advance_ioLen (n : Nat) : (s.advance n).ioLen = s.ioLen := rfl
@[simp] theorem State.advance_ioBuf (n : Nat) : (s.advance n).ioBuf = s.ioBuf := rfl
@[simp] theorem State.advance_cmdMem (n : Nat) : (s.advance n).cmdMem = s.cmdMem := rfl
@[simp] theorem State.advance_scratch (n : Nat) : (s.advance n).scratch = 0 := rfl
@[simp] theorem State.advance_inputs (n : Nat) : (s.advance n).inputs = s.inputs := rfl
@[simp] theorem State.advance_responses (n : Nat) : (s.advance n).responses = s.responses := rfl
@[simp] theorem State.advance_draws (n : Nat) : (s.advance n).draws = s.draws := rfl
@[simp] theorem State.advance_frees (n : Nat) : (s.advance n).frees = s.frees := rfl
@[simp] theorem State.advance_epoch (n : Nat) : (s.advance n).epoch = s.epoch := rfl

/-! ### State.endRun -/

@[simp] theorem State.endRun_cfg : (s.endRun).cfg = s.cfg := rfl
@[simp] theorem State.endRun_regs : (s.endRun).regs = s.regs := rfl
@[simp] theorem State.endRun_rings : (s.endRun).rings = s.rings := rfl
@[simp] theorem State.endRun_flags : (s.endRun).flags = s.flags := rfl
@[simp] theorem State.endRun_pc : (s.endRun).pc = s.pc := rfl
@[simp] theorem State.endRun_ie : (s.endRun).ie = s.ie := rfl
@[simp] theorem State.endRun_busy : (s.endRun).busy = false := rfl
@[simp] theorem State.endRun_done : (s.endRun).done = true := rfl
@[simp] theorem State.endRun_fault : (s.endRun).fault = s.fault := rfl
@[simp] theorem State.endRun_hwerr : (s.endRun).hwerr = s.hwerr := rfl
@[simp] theorem State.endRun_faultCode : (s.endRun).faultCode = s.faultCode := rfl
@[simp] theorem State.endRun_faultPc : (s.endRun).faultPc = s.faultPc := rfl
@[simp] theorem State.endRun_faultCmd : (s.endRun).faultCmd = s.faultCmd := rfl
@[simp] theorem State.endRun_ioLen : (s.endRun).ioLen = s.ioLen := rfl
@[simp] theorem State.endRun_ioBuf : (s.endRun).ioBuf = s.ioBuf := rfl
@[simp] theorem State.endRun_cmdMem : (s.endRun).cmdMem = s.cmdMem := rfl
@[simp] theorem State.endRun_scratch : (s.endRun).scratch = s.scratch := rfl
@[simp] theorem State.endRun_inputs : (s.endRun).inputs = s.inputs := rfl
@[simp] theorem State.endRun_responses : (s.endRun).responses = s.responses := rfl
@[simp] theorem State.endRun_draws : (s.endRun).draws = s.draws := rfl
@[simp] theorem State.endRun_frees : (s.endRun).frees = s.frees := rfl
@[simp] theorem State.endRun_epoch : (s.endRun).epoch = s.epoch := rfl

/-! ### State.trap -/

@[simp] theorem State.trap_cfg (c : FaultCode) : (s.trap c).cfg = s.cfg := rfl
@[simp] theorem State.trap_regs (c : FaultCode) : (s.trap c).regs = s.regs := rfl
@[simp] theorem State.trap_rings (c : FaultCode) : (s.trap c).rings = s.rings := rfl
@[simp] theorem State.trap_flags (c : FaultCode) : (s.trap c).flags = s.flags := rfl
@[simp] theorem State.trap_pc (c : FaultCode) : (s.trap c).pc = s.pc := rfl
@[simp] theorem State.trap_ie (c : FaultCode) : (s.trap c).ie = s.ie := rfl
@[simp] theorem State.trap_busy (c : FaultCode) : (s.trap c).busy = false := rfl
@[simp] theorem State.trap_done (c : FaultCode) : (s.trap c).done = false := rfl
@[simp] theorem State.trap_fault (c : FaultCode) : (s.trap c).fault = true := rfl
@[simp] theorem State.trap_hwerr (c : FaultCode) : (s.trap c).hwerr = s.hwerr := rfl
@[simp] theorem State.trap_faultCode (c : FaultCode) : (s.trap c).faultCode = c := rfl
@[simp] theorem State.trap_faultPc (c : FaultCode) : (s.trap c).faultPc = s.pc := rfl
@[simp] theorem State.trap_faultCmd (c : FaultCode) : (s.trap c).faultCmd = (if c = .commandOverrun ∧ cmdWords ≤ s.pc.toNat then 0 else s.cmdWord s.pc.toNat) := rfl
@[simp] theorem State.trap_ioLen (c : FaultCode) : (s.trap c).ioLen = s.ioLen := rfl
@[simp] theorem State.trap_ioBuf (c : FaultCode) : (s.trap c).ioBuf = s.ioBuf := rfl
@[simp] theorem State.trap_cmdMem (c : FaultCode) : (s.trap c).cmdMem = s.cmdMem := rfl
@[simp] theorem State.trap_scratch (c : FaultCode) : (s.trap c).scratch = 0 := rfl
@[simp] theorem State.trap_inputs (c : FaultCode) : (s.trap c).inputs = s.inputs := rfl
@[simp] theorem State.trap_responses (c : FaultCode) : (s.trap c).responses = s.responses := rfl
@[simp] theorem State.trap_draws (c : FaultCode) : (s.trap c).draws = s.draws := rfl
@[simp] theorem State.trap_frees (c : FaultCode) : (s.trap c).frees = s.frees := rfl
@[simp] theorem State.trap_epoch (c : FaultCode) : (s.trap c).epoch = s.epoch := rfl

/-! ### State.clearStatus -/

@[simp] theorem State.clearStatus_cfg : (s.clearStatus).cfg = s.cfg := rfl
@[simp] theorem State.clearStatus_regs : (s.clearStatus).regs = s.regs := rfl
@[simp] theorem State.clearStatus_rings : (s.clearStatus).rings = s.rings := rfl
@[simp] theorem State.clearStatus_flags : (s.clearStatus).flags = s.flags := rfl
@[simp] theorem State.clearStatus_pc : (s.clearStatus).pc = s.pc := rfl
@[simp] theorem State.clearStatus_ie : (s.clearStatus).ie = s.ie := rfl
@[simp] theorem State.clearStatus_busy : (s.clearStatus).busy = s.busy := rfl
@[simp] theorem State.clearStatus_done : (s.clearStatus).done = false := rfl
@[simp] theorem State.clearStatus_fault : (s.clearStatus).fault = false := rfl
@[simp] theorem State.clearStatus_hwerr : (s.clearStatus).hwerr = false := rfl
@[simp] theorem State.clearStatus_faultCode : (s.clearStatus).faultCode = .none := rfl
@[simp] theorem State.clearStatus_faultPc : (s.clearStatus).faultPc = 0 := rfl
@[simp] theorem State.clearStatus_faultCmd : (s.clearStatus).faultCmd = 0 := rfl
@[simp] theorem State.clearStatus_ioLen : (s.clearStatus).ioLen = s.ioLen := rfl
@[simp] theorem State.clearStatus_ioBuf : (s.clearStatus).ioBuf = s.ioBuf := rfl
@[simp] theorem State.clearStatus_cmdMem : (s.clearStatus).cmdMem = s.cmdMem := rfl
@[simp] theorem State.clearStatus_scratch : (s.clearStatus).scratch = s.scratch := rfl
@[simp] theorem State.clearStatus_inputs : (s.clearStatus).inputs = s.inputs := rfl
@[simp] theorem State.clearStatus_responses : (s.clearStatus).responses = s.responses := rfl
@[simp] theorem State.clearStatus_draws : (s.clearStatus).draws = s.draws := rfl
@[simp] theorem State.clearStatus_frees : (s.clearStatus).frees = s.frees := rfl
@[simp] theorem State.clearStatus_epoch : (s.clearStatus).epoch = s.epoch := rfl

/-! ### State.start -/

@[simp] theorem State.start_cfg : (s.start).cfg = s.cfg := rfl
@[simp] theorem State.start_regs : (s.start).regs = s.regs := rfl
@[simp] theorem State.start_rings : (s.start).rings = s.rings := rfl
@[simp] theorem State.start_flags : (s.start).flags = s.flags := rfl
@[simp] theorem State.start_pc : (s.start).pc = s.pc := rfl
@[simp] theorem State.start_ie : (s.start).ie = s.ie := rfl
@[simp] theorem State.start_busy : (s.start).busy = true := rfl
@[simp] theorem State.start_done : (s.start).done = false := rfl
@[simp] theorem State.start_fault : (s.start).fault = s.fault := rfl
@[simp] theorem State.start_hwerr : (s.start).hwerr = s.hwerr := rfl
@[simp] theorem State.start_faultCode : (s.start).faultCode = s.faultCode := rfl
@[simp] theorem State.start_faultPc : (s.start).faultPc = s.faultPc := rfl
@[simp] theorem State.start_faultCmd : (s.start).faultCmd = s.faultCmd := rfl
@[simp] theorem State.start_ioLen : (s.start).ioLen = s.ioLen := rfl
@[simp] theorem State.start_ioBuf : (s.start).ioBuf = s.ioBuf := rfl
@[simp] theorem State.start_cmdMem : (s.start).cmdMem = s.cmdMem := rfl
@[simp] theorem State.start_scratch : (s.start).scratch = s.scratch := rfl
@[simp] theorem State.start_inputs : (s.start).inputs = s.inputs := rfl
@[simp] theorem State.start_responses : (s.start).responses = s.responses := rfl
@[simp] theorem State.start_draws : (s.start).draws = s.draws := rfl
@[simp] theorem State.start_frees : (s.start).frees = s.frees := rfl
@[simp] theorem State.start_epoch : (s.start).epoch = s.epoch := rfl

/-! ### State.setHwerr -/

@[simp] theorem State.setHwerr_cfg : (s.setHwerr).cfg = s.cfg := rfl
@[simp] theorem State.setHwerr_regs : (s.setHwerr).regs = s.regs := rfl
@[simp] theorem State.setHwerr_rings : (s.setHwerr).rings = s.rings := rfl
@[simp] theorem State.setHwerr_flags : (s.setHwerr).flags = s.flags := rfl
@[simp] theorem State.setHwerr_pc : (s.setHwerr).pc = s.pc := rfl
@[simp] theorem State.setHwerr_ie : (s.setHwerr).ie = s.ie := rfl
@[simp] theorem State.setHwerr_busy : (s.setHwerr).busy = s.busy := rfl
@[simp] theorem State.setHwerr_done : (s.setHwerr).done = s.done := rfl
@[simp] theorem State.setHwerr_fault : (s.setHwerr).fault = s.fault := rfl
@[simp] theorem State.setHwerr_hwerr : (s.setHwerr).hwerr = true := rfl
@[simp] theorem State.setHwerr_faultCode : (s.setHwerr).faultCode = s.faultCode := rfl
@[simp] theorem State.setHwerr_faultPc : (s.setHwerr).faultPc = s.faultPc := rfl
@[simp] theorem State.setHwerr_faultCmd : (s.setHwerr).faultCmd = s.faultCmd := rfl
@[simp] theorem State.setHwerr_ioLen : (s.setHwerr).ioLen = s.ioLen := rfl
@[simp] theorem State.setHwerr_ioBuf : (s.setHwerr).ioBuf = s.ioBuf := rfl
@[simp] theorem State.setHwerr_cmdMem : (s.setHwerr).cmdMem = s.cmdMem := rfl
@[simp] theorem State.setHwerr_scratch : (s.setHwerr).scratch = s.scratch := rfl
@[simp] theorem State.setHwerr_inputs : (s.setHwerr).inputs = s.inputs := rfl
@[simp] theorem State.setHwerr_responses : (s.setHwerr).responses = s.responses := rfl
@[simp] theorem State.setHwerr_draws : (s.setHwerr).draws = s.draws := rfl
@[simp] theorem State.setHwerr_frees : (s.setHwerr).frees = s.frees := rfl
@[simp] theorem State.setHwerr_epoch : (s.setHwerr).epoch = s.epoch := rfl

/-! ### State.respond -/

@[simp] theorem State.respond_cfg (w : Word) : (s.respond w).cfg = s.cfg := rfl
@[simp] theorem State.respond_regs (w : Word) : (s.respond w).regs = s.regs := rfl
@[simp] theorem State.respond_rings (w : Word) : (s.respond w).rings = s.rings := rfl
@[simp] theorem State.respond_flags (w : Word) : (s.respond w).flags = s.flags := rfl
@[simp] theorem State.respond_pc (w : Word) : (s.respond w).pc = s.pc := rfl
@[simp] theorem State.respond_ie (w : Word) : (s.respond w).ie = s.ie := rfl
@[simp] theorem State.respond_busy (w : Word) : (s.respond w).busy = s.busy := rfl
@[simp] theorem State.respond_done (w : Word) : (s.respond w).done = s.done := rfl
@[simp] theorem State.respond_fault (w : Word) : (s.respond w).fault = s.fault := rfl
@[simp] theorem State.respond_hwerr (w : Word) : (s.respond w).hwerr = s.hwerr := rfl
@[simp] theorem State.respond_faultCode (w : Word) : (s.respond w).faultCode = s.faultCode := rfl
@[simp] theorem State.respond_faultPc (w : Word) : (s.respond w).faultPc = s.faultPc := rfl
@[simp] theorem State.respond_faultCmd (w : Word) : (s.respond w).faultCmd = s.faultCmd := rfl
@[simp] theorem State.respond_ioLen (w : Word) : (s.respond w).ioLen = s.ioLen := rfl
@[simp] theorem State.respond_ioBuf (w : Word) : (s.respond w).ioBuf = s.ioBuf := rfl
@[simp] theorem State.respond_cmdMem (w : Word) : (s.respond w).cmdMem = s.cmdMem := rfl
@[simp] theorem State.respond_scratch (w : Word) : (s.respond w).scratch = s.scratch := rfl
@[simp] theorem State.respond_inputs (w : Word) : (s.respond w).inputs = s.inputs := rfl
@[simp] theorem State.respond_responses (w : Word) : (s.respond w).responses = w :: s.responses := rfl
@[simp] theorem State.respond_draws (w : Word) : (s.respond w).draws = s.draws := rfl
@[simp] theorem State.respond_frees (w : Word) : (s.respond w).frees = s.frees := rfl
@[simp] theorem State.respond_epoch (w : Word) : (s.respond w).epoch = s.epoch := rfl

/-! ### State.respondFree -/

@[simp] theorem State.respondFree_cfg : (s.respondFree).cfg = s.cfg := rfl
@[simp] theorem State.respondFree_regs : (s.respondFree).regs = s.regs := rfl
@[simp] theorem State.respondFree_rings : (s.respondFree).rings = s.rings := rfl
@[simp] theorem State.respondFree_flags : (s.respondFree).flags = s.flags := rfl
@[simp] theorem State.respondFree_pc : (s.respondFree).pc = s.pc := rfl
@[simp] theorem State.respondFree_ie : (s.respondFree).ie = s.ie := rfl
@[simp] theorem State.respondFree_busy : (s.respondFree).busy = s.busy := rfl
@[simp] theorem State.respondFree_done : (s.respondFree).done = s.done := rfl
@[simp] theorem State.respondFree_fault : (s.respondFree).fault = s.fault := rfl
@[simp] theorem State.respondFree_hwerr : (s.respondFree).hwerr = s.hwerr := rfl
@[simp] theorem State.respondFree_faultCode : (s.respondFree).faultCode = s.faultCode := rfl
@[simp] theorem State.respondFree_faultPc : (s.respondFree).faultPc = s.faultPc := rfl
@[simp] theorem State.respondFree_faultCmd : (s.respondFree).faultCmd = s.faultCmd := rfl
@[simp] theorem State.respondFree_ioLen : (s.respondFree).ioLen = s.ioLen := rfl
@[simp] theorem State.respondFree_ioBuf : (s.respondFree).ioBuf = s.ioBuf := rfl
@[simp] theorem State.respondFree_cmdMem : (s.respondFree).cmdMem = s.cmdMem := rfl
@[simp] theorem State.respondFree_scratch : (s.respondFree).scratch = s.scratch := rfl
@[simp] theorem State.respondFree_inputs : (s.respondFree).inputs = s.inputs := rfl
@[simp] theorem State.respondFree_responses : (s.respondFree).responses = Config.busRead s.frees :: s.responses := rfl
@[simp] theorem State.respondFree_draws : (s.respondFree).draws = s.draws := rfl
@[simp] theorem State.respondFree_frees : (s.respondFree).frees = s.frees + 1 := rfl
@[simp] theorem State.respondFree_epoch : (s.respondFree).epoch = s.epoch := rfl

end Sys2Proof.Machine
end

