-- ==== Sys2Proof/Laws/Ops.lean ====
section
/-! SUPPORT. One lemma per shared operation: what a source, a ring operand, a check, a register write and the end of a command
can do. -/

namespace Sys2Proof.Machine

variable {s t : State}

/-! ### Registers and rings after a write -/

@[simp] theorem State.writeReg_get_self (s : State) (i : RegIdx) (v : Nat) :
    (s.writeReg i v).regs[i] = Reg.holding v (s.staleAbove v) := by simp

theorem State.writeReg_get_ne (s : State) {i j : RegIdx} (v : Nat) (h : j ≠ i) : (s.writeReg i v).regs[j] = s.regs[j] := by
  simp only [State.writeReg_regs, Fin.getElem_fin]
  exact Vector.getElem_set_ne _ _ fun h' => h (Fin.ext h'.symm)

@[simp] theorem State.scrubReg_get_self (s : State) (i : RegIdx) : (s.scrubReg i).regs[i] = Reg.holding 0 0 := by simp

theorem State.scrubReg_get_ne (s : State) {i j : RegIdx} (h : j ≠ i) : (s.scrubReg i).regs[j] = s.regs[j] := by
  simp only [State.scrubReg_regs, Fin.getElem_fin]
  exact Vector.getElem_set_ne _ _ fun h' => h (Fin.ext h'.symm)

@[simp] theorem State.writeRing_get_self (s : State) (r : RingIdx) (c : Ring) : (s.writeRing r c).rings[r] = c := by simp

theorem State.writeRing_get_ne (s : State) {r q : RingIdx} (c : Ring) (h : q ≠ r) : (s.writeRing r c).rings[q] = s.rings[q] := by
  simp only [State.writeRing_rings, Fin.getElem_fin]
  exact Vector.getElem_set_ne _ _ fun h' => h (Fin.ext h'.symm)

@[simp] theorem Reg.holding_wr (v x : Nat) : (Reg.holding v x).wr = true := rfl
@[simp] theorem Reg.holding_len (v x : Nat) : (Reg.holding v x).len = digitLen v := rfl
@[simp] theorem Reg.holding_val (v x : Nat) : (Reg.holding v x).val = v := rfl
@[simp] theorem Reg.holding_stale (v x : Nat) : (Reg.holding v x).stale = x := rfl

/-- The stale digits fill no more than the capacity above the length. -/
theorem State.staleAbove_lt (s : State) (v : Nat) : s.staleAbove v < 2^(32 * (s.cfg.maxw - digitLen v)) :=
  Nat.mod_lt _ (Nat.two_pow_pos _)

/-! ### Memory views -/

/-- Byte `j` of an exported string reads back. -/
theorem State.ioByte_exportBytes_inside (s : State) (bytes : List Byte) {j : Nat} (h : j < bytes.length) :
    (s.exportBytes bytes).ioByte j = bytes[j] := by
  have := Memory.read?_writeList_inside s.ioBuf (a := 0) bytes h
  simp only [Nat.zero_add] at this
  simp [State.ioByte, this]

/-- Bytes above an exported string keep their contents (R206). -/
theorem State.ioByte_exportBytes_outside (s : State) (bytes : List Byte) {j : Nat} (h : bytes.length ≤ j) :
    (s.exportBytes bytes).ioByte j = s.ioByte j := by
  have := Memory.read?_writeList_outside s.ioBuf (a := 0) (b := j) bytes (.inr (by omega))
  simp [State.ioByte, this]

/-- IOBUF's bytes depend on IOBUF and the power-on count alone. -/
theorem State.ioByte_congr (h1 : t.ioBuf = s.ioBuf) (h2 : t.epoch = s.epoch) (j : Nat) : t.ioByte j = s.ioByte j := by
  simp [State.ioByte, h1, h2]

/-- CMDMEM's words depend on CMDMEM and the power-on count alone. -/
theorem State.cmdWord_congr (h1 : t.cmdMem = s.cmdMem) (h2 : t.epoch = s.epoch) (i : Nat) : t.cmdWord i = s.cmdWord i := by
  simp [State.cmdWord, h1, h2]

@[simp] theorem State.ioString_length (s : State) (n : Nat) : (s.ioString n).length = n := by simp [State.ioString]

theorem State.entropy_lt (s : State) (n : Nat) : s.entropy n < 2^n := Nat.mod_lt _ (Nat.two_pow_pos n)

/-! ### Sources and checks -/

theorem State.source_ok {i : RegIdx} (h : s.regs[i].wr = true) : s.source i = .ok s.regs[i].val := by
  unfold State.source; exact if_pos h

theorem State.source_unwritten {i : RegIdx} (h : s.regs[i].wr = false) : s.source i = .error .unwrittenRegister := by
  unfold State.source; rw [h]; rfl

/-- A source answers its register's value, or UnwrittenRegister. -/
theorem State.source_cases (s : State) (i : RegIdx) :
    (s.regs[i].wr = true ∧ s.source i = .ok s.regs[i].val) ∨
    (s.regs[i].wr = false ∧ s.source i = .error .unwrittenRegister) := by
  cases h : s.regs[i].wr with
  | true => exact .inl ⟨rfl, State.source_ok h⟩
  | false => exact .inr ⟨rfl, State.source_unwritten h⟩

theorem State.context_ok {r : RingIdx} (h : s.rings[r].valid = true) : s.context r = .ok s.rings[r] := by
  unfold State.context; exact if_pos h

theorem State.context_invalid {r : RingIdx} (h : s.rings[r].valid = false) : s.context r = .error .ringNotSet := by
  unfold State.context; rw [h]; rfl

/-- A ring operand answers its context, or RingNotSet. -/
theorem State.context_cases (s : State) (r : RingIdx) :
    (s.rings[r].valid = true ∧ s.context r = .ok s.rings[r]) ∨
    (s.rings[r].valid = false ∧ s.context r = .error .ringNotSet) := by
  cases h : s.rings[r].valid with
  | true => exact .inl ⟨rfl, State.context_ok h⟩
  | false => exact .inr ⟨rfl, State.context_invalid h⟩

theorem State.oddContext_ok {r : RingIdx} (h : s.rings[r].valid = true) (ho : s.rings[r].odd = true) :
    s.oddContext r = .ok s.rings[r] := by
  simp only [State.oddContext, State.context_ok h]; exact if_pos ho

theorem State.oddContext_even {r : RingIdx} (h : s.rings[r].valid = true) (ho : s.rings[r].odd = false) :
    s.oddContext r = .error .evenModulus := by
  simp only [State.oddContext, State.context_ok h]; rw [ho]; rfl

theorem State.oddContext_invalid {r : RingIdx} (h : s.rings[r].valid = false) : s.oddContext r = .error .ringNotSet := by
  simp only [State.oddContext, State.context_invalid h]

/-- A Montgomery ring operand answers its odd context, RingNotSet or EvenModulus. -/
theorem State.oddContext_cases (s : State) (r : RingIdx) :
    (s.rings[r].valid = true ∧ s.rings[r].odd = true ∧ s.oddContext r = .ok s.rings[r]) ∨
    (s.rings[r].valid = true ∧ s.rings[r].odd = false ∧ s.oddContext r = .error .evenModulus) ∨
    (s.rings[r].valid = false ∧ s.oddContext r = .error .ringNotSet) := by
  cases h : s.rings[r].valid with
  | false => exact .inr (.inr ⟨rfl, State.oddContext_invalid h⟩)
  | true =>
    cases ho : s.rings[r].odd with
    | true => exact .inl ⟨rfl, rfl, State.oddContext_ok h ho⟩
    | false => exact .inr (.inl ⟨rfl, rfl, State.oddContext_even h ho⟩)

theorem State.fitted_ok {v : Nat} (h : v ≤ s.vmax) : s.fitted v = .ok v := by
  unfold State.fitted; exact if_neg (Nat.not_lt.mpr h)

theorem State.fitted_overflow {v : Nat} (h : s.vmax < v) : s.fitted v = .error .capacityOverflow := by
  unfold State.fitted; exact if_pos h

theorem immNonNegative_ok {imm : Word} (c : FaultCode) (h : imm.toNat < 2^31) : immNonNegative imm c = .ok imm.toNat := by
  have : immSigned imm = imm.toNat := by
    unfold immSigned; rw [BitVec.toInt_eq_toNat_cond]; exact if_pos (by omega)
  simp [immNonNegative, this]

theorem immNonNegative_negative {imm : Word} (c : FaultCode) (h : 2^31 ≤ imm.toNat) : immNonNegative imm c = .error c := by
  have : immSigned imm < 0 := by
    unfold immSigned
    have := imm.isLt
    rw [BitVec.toInt_eq_toNat_cond, if_neg (by omega)]
    omega
  simp [immNonNegative, this]

/-! ### The end of a command -/

@[simp] theorem except_bind_ok {ε α β : Type} (a : α) (f : α → Except ε β) : (Except.ok a >>= f) = f a := rfl

@[simp] theorem except_bind_error {ε α β : Type} (e : ε) (f : α → Except ε β) :
    ((Except.error e : Except ε α) >>= f) = .error e := rfl

@[simp] theorem except_pure {ε α : Type} (a : α) : (pure a : Except ε α) = .ok a := rfl

@[simp] theorem State.command_ok (s : State) (n : Nat) (u : State) : s.command n (.ok u) = .next (u.advance n) := rfl

@[simp] theorem State.command_error (s : State) (n : Nat) (c : FaultCode) : s.command n (.error c) = .next (s.trap c) := rfl

/-- Every command ends in a next state: its staged writes committed, or the trap from the state before it. -/
theorem State.command_cases (s : State) (n : Nat) (body : Except FaultCode State) :
    (∃ u, body = .ok u ∧ s.command n body = .next (u.advance n)) ∨
    (∃ c, body = .error c ∧ s.command n body = .next (s.trap c)) := by
  cases body with
  | ok u => exact .inl ⟨u, rfl, rfl⟩
  | error c => exact .inr ⟨c, rfl, rfl⟩

end Sys2Proof.Machine
end

