-- ==== Sys2Proof/Laws/Frames.lean ====
section
/-! SUPPORT. What the shared ends of the commands do, once, in the vocabulary of Safety: trap entry, a register write, a command
without a register destination. -/

namespace Sys2Proof.Machine

variable {s t : State}

/-- Trap entry is what R404 says, and nothing else changes. -/
theorem State.trap_trapped (s : State) (c : FaultCode) : State.Trapped s (s.trap c) c :=
  { fault := rfl, faultCode := rfl, faultPc := rfl, faultCmd := rfl, pc := rfl, busy := rfl, done := rfl,
    irq := by simp [State.irq], regs := rfl, rings := rfl, flags := rfl, ie := rfl, hwerr := rfl,
    io := { ioByte := fun _ => rfl, ioLen := rfl },
    outside := { cfg := rfl, cmdMem := rfl, cmdWord := fun _ => rfl, inputs := rfl, responses := rfl, epoch := rfl },
    scratch := rfl, draws := rfl }

/-- A command whose body raises `c` takes that trap. -/
theorem State.command_traps {i : Instr} {n : Nat} {body : Except FaultCode State} {c : FaultCode}
    (he : exec i s = s.command n body) (hb : body = .error c) : Traps i s c :=
  ⟨s.trap c, by rw [he, hb]; rfl, State.trap_trapped s c⟩

/-- A command whose body stages `u` completes with it. -/
theorem State.command_completes {i : Instr} {n : Nat} {body : Except FaultCode State} {u : State} {P : State → Prop}
    (he : exec i s = s.command n body) (hb : body = .ok u) (hP : P (u.advance n)) : Completes i s P :=
  ⟨u.advance n, by rw [he, hb]; rfl, hP⟩

/-- Writing one register changes that register alone. -/
theorem State.writeReg_wrote (s : State) (n : Nat) (rd : RegIdx) (v : Nat) :
    State.Wrote s ((s.writeReg rd v).advance n) n rd v where
  holds := by
    have h : ((s.writeReg rd v).advance n).regs[rd] = Reg.holding v (s.staleAbove v) := by simp
    exact ⟨by rw [h]; rfl, by rw [h]; rfl, by rw [h]; rfl⟩
  frame :=
    { completed :=
        { pc := rfl, scratch := rfl,
          regs := fun j hj => State.writeReg_get_ne s v (by simpa using hj),
          status := ⟨rfl, rfl, rfl, rfl, rfl, rfl, rfl, rfl⟩,
          outside := ⟨rfl, rfl, fun _ => rfl, rfl, rfl, rfl⟩ },
      rings := rfl, flags := rfl, io := ⟨fun _ => rfl, rfl⟩ }

/-- Scrubbing a register changes that register alone. -/
theorem State.scrubReg_wrote (s : State) (n : Nat) (rd : RegIdx) : State.Wrote s ((s.scrubReg rd).advance n) n rd 0 where
  holds := by
    have h : ((s.scrubReg rd).advance n).regs[rd] = Reg.holding 0 0 := by simp
    exact ⟨by rw [h]; rfl, by rw [h]; rfl, by rw [h]; rfl⟩
  frame :=
    { completed :=
        { pc := rfl, scratch := rfl,
          regs := fun j hj => State.scrubReg_get_ne s (by simpa using hj),
          status := ⟨rfl, rfl, rfl, rfl, rfl, rfl, rfl, rfl⟩,
          outside := ⟨rfl, rfl, fun _ => rfl, rfl, rfl, rfl⟩ },
      rings := rfl, flags := rfl, io := ⟨fun _ => rfl, rfl⟩ }

/-- Ending a command without a register destination moves PC and clears scratch. -/
theorem State.advance_completed (s : State) (n : Nat) : State.Completed s (s.advance n) n [] :=
  { pc := rfl, scratch := rfl, regs := fun _ _ => rfl, status := ⟨rfl, rfl, rfl, rfl, rfl, rfl, rfl, rfl⟩,
    outside := ⟨rfl, rfl, fun _ => rfl, rfl, rfl, rfl⟩ }

end Sys2Proof.Machine
end

