-- ==== Sys2Proof/Laws/Ring.lean ====
section
/-! SUPPORT. The Barrett pipeline computes the residue (43_ring.md R283 to R287), for the contexts that RSET stores. -/

namespace Sys2Proof.Machine

/-- The Barrett estimate is at most the true quotient and at most two below it (R283), in abstract form: `B = b^(k-1)`,
`C = b^(k+1)`, `mu` the reciprocal constant. -/
theorem barrett_estimate {x m B C : Nat} (hB : 0 < B) (hBm : B ≤ m) (hC : 0 < C) (hx : x < B * C) :
    x / B * (B * C / m) / C * m ≤ x ∧ x < (x / B * (B * C / m) / C + 3) * m := by
  have hm : 0 < m := Nat.lt_of_lt_of_le hB hBm
  generalize hmu : B * C / m = mu
  generalize ha : x / B = a
  generalize hq : a * mu / C = q
  have h1 : mu * m ≤ B * C := hmu ▸ Nat.div_mul_le_self _ _
  have h2 : B * C < mu * m + m := by
    have := Nat.lt_div_mul_add hm (a := B * C); rwa [hmu] at this
  have h3 : a * B ≤ x := ha ▸ Nat.div_mul_le_self _ _
  have h4 : x < a * B + B := by have := Nat.lt_div_mul_add hB (a := x); rwa [ha] at this
  have h5 : q * C ≤ a * mu := hq ▸ Nat.div_mul_le_self _ _
  have h6 : a * mu < q * C + C := by have := Nat.lt_div_mul_add hC (a := a * mu); rwa [hq] at this
  have haC : a < C := ha ▸ Nat.div_lt_of_lt_mul hx
  constructor
  · have e1 : q * m * C ≤ x * C :=
      calc q * m * C = q * C * m := by ring
        _ ≤ a * mu * m := Nat.mul_le_mul_right _ h5
        _ = a * (mu * m) := by ring
        _ ≤ a * (B * C) := Nat.mul_le_mul_left _ h1
        _ = a * B * C := by ring
        _ ≤ x * C := Nat.mul_le_mul_right _ h3
    exact Nat.le_of_mul_le_mul_right e1 hC
  · have e1 : x * C < (a * B + B) * C := Nat.mul_lt_mul_of_pos_right h4 hC
    have e2 : a * (B * C) ≤ a * (mu * m + m) := Nat.mul_le_mul_left _ (Nat.le_of_lt h2)
    have e3 : a * mu * m ≤ (q * C + C) * m := Nat.mul_le_mul_right _ (Nat.le_of_lt h6)
    have e4 : B * C ≤ m * C := Nat.mul_le_mul_right _ hBm
    have e5 : a * m ≤ C * m := Nat.mul_le_mul_right _ (Nat.le_of_lt haC)
    have e6 : x * C < (q + 3) * m * C := by nlinarith
    exact Nat.lt_of_mul_lt_mul_right e6

/-- Two conditional subtractions bring a value below `3m` to its residue. -/
theorem subtractOnce_twice {m r : Nat} (h : r < 3 * m) : subtractOnce m (subtractOnce m r) = r % m := by
  rcases Nat.lt_or_ge r m with h1 | h1
  · rw [Nat.mod_eq_of_lt h1]
    simp [subtractOnce, Nat.not_le.mpr h1]
  · rcases Nat.lt_or_ge r (2 * m) with h2 | h2
    · rw [Nat.mod_eq_sub_mod h1, Nat.mod_eq_of_lt (by omega)]
      simp [subtractOnce, h1, show ¬ m ≤ r - m by omega]
    · rw [Nat.mod_eq_sub_mod h1, Nat.mod_eq_sub_mod (by omega), Nat.mod_eq_of_lt (by omega)]
      simp [subtractOnce, h1, show m ≤ r - m by omega]

theorem subtractOnce_eq_mod {m r : Nat} (h : r < 2 * m) : subtractOnce m r = r % m := by
  unfold subtractOnce
  split
  · next h1 => rw [Nat.mod_eq_sub_mod h1, Nat.mod_eq_of_lt (by omega)]
  · next h1 => rw [Nat.mod_eq_of_lt (by omega)]

/-- A difference that fits below `C` is found from the operands' residues modulo `C`, adding `C` when it is negative (R283). -/
theorem residue_of_difference {x y C : Nat} (hC : 0 < C) (hle : y ≤ x) (hd : x - y < C) :
    (if x % C < y % C then x % C + C - y % C else x % C - y % C) = x - y := by
  have hx := Nat.div_add_mod x C
  have hy := Nat.div_add_mod y C
  have h1 := Nat.mod_lt x hC
  have h2 := Nat.mod_lt y hC
  have hq : x / C = y / C ∨ x / C = y / C + 1 := by
    have hge : y / C ≤ x / C := Nat.div_le_div_right hle
    have hlt : x / C < y / C + 2 := by
      rw [Nat.div_lt_iff_lt_mul hC, show (y / C + 2) * C = C * (y / C) + 2 * C by ring]
      omega
    omega
  rcases hq with hq | hq
  · rw [hq] at hx
    split <;> omega
  · rw [hq, Nat.mul_add] at hx
    split <;> omega

/-! ### The contexts RSET stores -/

@[simp] theorem Ring.ofModulus_valid (m : Nat) : (Ring.ofModulus m).valid = true := rfl
@[simp] theorem Ring.ofModulus_m (m : Nat) : (Ring.ofModulus m).m = m := rfl
@[simp] theorem Ring.ofModulus_k (m : Nat) : (Ring.ofModulus m).k = digitLen m := rfl
@[simp] theorem Ring.ofModulus_mu (m : Nat) : (Ring.ofModulus m).mu = radix^(2 * digitLen m) / m := rfl
@[simp] theorem Ring.ofModulus_odd (m : Nat) : (Ring.ofModulus m).odd = decide (m % 2 = 1) := rfl

theorem radix_pow_two_mul {k : Nat} (h : 1 ≤ k) : radix^(2 * k) = radix^(k - 1) * radix^(k + 1) := by
  rw [← Nat.pow_add]; congr 1; omega

/-- `BarrettReduce(x) = x mod m` on its domain (R283). -/
theorem Ring.barrettReduce_eq_mod {m x : Nat} (hm : m ≠ 0) (hx : digitLen x ≤ 2 * digitLen m) :
    (Ring.ofModulus m).barrettReduce x = x % m := by
  have hk := digitLen_pos m
  have hx' : x < radix^(2 * digitLen m) := (digitLen_le_iff (by omega)).mp hx
  have hP := radix_pow_two_mul hk
  have est := barrett_estimate (radix_pow_pos (digitLen m - 1)) (radix_pow_le_of_ne_zero hm)
    (radix_pow_pos (digitLen m + 1)) (hP ▸ hx')
  rw [← hP] at est
  have hq : (Ring.ofModulus m).barrettQuotient x =
      x / radix^(digitLen m - 1) * (radix^(2 * digitLen m) / m) / radix^(digitLen m + 1) := rfl
  rw [← hq] at est
  generalize hg : (Ring.ofModulus m).barrettQuotient x = q at est hq
  have hsmall : x - q * m < 3 * m := by
    have := est.2
    rw [Nat.add_mul] at this
    omega
  have hbig : 3 * m < radix^(digitLen m + 1) := by
    have h1 := lt_radix_pow_digitLen m
    rw [Nat.pow_succ]
    have h2 : 3 * radix^(digitLen m) ≤ radix^(digitLen m) * radix := by
      rw [Nat.mul_comm]; exact Nat.mul_le_mul_left _ (by decide)
    omega
  have hres : (Ring.ofModulus m).barrettResidue x = x - q * m := by
    unfold Ring.barrettResidue
    simp only [hg, Ring.ofModulus_k, Ring.ofModulus_m]
    exact residue_of_difference (radix_pow_pos _) est.1 (by omega)
  unfold Ring.barrettReduce
  rw [hres, Ring.ofModulus_m, subtractOnce_twice hsmall]
  have := Nat.sub_mul_mod (x := x) (k := q) (n := m) (by rw [Nat.mul_comm]; exact est.1)
  rwa [Nat.mul_comm] at this

/-- `BarrettMod(p) = p mod m` on the Barrett domain (R286, R353). -/
theorem Ring.barrettMod_eq_mod {m p : Nat} (hm : m ≠ 0) (hp : digitLen p ≤ 2 * digitLen m) :
    (Ring.ofModulus m).barrettMod p = p % m := by
  unfold Ring.barrettMod
  split
  · exact Ring.barrettReduce_eq_mod hm hp
  · next h => exact (Nat.mod_eq_of_lt (Nat.lt_of_not_le h)).symm

/-- `Reduce(x) = x mod m` for every `x` (R284). -/
theorem Ring.reduce_eq_mod {m : Nat} (hm : m ≠ 0) (x : Nat) : (Ring.ofModulus m).reduce x = x % m := by
  unfold Ring.reduce
  split
  · rfl
  · next h => exact Ring.barrettMod_eq_mod hm (by simpa using h)

/-- `PreReduce(x) ≡ x (mod m)` with at most `k` digits (R284). -/
theorem Ring.preReduce_spec {m : Nat} (hm : m ≠ 0) (x : Nat) :
    (Ring.ofModulus m).preReduce x % m = x % m ∧ digitLen ((Ring.ofModulus m).preReduce x) ≤ digitLen m := by
  have hlt : x % m < m := Nat.mod_lt _ (Nat.pos_of_ne_zero hm)
  unfold Ring.preReduce
  split
  · exact ⟨Nat.mod_mod _ _, digitLen_mono (Nat.le_of_lt hlt)⟩
  · next h =>
    split
    · rw [Ring.barrettReduce_eq_mod hm (by simpa using h)]
      exact ⟨Nat.mod_mod _ _, digitLen_mono (Nat.le_of_lt hlt)⟩
    · next h' => exact ⟨rfl, by simpa using h'⟩

/-- A product of two operands of at most `k` digits each has at most `2k` digits. -/
theorem digitLen_mul_le {a b k : Nat} (ha : digitLen a ≤ k) (hb : digitLen b ≤ k) : digitLen (a * b) ≤ 2 * k := by
  have hk : 1 ≤ k := Nat.le_trans (digitLen_pos a) ha
  rw [digitLen_le_iff (by omega), Nat.two_mul, Nat.pow_add]
  exact Nat.mul_lt_mul'' ((digitLen_le_iff hk).mp ha) ((digitLen_le_iff hk).mp hb)

/-- RMUL's result is `(a * b) mod m` (R286). -/
theorem Ring.multiply_eq_mod {m : Nat} (hm : m ≠ 0) (a b : Nat) : (Ring.ofModulus m).multiply a b = a * b % m := by
  have ha := Ring.preReduce_spec hm a
  have hb := Ring.preReduce_spec hm b
  unfold Ring.multiply
  rw [Ring.barrettMod_eq_mod hm (digitLen_mul_le ha.2 hb.2), Nat.mul_mod, ha.1, hb.1, ← Nat.mul_mod]

/-- RDIFF's result, with the modulus itself where `a < b` and `m` divides `b - a` (R287). -/
theorem Ring.difference_eq {m : Nat} (hm : m ≠ 0) (a b : Nat) :
    (Ring.ofModulus m).difference a b = if a < b then m - (b - a) % m else (a - b) % m := by
  unfold Ring.difference
  rcases Nat.lt_trichotomy a b with h | h | h
  · simp [h, Nat.ne_of_lt h, Ring.reduce_eq_mod hm]
  · simp [h]
  · simp [Nat.ne_of_gt h, Nat.lt_asymm h, Ring.reduce_eq_mod hm]

end Sys2Proof.Machine
end

