-- ==== Sys2Proof/Laws/Montgomery.lean ====
section
/-! SUPPORT. The Newton iteration gives `-m^(-1) mod 2^32`, and REDC divides by the Montgomery radix modulo `m`
(44_montgomery.md R320 to R322), for the contexts that RSET stores for odd moduli. -/

namespace Sys2Proof.Machine

/-! ### The Montgomery constant -/

/-- One Newton step squares the error `1 - m0 * x`. -/
theorem newtonStep_error (m0 x : Word) : 1 - m0 * newtonStep m0 x = (1 - m0 * x)^2 := by unfold newtonStep; ring

/-- The square of an odd number is 1 modulo 8. -/
theorem odd_square_error {m : Nat} (h : m % 2 = 1) : ∃ y : Word, 1 - BitVec.ofNat 32 m * BitVec.ofNat 32 m = 8 * y := by
  obtain ⟨u, hu⟩ : ∃ u, m * m = 8 * u + 1 := by
    obtain ⟨t, rfl⟩ : ∃ t, m = 2 * t + 1 := ⟨m / 2, by omega⟩
    obtain ⟨v, hv⟩ : ∃ v, t * (t + 1) = 2 * v := ⟨t * (t + 1) / 2, by
      have := Nat.even_mul_succ_self t
      have := Nat.even_iff.mp this
      omega⟩
    exact ⟨v, by nlinarith⟩
  refine ⟨-BitVec.ofNat 32 u, ?_⟩
  have : BitVec.ofNat 32 m * BitVec.ofNat 32 m = 8 * BitVec.ofNat 32 u + 1 := by
    rw [← BitVec.ofNat_mul, hu, BitVec.ofNat_add, BitVec.ofNat_mul]
    rfl
  rw [this]
  ring

/-- Four Newton steps reach the inverse for every odd modulus (R320). -/
theorem mul_newtonInverse {m : Nat} (h : m % 2 = 1) : BitVec.ofNat 32 m * newtonInverse (BitVec.ofNat 32 m) = 1 := by
  obtain ⟨y, hy⟩ := odd_square_error h
  have he : 1 - BitVec.ofNat 32 m * newtonInverse (BitVec.ofNat 32 m) = 0 := by
    unfold newtonInverse
    rw [newtonStep_error, newtonStep_error, newtonStep_error, newtonStep_error, hy]
    have h48 : ((8 : Word)^16) = 0 := by decide
    calc ((((8 * y)^2)^2)^2)^2 = 8^16 * y^16 := by ring
      _ = 0 := by rw [h48]; ring
  have := sub_eq_zero.mp he
  exact this.symm

/-- `m * m' ≡ -1 (mod 2^32)` for every odd `m` (R320). -/
theorem montInv_spec {m : Nat} (h : m % 2 = 1) : (m * (montInv m).toNat + 1) % radix = 0 := by
  have h1 : BitVec.ofNat 32 m * montInv m + 1 = 0 := by
    unfold montInv
    rw [mul_neg, mul_newtonInverse h]
    decide
  have h2 := congrArg BitVec.toNat h1
  simp only [BitVec.toNat_add, BitVec.toNat_mul, BitVec.toNat_ofNat] at h2
  rw [radix]
  rw [Nat.add_mod, Nat.mul_mod]
  have h3 : (montInv m).toNat % 2^32 = (montInv m).toNat := Nat.mod_eq_of_lt (montInv m).isLt
  rw [h3]
  simpa using h2

theorem Ring.ofModulus_minv {m : Nat} (h : m % 2 = 1) : (Ring.ofModulus m).minv = montInv m := by simp [Ring.ofModulus, h]

/-! ### REDC -/

/-- One digit step cancels digit `i` by adding a multiple of `m * b^i` with a factor below `b` (R321). -/
theorem Ring.redcStep_spec {m t i : Nat} (hodd : m % 2 = 1) (hz : t % radix^i = 0) :
    ∃ u < radix, (Ring.ofModulus m).redcStep t i = t + u * m * radix^i ∧
      (Ring.ofModulus m).redcStep t i % radix^(i + 1) = 0 := by
  refine ⟨digit t i * (montInv m).toNat % radix, Nat.mod_lt _ radix_pos, ?_, ?_⟩
  · simp [Ring.redcStep, Ring.ofModulus_minv hodd, radix]
  · obtain ⟨T, rfl⟩ := Nat.dvd_of_mod_eq_zero hz
    have hdig : digit (radix^i * T) i = T % radix := by rw [digit_eq, Nat.mul_div_cancel_left _ (radix_pow_pos i)]
    have hstep : (Ring.ofModulus m).redcStep (radix^i * T) i =
        radix^i * (T + T % radix * (montInv m).toNat % radix * m) := by
      simp only [Ring.redcStep, Ring.ofModulus_minv hodd, Ring.ofModulus_m, hdig]
      rw [show (2^32 : Nat) = radix from rfl]
      ring
    rw [hstep, Nat.pow_succ, Nat.mul_mod_mul_left]
    have hinv := montInv_spec hodd
    have : (T + T % radix * (montInv m).toNat % radix * m) % radix = 0 := by
      have e : T + T % radix * (montInv m).toNat % radix * m ≡ T * (m * (montInv m).toNat + 1) [MOD radix] := by
        calc T + T % radix * (montInv m).toNat % radix * m
            ≡ T + T * (montInv m).toNat * m [MOD radix] :=
              Nat.ModEq.add_left _ (((Nat.mod_modEq _ _).trans ((Nat.mod_modEq T radix).mul_right _)).mul_right _)
          _ = T * (m * (montInv m).toNat + 1) := by ring
      have e' : T * (m * (montInv m).toNat + 1) ≡ 0 [MOD radix] := by
        have : (m * (montInv m).toNat + 1) ≡ 0 [MOD radix] := hinv
        simpa using this.mul_left T
      exact e.trans e'
    rw [this, Nat.mul_zero]

/-- After `n` digit steps the low `n` digits are zero, and a multiple of `m` below `m * b^n` has been added (R321). -/
theorem Ring.redcFold_spec {m : Nat} (hodd : m % 2 = 1) (n t : Nat) :
    ∃ u < radix^n, (Ring.ofModulus m).redcFold n t = t + u * m ∧ (Ring.ofModulus m).redcFold n t % radix^n = 0 := by
  induction n with
  | zero => exact ⟨0, by simp, by simp [Ring.redcFold], Nat.mod_one _⟩
  | succ n ih =>
    obtain ⟨u, hu, he, hz⟩ := ih
    obtain ⟨d, hd, hde, hdz⟩ := Ring.redcStep_spec hodd hz
    have hfold : (Ring.ofModulus m).redcFold (n + 1) t =
        (Ring.ofModulus m).redcStep ((Ring.ofModulus m).redcFold n t) n := by
      simp [Ring.redcFold, List.range_succ]
    rw [hfold]
    refine ⟨u + d * radix^n, ?_, ?_, hdz⟩
    · rw [Nat.pow_succ]
      have : (d + 1) * radix^n ≤ radix * radix^n := Nat.mul_le_mul_right _ hd
      nlinarith
    · rw [hde, he]; ring

/-- `Redc(t) * R ≡ t (mod m)` and `Redc(t) < m`, for `t < m * R` (R321). -/
theorem Ring.redc_spec {m t : Nat} (hodd : m % 2 = 1) (ht : t < m * radix^(digitLen m)) :
    (Ring.ofModulus m).redc t < m ∧ (Ring.ofModulus m).redc t * radix^(digitLen m) % m = t % m := by
  obtain ⟨u, hu, he, hz⟩ := Ring.redcFold_spec hodd (digitLen m) t
  have hm : 0 < m := by omega
  have hR := radix_pow_pos (digitLen m)
  obtain ⟨q, hq⟩ := Nat.dvd_of_mod_eq_zero hz
  have hlt : q < 2 * m := by
    have h1 : u * m < radix^(digitLen m) * m := Nat.mul_lt_mul_of_pos_right hu hm
    have h2 : radix^(digitLen m) * q < radix^(digitLen m) * (2 * m) := by
      rw [← hq, he]
      calc t + u * m < m * radix^(digitLen m) + radix^(digitLen m) * m := by omega
        _ = radix^(digitLen m) * (2 * m) := by ring
    exact Nat.lt_of_mul_lt_mul_left h2
  have hredc : (Ring.ofModulus m).redc t = q % m := by
    unfold Ring.redc
    rw [Ring.ofModulus_k, hq, Nat.mul_div_cancel_left _ hR, Ring.ofModulus_m, subtractOnce_eq_mod hlt]
  rw [hredc]
  refine ⟨Nat.mod_lt _ hm, ?_⟩
  calc q % m * radix^(digitLen m) % m = radix^(digitLen m) * q % m := by rw [Nat.mod_mul_mod, Nat.mul_comm]
    _ = (t + u * m) % m := by rw [← hq, he]
    _ = t % m := Nat.add_mul_mod_self_right _ _ _

/-- The Montgomery radix is invertible modulo an odd number, so residues are known by their multiples of it. -/
theorem eq_of_mul_radix_pow_mod {m a c : Nat} (n : Nat) (hodd : m % 2 = 1) (ha : a < m) (hc : c < m)
    (h : a * radix^n % m = c * radix^n % m) : a = c := by
  have hcop : Nat.gcd m (radix^n) = 1 := by
    have h2 : Nat.Coprime m 2 := (Nat.coprime_two_right).mpr (Nat.odd_iff.mpr hodd)
    rw [radix_pow_eq]
    exact h2.pow_right _
  have := Nat.ModEq.cancel_right_of_coprime hcop h
  exact Nat.ModEq.eq_of_lt_of_lt this ha hc

theorem modulus_lt_radix_pow (m : Nat) : m < radix^(digitLen m) := lt_radix_pow_digitLen m

/-! ### Conversions and products (R322) -/

/-- `ToMont(x) = x * R mod m` (R322). -/
theorem Ring.toMont_eq {m : Nat} (hm : m ≠ 0) (x : Nat) : (Ring.ofModulus m).toMont x = x * radix^(digitLen m) % m := by
  unfold Ring.toMont
  rw [Ring.reduce_eq_mod hm, Ring.reduce_eq_mod hm, Ring.ofModulus_k, Nat.mod_mul_mod]

/-- `FromMont(y)` is the residue whose Montgomery form is `y mod m` (R322). -/
theorem Ring.fromMont_spec {m : Nat} (hodd : m % 2 = 1) (y : Nat) :
    (Ring.ofModulus m).fromMont y < m ∧ (Ring.ofModulus m).fromMont y * radix^(digitLen m) % m = y % m := by
  have hm : 0 < m := by omega
  have hlt : y % m < m * radix^(digitLen m) :=
    Nat.lt_of_lt_of_le (Nat.mod_lt _ hm) (Nat.le_mul_of_pos_right _ (radix_pow_pos _))
  have := Ring.redc_spec hodd hlt
  unfold Ring.fromMont
  rw [Ring.reduce_eq_mod (by omega)]
  rwa [Nat.mod_mod] at this

/-- `MontMul(x, y) * R ≡ x * y (mod m)` for reduced operands (R322). -/
theorem Ring.montMul_spec {m x y : Nat} (hodd : m % 2 = 1) (hx : x < m) (hy : y < m) :
    (Ring.ofModulus m).montMul x y < m ∧ (Ring.ofModulus m).montMul x y * radix^(digitLen m) % m = x * y % m := by
  refine Ring.redc_spec hodd (Nat.mul_lt_mul'' hx (Nat.lt_trans hy (modulus_lt_radix_pow m)))

/-- Products of Montgomery forms are Montgomery forms of products (R322). -/
theorem Ring.montMul_form {m : Nat} (hodd : m % 2 = 1) (a c : Nat) :
    (Ring.ofModulus m).montMul (a * radix^(digitLen m) % m) (c * radix^(digitLen m) % m) = a * c * radix^(digitLen m) % m := by
  have hm : 0 < m := by omega
  have hs := Ring.montMul_spec hodd (Nat.mod_lt (a * radix^(digitLen m)) hm) (Nat.mod_lt (c * radix^(digitLen m)) hm)
  refine eq_of_mul_radix_pow_mod (digitLen m) hodd hs.1 (Nat.mod_lt _ hm) ?_
  rw [hs.2, ← Nat.mul_mod, Nat.mod_mul_mod]
  congr 1
  ring

/-- `FromMont(ToMont(a)) = a mod m` (R322). -/
theorem Ring.fromMont_form {m : Nat} (hodd : m % 2 = 1) (a : Nat) :
    (Ring.ofModulus m).fromMont (a * radix^(digitLen m) % m) = a % m := by
  have hm : 0 < m := by omega
  have hs := Ring.fromMont_spec hodd (a * radix^(digitLen m) % m)
  refine eq_of_mul_radix_pow_mod (digitLen m) hodd hs.1 (Nat.mod_lt _ hm) ?_
  rw [hs.2, Nat.mod_mod, Nat.mod_mul_mod]

end Sys2Proof.Machine
end

