-- ==== Sys2Proof/Laws/Pow.lean ====
section
/-! SUPPORT. The exponent scans compute powers (45_pow.md R350 to R357): once for any multiplication that follows a product
through a map, then for each path. -/

namespace Sys2Proof.Machine

/-- The low `n + 1` bits of `e` from bit `i` on: bit `i`, and twice the low `n` bits from bit `i + 1` on. -/
theorem shiftRight_mod_two_pow_succ (e i n : Nat) :
    (e >>> i) % 2^(n + 1) = (e.testBit i).toNat + 2 * ((e >>> (i + 1)) % 2^n) := by
  rw [Nat.pow_succ, Nat.mul_comm, Nat.mod_mul, Nat.shiftRight_succ, Nat.testBit_eq_decide_div_mod_eq,
    Nat.shiftRight_eq_div_pow]
  rcases Nat.mod_two_eq_zero_or_one (e / 2^i) with h | h <;> simp [h]

/-- The low `n + 1` bits of `e`: bit `n` over its low `n` bits. -/
theorem mod_two_pow_succ_eq (e n : Nat) : e % 2^(n + 1) = (e.testBit n).toNat * 2^n + e % 2^n := by
  rw [Nat.pow_succ, Nat.mod_mul, Nat.testBit_eq_decide_div_mod_eq]
  rcases Nat.mod_two_eq_zero_or_one (e / 2^n) with h | h
  · simp [h]
  · simp [h]; ring

/-- The least-significant-bit-first scan computes a power, for any multiplication that a map carries products to (R352, R353). -/
theorem scanLsb_eq {mul : Nat → Nat → Nat} {f : Nat → Nat} (hmul : ∀ a c, mul (f a) (f c) = f (a * c)) (e : Nat) :
    ∀ n i acc x, scanLsb mul e n i (f acc) (f x) = f (acc * x^((e >>> i) % 2^n)) := by
  intro n
  induction n with
  | zero => intro i acc x; simp [scanLsb, Nat.mod_one]
  | succ n ih =>
    intro i acc x
    rw [scanLsb, hmul, hmul, shiftRight_mod_two_pow_succ]
    cases e.testBit i
    · simp only [Bool.false_eq_true, if_false, ih, Bool.toNat_false, Nat.zero_add, Nat.pow_mul, Nat.pow_two]
    · simp only [if_true, ih, Bool.toNat_true, Nat.pow_add, Nat.pow_one, Nat.pow_mul, Nat.pow_two, Nat.mul_assoc]

/-- The most-significant-bit-first scan computes a power (R355, R356). -/
theorem scanMsb_eq {square fold f : Nat → Nat} {base : Nat} (hsq : ∀ a, square (f a) = f (a * a))
    (hfold : ∀ a, fold (f a) = f (a * base)) (e : Nat) :
    ∀ n acc, scanMsb square fold e n (f acc) = f (acc^(2^n) * base^(e % 2^n)) := by
  intro n
  induction n with
  | zero => intro acc; simp [scanMsb, Nat.mod_one]
  | succ n ih =>
    intro acc
    rw [scanMsb, hsq, hfold, mod_two_pow_succ_eq]
    cases e.testBit n
    · simp only [Bool.false_eq_true, if_false, ih, Bool.toNat_false, Nat.zero_mul, Nat.zero_add]
      congr 1
      rw [Nat.pow_succ 2 n, Nat.mul_comm (2^n) 2, Nat.pow_mul, Nat.pow_two]
    · simp only [if_true, ih, Bool.toNat_true, Nat.one_mul]
      congr 1
      rw [Nat.pow_succ 2 n, Nat.mul_comm (2^n) 2, Nat.pow_mul, Nat.pow_two, Nat.mul_pow, Nat.pow_add, Nat.mul_assoc]

theorem mod_two_pow_bitLen (e : Nat) : e % 2^(bitLen e) = e := Nat.mod_eq_of_lt (lt_two_pow_bitLen e)

theorem digitLen_mul_mod_le {m : Nat} (hm : m ≠ 0) (a c : Nat) : digitLen (a % m * (c % m)) ≤ 2 * digitLen m :=
  digitLen_mul_le (digitLen_mono (Nat.le_of_lt (Nat.mod_lt _ (Nat.pos_of_ne_zero hm))))
    (digitLen_mono (Nat.le_of_lt (Nat.mod_lt _ (Nat.pos_of_ne_zero hm))))

/-- The Barrett product of residues is the residue of the product. -/
theorem Ring.barrettMod_mul_mod {m : Nat} (hm : m ≠ 0) (a c : Nat) :
    (Ring.ofModulus m).barrettMod (a % m * (c % m)) = a * c % m := by
  rw [Ring.barrettMod_eq_mod hm (digitLen_mul_mod_le hm a c), ← Nat.mul_mod]

/-- `EvenPow(base, e) = PowMod(base, e, m)`, for either parity (R353, R357). -/
theorem Ring.evenPow_eq {m : Nat} (hm : m ≠ 0) (base e : Nat) : (Ring.ofModulus m).evenPow base e = powMod base e m := by
  unfold Ring.evenPow powMod
  rw [Ring.reduce_eq_mod hm, Ring.reduce_eq_mod hm, scanLsb_eq (f := (· % m)) (Ring.barrettMod_mul_mod hm)]
  simp [mod_two_pow_bitLen]

/-- `OddPow(base, e) = PowMod(base, e, m)` for odd `m` (R352, R357). -/
theorem Ring.oddPow_eq {m : Nat} (hodd : m % 2 = 1) (base e : Nat) : (Ring.ofModulus m).oddPow base e = powMod base e m := by
  have hm : m ≠ 0 := by omega
  unfold Ring.oddPow powMod
  rw [Ring.toMont_eq hm, Ring.toMont_eq hm,
    scanLsb_eq (f := fun a => a * radix^(digitLen m) % m) (Ring.montMul_form hodd), Ring.fromMont_form hodd]
  simp [mod_two_pow_bitLen]

/-- `SmallPow(c, e) = PowMod(c, e, m)` (R355, R357). -/
theorem Ring.smallPow_eq {m : Nat} (hm : m ≠ 0) (base e : Nat) : (Ring.ofModulus m).smallPow base e = powMod base e m := by
  unfold Ring.smallPow powMod
  rw [Ring.reduce_eq_mod hm, scanMsb_eq (f := (· % m)) (base := base) (fun a => Ring.barrettMod_mul_mod hm a a)
    (fun a => by simp [Ring.reduce_eq_mod hm])]
  simp [mod_two_pow_bitLen]

/-- `Pow2(e) = PowMod(2, e, m)` (R356, R357). -/
theorem Ring.pow2_eq {m : Nat} (hm : m ≠ 0) (e : Nat) : (Ring.ofModulus m).pow2 e = powMod 2 e m := by
  unfold Ring.pow2 powMod
  rw [Ring.reduce_eq_mod hm, scanMsb_eq (f := (· % m)) (base := 2) (fun a => Ring.barrettMod_mul_mod hm a a)
    (fun a => by
      have : a % m < m := Nat.mod_lt _ (Nat.pos_of_ne_zero hm)
      rw [Ring.ofModulus_m, subtractOnce_eq_mod (by omega), Nat.mul_mod_mod, Nat.mul_comm])]
  simp [mod_two_pow_bitLen]

/-- RPOW's result (R350, R351). -/
theorem Ring.pow_eq {m : Nat} (hm : m ≠ 0) (base e : Nat) : (Ring.ofModulus m).pow base e = powMod base e m := by
  unfold Ring.pow
  split
  · next h => exact Ring.oddPow_eq (by simpa using h) base e
  · exact Ring.evenPow_eq hm base e

/-- RPOWI's result (R350, R354). -/
theorem Ring.powImm_eq {m : Nat} (hm : m ≠ 0) (base e : Nat) : (Ring.ofModulus m).powImm base e = powMod base e m := by
  unfold Ring.powImm
  split
  · next h => rw [h, Ring.pow2_eq hm]
  · exact Ring.smallPow_eq hm base e

end Sys2Proof.Machine
end

