-- ==== Sys2Proof/Laws/Exec.lean ====
section
/-! SUPPORT. What a command can do, said once: it takes a trap, or it commits one of a few staged states (Staged). The rules of the
single commands, the invariant and the whole-machine rules rest on this. -/

namespace Sys2Proof.Machine

variable {s t u : State}

/-- The states a command can stage (R11, R180): which command stages which, with the facts later laws need. -/
inductive Staged (s : State) : Instr → State → Prop
  | same : Staged s .nop s
  | ended : Staged s .halt s.endRun
  | wrote {i : Instr} (rd : RegIdx) (v : Nat) (hi : i ≠ .halt) (hv : s.Inv → v ≤ s.vmax) : Staged s i (s.writeReg rd v)
  | scrubbed (rd : RegIdx) : Staged s (.zero rd) (s.scrubReg rd)
  | drew (rd : RegIdx) (imm : Word) (h0 : imm ≠ 0) (hn : imm.toNat ≤ 32 * s.cfg.maxw) :
      Staged s (.rand rd imm) (s.drawn.writeReg rd (s.entropy imm.toNat))
  | exported (ra : RegIdx) (hw : s.regs[ra].wr = true) : Staged s (.stb ra) (s.exportBytes (minBE s.regs[ra].val))
  | compared (ra rb : RegIdx) (a b : Nat) : Staged s (.cmp ra rb) (s.writeFlags (s.flags.compared a b))
  | tested (ra : RegIdx) (imm : Word) (a : Nat) : Staged s (.bittest ra imm) (s.writeFlags (s.flags.tested a imm.toNat))
  | divided (rd re ra rb : RegIdx) (q r : Nat) (hq : s.Inv → q ≤ s.vmax) (hr : s.Inv → r ≤ s.vmax) :
      Staged s (.divrem rd re ra rb) ((s.writeReg rd q).writeReg re r)
  | ringSet (rg : RingIdx) (ra : RegIdx) (hm : s.regs[ra].val ≠ 0) (hv : s.Inv → s.regs[ra].val ≤ s.vmax) :
      Staged s (.rset rg ra) (s.writeRing rg (Ring.ofModulus s.regs[ra].val))
  | ringCleared (rg : RingIdx) : Staged s (.rclr rg) (s.writeRing rg Ring.cleared)

/-- What a command does with the staged state or the fault of its body. -/
inductive Ends (s : State) (i : Instr) : Except FaultCode State → Prop
  | staged {u : State} (h : Staged s i u) : Ends s i (.ok u)
  | raised {c : FaultCode} (h : c ≠ .none) : Ends s i (.error c)

theorem Ends.source {i : Instr} {f : Nat → Except FaultCode State} (r : RegIdx)
    (h : s.regs[r].wr = true → Ends s i (f s.regs[r].val)) : Ends s i (s.source r >>= f) := by
  obtain ⟨hw, he⟩ | ⟨hw, he⟩ := s.source_cases r <;> rw [he]
  · exact h hw
  · exact .raised (by decide)

theorem Ends.context {i : Instr} {f : Ring → Except FaultCode State} (r : RingIdx)
    (h : s.rings[r].valid = true → Ends s i (f s.rings[r])) : Ends s i (s.context r >>= f) := by
  obtain ⟨hw, he⟩ | ⟨hw, he⟩ := s.context_cases r <;> rw [he]
  · exact h hw
  · exact .raised (by decide)

theorem Ends.oddContext {i : Instr} {f : Ring → Except FaultCode State} (r : RingIdx)
    (h : s.rings[r].valid = true → s.rings[r].odd = true → Ends s i (f s.rings[r])) : Ends s i (s.oddContext r >>= f) := by
  obtain ⟨hw, ho, he⟩ | ⟨hw, ho, he⟩ | ⟨hw, he⟩ := s.oddContext_cases r <;> rw [he]
  · exact h hw ho
  · exact .raised (by decide)
  · exact .raised (by decide)

theorem Ends.fitted {i : Instr} {f : Nat → Except FaultCode State} (v : Nat)
    (h : v ≤ s.vmax → Ends s i (f v)) : Ends s i (s.fitted v >>= f) := by
  by_cases hv : v ≤ s.vmax
  · rw [State.fitted_ok hv]; exact h hv
  · rw [State.fitted_overflow (Nat.lt_of_not_le hv)]; exact .raised (by decide)

theorem Ends.immNonNegative {i : Instr} {f : Nat → Except FaultCode State} (imm : Word) {c : FaultCode} (hc : c ≠ .none)
    (h : Ends s i (f imm.toNat)) : Ends s i (immNonNegative imm c >>= f) := by
  by_cases hi : imm.toNat < 2^31
  · rw [immNonNegative_ok c hi]; exact h
  · rw [immNonNegative_negative c (by omega)]; exact .raised hc

/-! ### Bounds -/

/-- A written register's value fits (R42). -/
theorem State.Inv.val_le (h : s.Inv) (i : RegIdx) : s.regs[i].val ≤ s.vmax := (h.regs i).fits

theorem vmaxOf_eq (n : Nat) : vmaxOf n + 1 = 2^(32 * n) := by
  unfold vmaxOf; have := Nat.two_pow_pos (32 * n); omega

theorem State.le_vmax_iff {v : Nat} : v ≤ s.vmax ↔ v < 2^(32 * s.cfg.maxw) := by
  have := vmaxOf_eq s.cfg.maxw; unfold State.vmax; omega

theorem State.Inv.small_le (h : s.Inv) {v : Nat} (hv : v < 2^64) : v ≤ s.vmax :=
  State.le_vmax_iff.2 (hv.trans_le (Nat.pow_le_pow_right (by decide) (by have := h.config.1; omega)))

/-- A valid ring context is the one of its modulus (R281). -/
theorem State.Inv.ring_eq (h : s.Inv) {r : RingIdx} (hr : s.rings[r].valid = true) :
    s.rings[r] = Ring.ofModulus s.rings[r].m ∧ s.rings[r].m ≠ 0 ∧ s.rings[r].m ≤ s.vmax :=
  ⟨(h.rings r).setUp hr, (h.rings r).nonzero hr, (h.rings r).fits⟩

/-- A value below the modulus of a valid ring fits. -/
theorem State.Inv.lt_m_le (h : s.Inv) {r : RingIdx} (hr : s.rings[r].valid = true) {v : Nat} (hv : v < s.rings[r].m) :
    v ≤ s.vmax := (Nat.le_of_lt hv).trans (h.ring_eq hr).2.2

/-- The digits of an import fill no more than the capacity (R205). -/
theorem State.beValue_ioString_le (s : State) {n : Nat} (hn : n ≤ s.ioBytes) : beValue (s.ioString n) ≤ s.vmax := by
  have h := beValue_lt (s.ioString n)
  rw [State.ioString_length] at h
  refine State.le_vmax_iff.2 (h.trans_le ?_)
  rw [show (256 : Nat) = 2^8 by decide, ← Nat.pow_mul]
  exact Nat.pow_le_pow_right (by decide) (by unfold State.ioBytes at hn; omega)

theorem bitLen_le_self (v : Nat) : bitLen v ≤ v := bitLen_le_iff.2 Nat.lt_two_pow_self

/-! ### Every command -/

/-- Every command is `State.command` of its length and a body that raises a fault or stages a state (R180). -/
theorem exec_ends (i : Instr) (s : State) : ∃ body, exec i s = s.command i.words body ∧ Ends s i body := by
  cases i with
  | nop => exact ⟨_, rfl, .staged .same⟩
  | halt => exact ⟨_, rfl, .staged .ended⟩
  | mov rd ra => exact ⟨_, rfl, .source ra fun _ => .staged (.wrote rd _ (by nofun) fun h => h.val_le ra)⟩
  | zero rd => exact ⟨_, rfl, .staged (.scrubbed rd)⟩
  | ldi rd imm =>
    exact ⟨_, rfl, .staged (.wrote rd _ (by nofun) fun h => h.small_le (by unfold immUnsigned; have := imm.isLt; omega))⟩
  | ldb rd =>
    refine ⟨_, rfl, ?_⟩
    split
    · exact .raised (by decide)
    · exact .staged (.wrote rd _ (by nofun) fun _ => s.beValue_ioString_le (by omega))
  | stb ra => exact ⟨_, rfl, .source ra fun hw => .staged (.exported ra hw)⟩
  | rand rd imm =>
    refine ⟨_, rfl, ?_⟩
    unfold immUnsigned
    split
    · exact .raised (by decide)
    · split
      · exact .staged (.wrote rd _ (by nofun) fun _ => Nat.zero_le _)
      · next h1 h2 => exact .staged (.drew rd imm (by rintro rfl; exact h2 rfl) (by omega))
  | bitset rd imm =>
    refine ⟨_, rfl, .source rd fun _ => ?_⟩
    unfold immUnsigned
    split
    · exact .raised (by decide)
    · next h1 =>
      refine .staged (.wrote rd _ (by nofun) fun h => State.le_vmax_iff.2 ?_)
      exact Nat.or_lt_two_pow (State.le_vmax_iff.1 (h.val_le rd)) (Nat.pow_lt_pow_right (by decide) (by omega))
  | bitclr rd imm =>
    refine ⟨_, rfl, .source rd fun _ => .staged (.wrote rd _ (by nofun) fun h => (?_ : _ ≤ _).trans (h.val_le rd))⟩
    split
    · exact Nat.sub_le _ _
    · exact Nat.le_refl _
  | bittest ra imm => exact ⟨_, rfl, .source ra fun _ => .staged (.tested ra imm _)⟩
  | bitlen rd ra =>
    exact ⟨_, rfl, .source ra fun _ =>
      .staged (.wrote rd _ (by nofun) fun h => (bitLen_le_self _).trans (h.val_le ra))⟩
  | inc2 rd => exact ⟨_, rfl, .source rd fun _ => .fitted _ fun hv => .staged (.wrote rd _ (by nofun) fun _ => hv)⟩
  | cmp ra rb => exact ⟨_, rfl, .source ra fun _ => .source rb fun _ => .staged (.compared ra rb _ _)⟩
  | add rd ra rb =>
    exact ⟨_, rfl, .source ra fun _ => .source rb fun _ => .fitted _ fun hv => .staged (.wrote rd _ (by nofun) fun _ => hv)⟩
  | sub rd ra rb =>
    refine ⟨_, rfl, .source ra fun _ => .source rb fun _ => ?_⟩
    split
    · exact .raised (by decide)
    · exact .staged (.wrote rd _ (by nofun) fun h => (Nat.sub_le _ _).trans (h.val_le ra))
  | mul rd ra rb =>
    exact ⟨_, rfl, .source ra fun _ => .source rb fun _ => .fitted _ fun hv => .staged (.wrote rd _ (by nofun) fun _ => hv)⟩
  | sqr rd ra => exact ⟨_, rfl, .source ra fun _ => .fitted _ fun hv => .staged (.wrote rd _ (by nofun) fun _ => hv)⟩
  | mulw rd ra imm =>
    exact ⟨_, rfl, .source ra fun _ => .immNonNegative imm (by decide)
      (.fitted _ fun hv => .staged (.wrote rd _ (by nofun) fun _ => hv))⟩
  | shl rd ra imm =>
    refine ⟨_, rfl, .source ra fun _ => .immNonNegative imm (by decide) ?_⟩
    unfold State.shiftedLeft
    split
    · exact .staged (.wrote rd _ (by nofun) fun _ => Nat.zero_le _)
    · split
      · exact .raised (by decide)
      · next h1 h2 =>
        refine .staged (.wrote rd _ (by nofun) fun _ => State.le_vmax_iff.2 ?_)
        calc _ < 2^(bitLen s.regs[ra].val) * 2^imm.toNat :=
              Nat.mul_lt_mul_of_pos_right (lt_two_pow_bitLen _) (Nat.two_pow_pos _)
          _ = 2^(bitLen s.regs[ra].val + imm.toNat) := (Nat.pow_add ..).symm
          _ ≤ _ := Nat.pow_le_pow_right (by decide) (by omega)
  | shr rd ra imm =>
    refine ⟨_, rfl, .source ra fun _ => .immNonNegative imm (by decide) (.staged (.wrote rd _ (by nofun) fun h => ?_))⟩
    rw [Nat.shiftRight_eq_div_pow]
    exact (Nat.div_le_self _ _).trans (h.val_le ra)
  | divrem rd re ra rb =>
    refine ⟨_, rfl, ?_⟩
    split
    · exact .raised (by decide)
    · refine .source ra fun _ => .source rb fun _ => ?_
      split
      · exact .raised (by decide)
      · exact .staged (.divided rd re ra rb _ _ (fun h => (Nat.div_le_self _ _).trans (h.val_le ra))
          fun h => (Nat.mod_le _ _).trans (h.val_le ra))
  | rset rg ra =>
    refine ⟨_, rfl, .source ra fun _ => ?_⟩
    split
    · exact .raised (by decide)
    · exact .staged (.ringSet rg ra ‹_› fun h => h.val_le ra)
  | rclr rg => exact ⟨_, rfl, .staged (.ringCleared rg)⟩
  | rred rd ra rg =>
    refine ⟨_, rfl, .source ra fun _ => .context rg fun hr => .staged (.wrote rd _ (by nofun) fun h => h.lt_m_le hr ?_)⟩
    obtain ⟨hc, hm, -⟩ := h.ring_eq hr
    rw [hc, Ring.reduce_eq_mod hm]; exact Nat.mod_lt _ (Nat.pos_of_ne_zero hm)
  | rmul rd ra rb rg =>
    refine ⟨_, rfl, .source ra fun _ => .source rb fun _ => .context rg fun hr =>
      .staged (.wrote rd _ (by nofun) fun h => h.lt_m_le hr ?_)⟩
    obtain ⟨hc, hm, -⟩ := h.ring_eq hr
    rw [hc, Ring.multiply_eq_mod hm]; exact Nat.mod_lt _ (Nat.pos_of_ne_zero hm)
  | rdiff rd ra rb rg =>
    refine ⟨_, rfl, .source ra fun _ => .source rb fun _ => .context rg fun hr =>
      .staged (.wrote rd _ (by nofun) fun h => (?_ : _ ≤ _).trans (h.ring_eq hr).2.2)⟩
    obtain ⟨hc, hm, -⟩ := h.ring_eq hr
    rw [hc, Ring.difference_eq hm]
    simp only [Ring.ofModulus_m]
    have := Nat.mod_lt (s.regs[ra].val - s.regs[rb].val) (Nat.pos_of_ne_zero hm)
    split_ifs <;> omega
  | rpow rd ra rb rg =>
    refine ⟨_, rfl, .source ra fun _ => .source rb fun _ => .context rg fun hr =>
      .staged (.wrote rd _ (by nofun) fun h => h.lt_m_le hr ?_)⟩
    obtain ⟨hc, hm, -⟩ := h.ring_eq hr
    rw [hc, Ring.pow_eq hm]; exact Nat.mod_lt _ (Nat.pos_of_ne_zero hm)
  | rpowi rd imm rb rg =>
    refine ⟨_, rfl, .source rb fun _ => .context rg fun hr => .staged (.wrote rd _ (by nofun) fun h => h.lt_m_le hr ?_)⟩
    obtain ⟨hc, hm, -⟩ := h.ring_eq hr
    rw [hc, Ring.powImm_eq hm]; exact Nat.mod_lt _ (Nat.pos_of_ne_zero hm)
  | rtom rd ra rg =>
    refine ⟨_, rfl, .source ra fun _ => .oddContext rg fun hr _ => .staged (.wrote rd _ (by nofun) fun h => h.lt_m_le hr ?_)⟩
    obtain ⟨hc, hm, -⟩ := h.ring_eq hr
    rw [hc, Ring.toMont_eq hm]; exact Nat.mod_lt _ (Nat.pos_of_ne_zero hm)
  | rfromm rd ra rg =>
    refine ⟨_, rfl, .source ra fun _ => .oddContext rg fun hr ho => .staged (.wrote rd _ (by nofun) fun h => h.lt_m_le hr ?_)⟩
    obtain ⟨hc, hm, -⟩ := h.ring_eq hr
    rw [hc] at ho ⊢
    exact (Ring.fromMont_spec (of_decide_eq_true ho) _).1
  | rmmul rd ra rb rg =>
    refine ⟨_, rfl, .source ra fun _ => .source rb fun _ => .oddContext rg fun hr ho =>
      .staged (.wrote rd _ (by nofun) fun h => h.lt_m_le hr ?_)⟩
    obtain ⟨hc, hm, -⟩ := h.ring_eq hr
    rw [hc] at ho ⊢
    rw [Ring.reduce_eq_mod hm, Ring.reduce_eq_mod hm]
    exact (Ring.montMul_spec (of_decide_eq_true ho) (Nat.mod_lt _ (Nat.pos_of_ne_zero hm))
      (Nat.mod_lt _ (Nat.pos_of_ne_zero hm))).1

/-- A command takes a trap from the state before it, or commits a staged state (R400, R180). -/
theorem exec_cases (i : Instr) (s : State) :
    (∃ c, c ≠ .none ∧ exec i s = .next (s.trap c)) ∨ (∃ u, Staged s i u ∧ exec i s = .next (u.advance i.words)) := by
  obtain ⟨body, he, hb⟩ := exec_ends i s
  cases hb with
  | staged h => exact .inr ⟨_, h, by rw [he]; rfl⟩
  | raised h => exact .inl ⟨_, h, by rw [he]; rfl⟩

/-- The same, of a given next state. -/
theorem exec_next_cases {i : Instr} (h : exec i s = .next t) :
    (∃ c, c ≠ .none ∧ t = s.trap c) ∨ (∃ u, Staged s i u ∧ t = u.advance i.words) := by
  obtain ⟨c, hc, he⟩ | ⟨u, hu, he⟩ := exec_cases i s
  · exact .inl ⟨c, hc, by rw [he] at h; injection h with h; exact h.symm⟩
  · exact .inr ⟨u, hu, by rw [he] at h; injection h with h; exact h.symm⟩

/-! ### What no command does -/

/-- A staged state keeps what no command changes (R57, R118). -/
theorem Staged.outside {i : Instr} (h : Staged s i u) : State.OutsideKept s u := by
  cases h <;> exact ⟨rfl, rfl, fun _ => rfl, rfl, rfl, rfl⟩

/-- A staged state keeps IE, HWERR and the FAULT state, and scratch. -/
theorem Staged.report {i : Instr} (h : Staged s i u) :
    u.ie = s.ie ∧ u.hwerr = s.hwerr ∧ u.fault = s.fault ∧ u.faultCode = s.faultCode ∧ u.faultPc = s.faultPc ∧
      u.faultCmd = s.faultCmd ∧ u.pc = s.pc := by
  cases h <;> exact ⟨rfl, rfl, rfl, rfl, rfl, rfl, rfl⟩

/-- Only HALT stages the end of the run. -/
theorem Staged.run {i : Instr} (h : Staged s i u) :
    (i = .halt ∧ u = s.endRun) ∨ (i ≠ .halt ∧ u.busy = s.busy ∧ u.done = s.done) := by
  cases h with
  | ended => exact .inl ⟨rfl, rfl⟩
  | wrote rd v hi hv => exact .inr ⟨hi, rfl, rfl⟩
  | _ => exact .inr ⟨by nofun, rfl, rfl⟩

/-- A register of a written register file is the written one or as before. -/
theorem State.writeReg_get_cases (s : State) (i : RegIdx) (v : Nat) (j : RegIdx) :
    (s.writeReg i v).regs[j] = Reg.holding v (s.staleAbove v) ∨ (s.writeReg i v).regs[j] = s.regs[j] := by
  by_cases h : j = i
  · exact .inl (by rw [h]; exact State.writeReg_get_self s i v)
  · exact .inr (State.writeReg_get_ne s v h)

theorem State.scrubReg_get_cases (s : State) (i j : RegIdx) :
    (s.scrubReg i).regs[j] = Reg.holding 0 0 ∨ (s.scrubReg i).regs[j] = s.regs[j] := by
  by_cases h : j = i
  · exact .inl (by rw [h]; exact State.scrubReg_get_self s i)
  · exact .inr (State.scrubReg_get_ne s h)

/-- Every register of a staged state is as before, or holds a value with stale digits above it (R42, R43). -/
theorem Staged.reg {i : Instr} (h : Staged s i u) (j : RegIdx) :
    u.regs[j] = s.regs[j] ∨ ∃ v x, u.regs[j] = Reg.holding v x ∧ x < 2^(32 * (s.cfg.maxw - digitLen v)) ∧
      (s.Inv → v ≤ s.vmax) := by
  cases h with
  | same | ended | exported | compared | tested | ringSet | ringCleared => exact .inl rfl
  | wrote rd v hi hv =>
    obtain h | h := s.writeReg_get_cases rd v j
    · exact .inr ⟨v, _, h, s.staleAbove_lt v, hv⟩
    · exact .inl h
  | scrubbed rd =>
    obtain h | h := s.scrubReg_get_cases rd j
    · exact .inr ⟨0, 0, h, Nat.two_pow_pos _, fun _ => Nat.zero_le _⟩
    · exact .inl h
  | drew rd imm h0 hn =>
    obtain h | h := s.drawn.writeReg_get_cases rd (s.entropy imm.toNat) j
    · exact .inr ⟨_, _, h, s.drawn.staleAbove_lt _, fun _ => State.le_vmax_iff.2
        ((s.entropy_lt _).trans_le (Nat.pow_le_pow_right (by decide) hn))⟩
    · exact .inl h
  | divided rd re ra rb q r hq hr =>
    obtain h | h := (s.writeReg rd q).writeReg_get_cases re r j
    · exact .inr ⟨r, _, h, (s.writeReg rd q).staleAbove_lt r, hr⟩
    · obtain h' | h' := s.writeReg_get_cases rd q j
      · exact .inr ⟨q, _, h.trans h', s.staleAbove_lt q, hq⟩
      · exact .inl (h.trans h')

/-- A ring of a staged state is as before, or the one RSET or RCLR stores. -/
theorem Staged.ring {i : Instr} (h : Staged s i u) (r : RingIdx) :
    u.rings[r] = s.rings[r] ∨
    (∃ ra, i = .rset r ra ∧ u.rings[r] = Ring.ofModulus s.regs[ra].val ∧ s.regs[ra].val ≠ 0 ∧
      (s.Inv → s.regs[ra].val ≤ s.vmax)) ∨
    (i = .rclr r ∧ u.rings[r] = Ring.cleared) := by
  cases h with
  | ringSet rg ra hm hv =>
    by_cases hr : r = rg
    · subst hr; exact .inr (.inl ⟨ra, rfl, by simp, hm, hv⟩)
    · exact .inl (State.writeRing_get_ne s _ hr)
  | ringCleared rg =>
    by_cases hr : r = rg
    · subst hr; exact .inr (.inr ⟨rfl, by simp⟩)
    · exact .inl (State.writeRing_get_ne s _ hr)
  | _ => exact .inl rfl

/-- The flags of a staged state are as before, or CMP's or BITTEST's. -/
theorem Staged.flags {i : Instr} (h : Staged s i u) :
    u.flags = s.flags ∨ (∃ ra rb a b, i = .cmp ra rb ∧ u.flags = s.flags.compared a b) ∨
    (∃ ra imm a, i = .bittest ra imm ∧ u.flags = s.flags.tested a imm.toNat) := by
  cases h with
  | compared ra rb a b => exact .inr (.inl ⟨ra, rb, a, b, rfl, rfl⟩)
  | tested ra imm a => exact .inr (.inr ⟨ra, imm, a, rfl, rfl⟩)
  | _ => exact .inl rfl

/-- IOBUF and IOLEN of a staged state are as before, or STB's. -/
theorem Staged.io {i : Instr} (h : Staged s i u) :
    (u.ioBuf = s.ioBuf ∧ u.ioLen = s.ioLen) ∨
    (∃ ra, i = .stb ra ∧ s.regs[ra].wr = true ∧ u = s.exportBytes (minBE s.regs[ra].val)) := by
  cases h with
  | exported ra hw => exact .inr ⟨ra, rfl, hw, rfl⟩
  | _ => exact .inl ⟨rfl, rfl⟩

/-- Only RAND of a non-zero count draws. -/
theorem Staged.draws {i : Instr} (h : Staged s i u) :
    u.draws = s.draws ∨ (∃ rd imm, i = .rand rd imm ∧ imm ≠ 0 ∧ u.draws = s.draws + 1) := by
  cases h with
  | drew rd imm h0 hn => exact .inr ⟨rd, imm, rfl, h0, rfl⟩
  | _ => exact .inl rfl

end Sys2Proof.Machine
end

