-- ==== Sys2Proof/Laws/Step.lean ====
section
/-! SUPPORT. What a step can do, said once: the core's turn (idle, a trap of the front half, or a command) or a host event, and what
a host event can do (HostEffect). -/

namespace Sys2Proof.Machine

variable {s t u : State}

/-! ### The core's turn -/

theorem step_of_coreTurn (h : State.CoreTurn s u) : step s = coreStep u := by
  obtain ⟨hi, rfl⟩ | ⟨rest, hi, rfl⟩ := h
  · unfold step; rw [hi]
  · conv_lhs => unfold step
    rw [hi]

/-- On the core's turn the state is as before, but for a used-up "no access". -/
theorem State.CoreTurn.same (h : State.CoreTurn s u) : u = { s with inputs := u.inputs } := by
  obtain ⟨-, rfl⟩ | ⟨rest, -, rfl⟩ := h <;> rfl

/-- The core's turn is taken from one state. -/
theorem State.CoreTurn.unique {u' : State} (h : State.CoreTurn s u) (h' : State.CoreTurn s u') : u' = u := by
  obtain ⟨a, rfl⟩ | ⟨r, a, rfl⟩ := h <;> obtain ⟨b, rfl⟩ | ⟨r', b, rfl⟩ := h' <;> rw [a] at b <;> cases b
  all_goals rfl

/-- While the core takes its turn, no host event of another kind is next. -/
theorem State.CoreTurn.not_event {ev : HostEvent} {rest : List HostEvent} (h : State.CoreTurn s u) (hi : s.inputs = ev :: rest) :
    ev = .noAccess := by
  obtain ⟨a, -⟩ | ⟨r, a, -⟩ := h <;> rw [a] at hi <;> cases hi
  rfl

/-- What the front half finds at PC (R180, R402). -/
theorem State.fetch_cases (s : State) :
    (s.fetch = .trap .commandOverrun ∧ cmdWords ≤ s.pc.toNat) ∨
    (s.fetch = .unwritten s.pc.toNat ∧ s.pc.toNat < cmdWords ∧ s.cmdMem.read? s.pc.toNat = none) ∨
    ∃ w, s.pc.toNat < cmdWords ∧ s.cmdMem.read? s.pc.toNat = some w ∧
      ((∃ e, decodeHead w = .error e ∧ s.fetch = .trap .illegalCommand) ∨
       ∃ h, decodeHead w = .ok h ∧
        ((h.words = 1 ∧ s.fetch = .run (h.instr 0)) ∨
         (h.words ≠ 1 ∧ cmdWords ≤ s.pc.toNat + 1 ∧ s.fetch = .trap .commandOverrun) ∨
         (h.words ≠ 1 ∧ s.pc.toNat + 1 < cmdWords ∧ s.cmdMem.read? (s.pc.toNat + 1) = none ∧
            s.fetch = .unwritten (s.pc.toNat + 1)) ∨
         (h.words ≠ 1 ∧ s.pc.toNat + 1 < cmdWords ∧
            ∃ ext, s.cmdMem.read? (s.pc.toNat + 1) = some ext ∧ s.fetch = .run (h.instr ext)))) := by
  unfold State.fetch
  by_cases hp : cmdWords ≤ s.pc.toNat
  · exact .inl ⟨if_pos hp, hp⟩
  rw [if_neg hp]
  cases hr : s.cmdMem.read? s.pc.toNat with
  | none => exact .inr (.inl ⟨rfl, by omega, rfl⟩)
  | some w =>
    refine .inr (.inr ⟨w, by omega, rfl, ?_⟩)
    cases hd : decodeHead w with
    | error e => exact .inl ⟨e, rfl, by simp only [hd]⟩
    | ok h =>
      refine .inr ⟨h, rfl, ?_⟩
      simp only [hd]
      by_cases h1 : h.words = 1
      · exact .inl ⟨h1, if_pos h1⟩
      rw [if_neg h1]
      by_cases h2 : cmdWords ≤ s.pc.toNat + 1
      · exact .inr (.inl ⟨h1, h2, if_pos h2⟩)
      rw [if_neg h2]
      cases hr2 : s.cmdMem.read? (s.pc.toNat + 1) with
      | none => exact .inr (.inr (.inl ⟨h1, by omega, rfl, rfl⟩))
      | some ext => exact .inr (.inr (.inr ⟨h1, by omega, ext, rfl, rfl⟩))

/-- The core's turn holds the state, takes a trap, commits a command's staged state, or refuses an unwritten word. -/
theorem coreStep_cases (s : State) :
    (s.busy = false ∧ coreStep s = .next s) ∨
    (s.busy = true ∧ ∃ c, c ≠ .none ∧ coreStep s = .next (s.trap c)) ∨
    (s.busy = true ∧ ∃ i v, Staged s i v ∧ s.pc.toNat + i.words ≤ cmdWords ∧ coreStep s = .next (v.advance i.words)) ∨
    (s.busy = true ∧ ∃ n, coreStep s = .refused (.unwrittenCommandWord n) ∧ n < cmdWords ∧ s.cmdMem.read? n = none ∧
      (n = s.pc.toNat ∨ n = s.pc.toNat + 1)) := by
  unfold coreStep
  cases hb : s.busy with
  | false => exact .inl ⟨rfl, rfl⟩
  | true =>
    refine .inr ?_
    simp only [if_true, true_and, sequencerStep]
    have run : ∀ i, s.pc.toNat + i.words ≤ cmdWords →
        (∃ c, c ≠ .none ∧ exec i s = .next (s.trap c)) ∨
        (∃ i' v, Staged s i' v ∧ s.pc.toNat + i'.words ≤ cmdWords ∧ exec i s = .next (v.advance i'.words)) := fun i hp =>
      (exec_cases i s).imp id fun ⟨v, hv, he⟩ => ⟨i, v, hv, hp, he⟩
    obtain ⟨hf, hp⟩ | ⟨hf, hp, hr⟩ | ⟨w, hp, hr, ⟨e, hd, hf⟩ | ⟨h, hd, ⟨h1, hf⟩ | ⟨h1, h2, hf⟩ | ⟨h1, h2, h3, hf⟩ | ⟨h1, h2, ext, h3, hf⟩⟩⟩ :=
      s.fetch_cases <;> simp only [hf]
    · exact .inl ⟨_, by decide, rfl⟩
    · exact .inr (.inr ⟨_, rfl, hp, hr, .inl rfl⟩)
    · exact .inl ⟨_, by decide, rfl⟩
    · exact (run _ (by have := (decodeHead_ok_words hd 0).1; omega)).imp id .inl
    · exact .inl ⟨_, by decide, rfl⟩
    · exact .inr (.inr ⟨_, rfl, h2, h3, .inr rfl⟩)
    · exact (run _ (by have := decodeHead_ok_words hd ext; omega)).imp id .inl

/-! ### Host events -/

/-- CTRL without SRST (R54): what is cleared, what is started, and the rest as before. -/
theorem State.writeCtrl_eq (s : State) (v : Word) (h : v.getLsbD 3 = false) :
    s.writeCtrl v =
      { s with
        ie := v.getLsbD 1
        busy := s.busy || (v.getLsbD 0 && !s.busy && !(s.fault && !(v.getLsbD 2 && !s.busy)))
        done := s.done && !(v.getLsbD 2 && !s.busy) &&
          !(v.getLsbD 0 && !s.busy && !(s.fault && !(v.getLsbD 2 && !s.busy)))
        fault := s.fault && !(v.getLsbD 2 && !s.busy)
        hwerr := (s.hwerr && !(v.getLsbD 2 && !s.busy)) || (v.getLsbD 2 && s.busy) ||
          (v.getLsbD 0 && !(v.getLsbD 0 && !s.busy && !(s.fault && !(v.getLsbD 2 && !s.busy))))
        faultCode := if v.getLsbD 2 && !s.busy then .none else s.faultCode
        faultPc := if v.getLsbD 2 && !s.busy then 0 else s.faultPc
        faultCmd := if v.getLsbD 2 && !s.busy then 0 else s.faultCmd } := by
  obtain ⟨cfg, regs, rings, flags, pc, ie, busy, done, fault, hwerr, fc, fp, fcmd, il, ib, cm, sc, ins, rs, dr, fr, ep⟩ := s
  unfold State.writeCtrl
  rw [h]
  cases v.getLsbD 2 <;> cases v.getLsbD 0 <;> cases busy <;> cases fault <;> simp [State.ctrlClear, State.ctrlStart, State.clearStatus, State.start, State.setHwerr]

/-- What a host event can do to the state `s` it is taken from (R54, R107 to R109, R450 to R452). -/
inductive HostEffect (s : State) : HostEvent → State → Prop
  | untouched (ev : HostEvent) : HostEffect s ev s
  | refused (ev : HostEvent) : HostEffect s ev s.setHwerr
  | answered (bytes addr : Nat) (w : Word) (n : Nat) (b : Bool) :
      HostEffect s (.read bytes addr) { s with responses := w :: s.responses, frees := n, hwerr := s.hwerr || b }
  | pcWritten (addr : Nat) (v : Word) (hb : s.busy = false) (ho : Config.windowOffset s.cfg addr = some 0x010) :
      HostEffect s (.write 4 addr v) { s with pc := BitVec.ofNat 11 v.toNat }
  | ioLenWritten (addr : Nat) (v : Word) (hb : s.busy = false) :
      HostEffect s (.write 4 addr v) { s with ioLen := BitVec.ofNat 16 v.toNat }
  | ioWritten (addr : Nat) (v : Word) (j : Nat) (hb : s.busy = false) (hj : 4 * j + 3 < s.ioBytes) :
      HostEffect s (.write 4 addr v) { s with ioBuf := s.ioBuf.writeList (4 * j) (wordBytes v) }
  | cmdWritten (addr : Nat) (v : Word) (i : Nat) (hb : s.busy = false) (hi : i < cmdWords) :
      HostEffect s (.write 4 addr v) { s with cmdMem := s.cmdMem.write i v }
  | ctrl (addr : Nat) (v : Word) (ho : Config.windowOffset s.cfg addr = some 0x004) (hv : v.getLsbD 3 = false) :
      HostEffect s (.write 4 addr v) (s.writeCtrl v)
  | softReset (addr : Nat) (v : Word) (ho : Config.windowOffset s.cfg addr = some 0x004) (hv : v.getLsbD 3 = true) :
      HostEffect s (.write 4 addr v) s.softReset
  | powerOn : HostEffect s .powerOn s.powerOnReset

/-- The window holds 8 KiB (R106). -/
theorem windowOffset_eq_some {c : Config} {addr off : Nat} :
    Config.windowOffset c addr = some off ↔ off < windowBytes ∧ addr = c.dhcBase + off := by
  unfold Config.windowOffset
  split
  · simp only [Option.some.injEq]; omega
  · simp only [reduceCtorEq, false_iff]; omega

/-- The small offsets of the map are registers, and no other (R106). -/
theorem mmioTarget_eq_ctrl {n off : Nat} (ho : off % 4 = 0) : mmioTarget n off = .ctrl ↔ off = 0x004 := by
  unfold mmioTarget
  split
  · next h =>
    have h4 : off / 4 < 12 := by omega
    obtain ⟨q, hq⟩ : ∃ q, off = 4 * q := ⟨off / 4, by omega⟩
    subst hq
    have : 4 * q / 4 = q := by omega
    rw [this] at h4 ⊢
    interval_cases q <;> simp
  · split_ifs <;> simp <;> omega


/-- Only offset 0x010 is PC (R106). -/
theorem mmioTarget_eq_pc {n off : Nat} (ho : off % 4 = 0) : mmioTarget n off = .pc ↔ off = 0x010 := by
  unfold mmioTarget
  split
  · next h =>
    have h4 : off / 4 < 12 := by omega
    obtain ⟨q, hq⟩ : ∃ q, off = 4 * q := ⟨off / 4, by omega⟩
    subst hq
    have : 4 * q / 4 = q := by omega
    rw [this] at h4 ⊢
    interval_cases q <;> simp
  · split_ifs <;> simp <;> omega

/-- An aligned IOBUF offset names a word that lies in IOBUF (R103, R106). -/
theorem mmioTarget_ioBuf_bound {n off j : Nat} (ho : off % 4 = 0) (hn : n % 4 = 0) (h : mmioTarget n off = .ioBuf j) :
    4 * j + 3 < n := by
  unfold mmioTarget at h
  split at h
  · next hlt =>
    have h4 : off / 4 < 12 := by omega
    interval_cases hq : off / 4 <;> simp at h
  · split_ifs at h
    all_goals simp at h
    omega

/-- An offset of the window names a CMDMEM word that exists (R105, R106). -/
theorem mmioTarget_cmdMem_bound {n off i : Nat} (ho : off < windowBytes) (h : mmioTarget n off = .cmdMem i) : i < cmdWords := by
  unfold windowBytes at ho
  unfold cmdWords
  unfold mmioTarget at h
  split at h
  · next hlt =>
    have h4 : off / 4 < 12 := by omega
    interval_cases hq : off / 4 <;> simp at h
  · split_ifs at h
    all_goals simp at h
    omega

/-- Every host event has one of the listed effects. -/
theorem hostEvent_effect (s : State) (ev : HostEvent) : HostEffect s ev (s.hostEvent ev) := by
  cases ev with
  | powerOn => exact .powerOn
  | noAccess => exact .untouched _
  | read bytes addr =>
    cases hw : Config.windowOffset s.cfg addr with
    | none => simp only [State.hostEvent, hw]; exact .untouched _
    | some off =>
      simp only [State.hostEvent, hw, State.readOffset]
      split
      · simpa [State.respondFree, State.setHwerr] using
          HostEffect.answered (s := s) bytes addr (Config.busRead s.frees) (s.frees + 1) true
      · split
        · simpa [State.respondFree] using
            HostEffect.answered (s := s) bytes addr (Config.busRead s.frees) (s.frees + 1) false
        · simpa [State.respond] using
            HostEffect.answered (s := s) bytes addr (s.mmioWord (mmioTarget s.ioBytes off)) s.frees false
  | write bytes addr v =>
    cases hw : Config.windowOffset s.cfg addr with
    | none => simp only [State.hostEvent, hw]; exact .untouched _
    | some off =>
      simp only [State.hostEvent, hw, State.writeOffset]
      split
      · exact .refused _
      next hok =>
      obtain ⟨rfl, ho⟩ : bytes = 4 ∧ off % 4 = 0 := by simpa [accessOk] using hok
      split
      · next hc =>
        rw [mmioTarget_eq_ctrl ho] at hc
        subst hc
        cases h3 : v.getLsbD 3 with
        | false => exact .ctrl addr v hw h3
        | true =>
          have : s.writeCtrl v = s.softReset := by unfold State.writeCtrl; rw [h3]; rfl
          rw [this]; exact .softReset addr v hw h3
      split
      · exact .refused _
      next hb =>
      have hb : s.busy = false := by simpa using hb
      cases ht : mmioTarget s.ioBytes off with
      | pc => exact .pcWritten addr v hb (by rw [hw, (mmioTarget_eq_pc ho).1 ht])
      | ioLen => exact .ioLenWritten addr v hb
      | ioBuf j => exact .ioWritten addr v j hb (mmioTarget_ioBuf_bound ho (by unfold State.ioBytes; omega) ht)
      | cmdMem i => exact .cmdWritten addr v i hb (mmioTarget_cmdMem_bound (windowOffset_eq_some.1 hw).1 ht)
      | _ => exact .untouched _

/-- A step is the core's turn, or a host event's effect on the state without it. -/
theorem step_cases (s : State) :
    (∃ u, State.CoreTurn s u ∧ step s = coreStep u) ∨
    (∃ ev rest t, s.inputs = ev :: rest ∧ ev ≠ .noAccess ∧ step s = .next t ∧ HostEffect { s with inputs := rest } ev t) := by
  cases hi : s.inputs with
  | nil => exact .inl ⟨s, .inl ⟨hi, rfl⟩, step_of_coreTurn (.inl ⟨hi, rfl⟩)⟩
  | cons ev rest =>
    cases ev with
    | noAccess =>
      have h : State.CoreTurn s { s with inputs := rest } := .inr ⟨rest, hi, rfl⟩
      exact .inl ⟨_, h, step_of_coreTurn h⟩
    | write bytes addr v =>
      exact .inr ⟨_, rest, _, rfl, nofun, by unfold step; rw [hi], hostEvent_effect { s with inputs := rest } (.write bytes addr v)⟩
    | read bytes addr =>
      exact .inr ⟨_, rest, _, rfl, nofun, by unfold step; rw [hi], hostEvent_effect { s with inputs := rest } (.read bytes addr)⟩
    | powerOn =>
      exact .inr ⟨_, rest, _, rfl, nofun, by unfold step; rw [hi], hostEvent_effect { s with inputs := rest } .powerOn⟩

/-- The next states of a step, in full: idle, a trap, a command's staged state, or a host event's effect. -/
theorem step_next_cases (h : step s = .next t) :
    (∃ u, State.CoreTurn s u ∧ s.busy = false ∧ t = u) ∨
    (∃ u c, State.CoreTurn s u ∧ s.busy = true ∧ c ≠ .none ∧ t = u.trap c) ∨
    (∃ u i v, State.CoreTurn s u ∧ s.busy = true ∧ Staged u i v ∧ u.pc.toNat + i.words ≤ cmdWords ∧ t = v.advance i.words) ∨
    (∃ ev rest, s.inputs = ev :: rest ∧ ev ≠ .noAccess ∧ HostEffect { s with inputs := rest } ev t) := by
  obtain ⟨u, hu, hs⟩ | ⟨ev, rest, t', hi, hev, hs, he⟩ := step_cases s <;> rw [hs] at h
  · have hb : u.busy = s.busy := by rw [hu.same]
    obtain ⟨hb', hc⟩ | ⟨hb', c, hc, hc'⟩ | ⟨hb', i, v, hv, hp, hc⟩ | ⟨hb', n, hc, -⟩ := coreStep_cases u <;> rw [‹coreStep u = _›] at h
    · injection h with h; exact .inl ⟨u, hu, hb ▸ hb', h.symm⟩
    · injection h with h; exact .inr (.inl ⟨u, c, hu, hb ▸ hb', hc, h.symm⟩)
    · injection h with h; exact .inr (.inr (.inl ⟨u, i, v, hu, hb ▸ hb', hv, hp, h.symm⟩))
    · cases h
  · injection h with h; subst h; exact .inr (.inr (.inr ⟨ev, rest, hi, hev, he⟩))

/-! ### Several steps -/

/-- A machine's run whose first step answers `y` goes on from `y`. -/
theorem coreRun_succ {M : Host.Core} {x y : M.State} (k : Nat) (h : M.step x = .next y) : M.run (k + 1) x = M.run k y := by
  rw [Host.Core.run, h]

/-- A run of DH-CORE whose first step answers `t` goes on from `t`. -/
theorem run_succ (k : Nat) (h : step s = .next t) : Host.Core.run core (k + 1) s = Host.Core.run core k t :=
  coreRun_succ (M := core) k h

/-- From a state that a step leaves as it is, any number of steps do. -/
theorem run_of_step_self (h : step s = .next s) (k : Nat) : Host.Core.run core k s = .next s := by
  induction k with
  | zero => rfl
  | succ k ih => rw [run_succ k h, ih]

end Sys2Proof.Machine
end

