-- ==== Sys2Proof/Laws/Invariant.lean ====
section
/-! SUPPORT. Each way a step can end keeps the machine's invariant: a staged state, trap entry, and each host event's effect. -/

namespace Sys2Proof.Machine

variable {s t u : State}

/-! ### Parts -/

/-- A written register is well formed when its value fits and its stale digits fill the rest (R42). -/
theorem Reg.ok_holding {maxw v x : Nat} (hv : v ≤ vmaxOf maxw) (hx : x < 2^(32 * (maxw - digitLen v))) :
    Reg.Ok maxw (Reg.holding v x) :=
  ⟨fun _ => rfl, hv, hx, nofun⟩

/-- A scrubbed register is well formed (R43, R450). -/
theorem Reg.ok_reset (maxw : Nat) : Reg.Ok maxw Reg.reset := ⟨nofun, Nat.zero_le _, Nat.two_pow_pos _, fun _ => rfl⟩

/-- The context RSET stores is well formed (R281). -/
theorem Ring.ok_ofModulus {maxw m : Nat} (hm : m ≠ 0) (hv : m ≤ vmaxOf maxw) : Ring.Ok maxw (Ring.ofModulus m) :=
  ⟨nofun, fun _ => rfl, fun _ => hm, hv⟩

/-- A cleared context is well formed (R282). -/
theorem Ring.ok_cleared (maxw : Nat) : Ring.Ok maxw Ring.cleared := ⟨fun _ => rfl, nofun, nofun, Nat.zero_le _⟩

/-- A comparison sets one flag (R50, R240). -/
theorem Flags.ok_compared (f : Flags) (a b : Nat) : (f.compared a b).ok := by
  simp only [Flags.ok, Flags.compared, decide_eq_true_eq]; omega

/-- A tested bit leaves the comparison alone (R50, R210). -/
theorem Flags.ok_tested {f : Flags} (h : f.ok) (a i : Nat) : (f.tested a i).ok := h

/-- Writing cells keeps a bound on the indexes. -/
theorem Memory.bound_writeList {w n a : Nat} {m : Memory w} {vs : List (BitVec w)} (h : ∀ c ∈ m, c.1 < n)
    (ha : a + vs.length ≤ n) : ∀ c ∈ m.writeList a vs, c.1 < n := by
  intro c hc
  obtain hc | hc := Memory.mem_writeList hc
  · omega
  · exact h c hc

/-- Writing one cell keeps a bound on the indexes. -/
theorem Memory.bound_write {w n a : Nat} {m : Memory w} {v : BitVec w} (h : ∀ c ∈ m, c.1 < n) (ha : a < n) :
    ∀ c ∈ m.write a v, c.1 < n :=
  Memory.bound_writeList (vs := [v]) h (by simpa using ha)

/-! ### Ends of a step -/

/-- The exported string fits IOBUF (R206). -/
theorem State.Inv.minBELen_le (h : s.Inv) (i : RegIdx) : (minBE s.regs[i].val).length ≤ s.ioBytes := by
  rw [minBE_length]
  exact Machine.minBELen_le (by have := h.config.1; omega) (le_vmaxOf_iff.1 (h.val_le i))

/-- A command that completes in a run keeps the invariant. -/
theorem Staged.inv_advance {i : Instr} (h : Staged s i u) (hs : s.Inv) (hb : s.busy = true) (n : Nat) : (u.advance n).Inv := by
  obtain ⟨-, -, hfault, hcode, hfpc, hfcmd, -⟩ := h.report
  have hcfg : u.cfg = s.cfg := h.outside.cfg
  have hcm : u.cmdMem = s.cmdMem := h.outside.cmdMem
  refine ⟨?_, ?_, ?_, ?_, ?_, ?_, ?_, ?_, ?_, ?_, ?_, ?_, rfl⟩ <;>
    simp only [State.advance_cfg, State.advance_regs, State.advance_rings, State.advance_flags, State.advance_ioBuf,
      State.advance_cmdMem, State.advance_busy, State.advance_done, State.advance_fault, State.advance_faultCode,
      State.advance_faultPc, State.advance_faultCmd]
  · rw [hcfg]; exact hs.config
  · intro j
    obtain hj | ⟨v, x, hj, hx, hv⟩ := h.reg j <;> rw [hj, hcfg]
    · exact hs.regs j
    · exact Reg.ok_holding (hv hs) hx
  · intro r
    obtain hr | ⟨ra, -, hr, hm, hv⟩ | ⟨-, hr⟩ := h.ring r <;> rw [hr, hcfg]
    · exact hs.rings r
    · exact Ring.ok_ofModulus hm (hv hs)
    · exact Ring.ok_cleared _
  · obtain hf | ⟨_, _, a, b, -, hf⟩ | ⟨_, _, a, -, hf⟩ := h.flags <;> rw [hf]
    · exact hs.flags
    · exact Flags.ok_compared _ a b
    · exact Flags.ok_tested hs.flags a _
  · obtain ⟨hio, -⟩ | ⟨ra, -, -, rfl⟩ := h.io
    · rw [hio]; exact hs.ioWf
    · exact Memory.wf_writeList hs.ioWf _ _
  · change ∀ c ∈ u.ioBuf, c.1 < 4 * u.cfg.maxw
    rw [hcfg]
    obtain ⟨hio, -⟩ | ⟨ra, -, -, rfl⟩ := h.io
    · rw [hio]; exact hs.ioBound
    · exact Memory.bound_writeList hs.ioBound (by have := hs.minBELen_le ra; unfold State.ioBytes at this; omega)
  · rw [hcm]; exact hs.cmdWf
  · rw [hcm]; exact hs.cmdBound
  · obtain ⟨-, rfl⟩ | ⟨-, hb', hd⟩ := h.run
    · nofun
    · rw [hb', hd, hfault]; exact hs.running
  · obtain ⟨-, rfl⟩ | ⟨-, hb', hd⟩ := h.run
    · rw [hfault, (hs.running hb).2]; nofun
    · rw [hd, hfault]; exact hs.oneCause
  · rw [hfault, hcode]; exact hs.faultCode
  · rw [hfault, hfpc, hfcmd]; exact hs.faultRegs

/-- Trap entry keeps the invariant. -/
theorem State.inv_trap (hs : s.Inv) {c : FaultCode} (hc : c ≠ .none) : (s.trap c).Inv where
  config := hs.config
  regs := hs.regs
  rings := hs.rings
  flags := hs.flags
  ioWf := hs.ioWf
  ioBound := hs.ioBound
  cmdWf := hs.cmdWf
  cmdBound := hs.cmdBound
  running := nofun
  oneCause := fun h => by cases h.1
  faultCode := ⟨fun _ => hc, fun _ => rfl⟩
  faultRegs := nofun
  scratch := rfl

/-- The host's and the model's own fields take no part in the invariant. -/
theorem State.inv_withInputs (hs : s.Inv) (ins : List HostEvent) : ({ s with inputs := ins } : State).Inv :=
  ⟨hs.config, hs.regs, hs.rings, hs.flags, hs.ioWf, hs.ioBound, hs.cmdWf, hs.cmdBound, hs.running, hs.oneCause,
    hs.faultCode, hs.faultRegs, hs.scratch⟩

/-- Both resets leave the invariant, for legal build parameters. -/
theorem State.inv_softReset (hs : s.Inv) : s.softReset.Inv where
  config := hs.config
  regs := fun i => by
    have : s.softReset.regs[i] = Reg.reset := by simp [State.softReset, State.reset]
    rw [this]; exact Reg.ok_reset _
  rings := fun r => by
    have : s.softReset.rings[r] = Ring.cleared := by simp [State.softReset, State.reset]
    rw [this]; exact Ring.ok_cleared _
  flags := by change Flags.ok { lt := false, eq := false, gt := false, bit := false }; decide
  ioWf := hs.ioWf
  ioBound := hs.ioBound
  cmdWf := hs.cmdWf
  cmdBound := hs.cmdBound
  running := nofun
  oneCause := fun h => by cases h.1
  faultCode := ⟨nofun, fun h => absurd rfl h⟩
  faultRegs := fun _ => ⟨rfl, rfl⟩
  scratch := rfl

theorem State.inv_powerOnReset (hs : s.Inv) : s.powerOnReset.Inv :=
  let h := State.inv_softReset hs
  ⟨h.config, h.regs, h.rings, h.flags, List.Pairwise.nil, nofun, List.Pairwise.nil, nofun, h.running, h.oneCause, h.faultCode,
    h.faultRegs, h.scratch⟩

/-- A CTRL write without SRST keeps the invariant (R54). -/
theorem State.inv_writeCtrl (hs : s.Inv) {v : Word} (hv : v.getLsbD 3 = false) : (s.writeCtrl v).Inv := by
  have h1 := hs.running
  have h2 := hs.oneCause
  have h3 := hs.faultCode
  have h4 := hs.faultRegs
  rw [State.writeCtrl_eq s v hv]
  refine ⟨hs.config, hs.regs, hs.rings, hs.flags, hs.ioWf, hs.ioBound, hs.cmdWf, hs.cmdBound, ?_, ?_, ?_, ?_, hs.scratch⟩ <;>
    dsimp only <;> revert h1 h2 h3 h4 <;>
    cases v.getLsbD 2 <;> cases v.getLsbD 0 <;> cases s.busy <;> cases s.done <;> cases s.fault <;> simp +contextual

/-- Every host event's effect keeps the invariant. -/
theorem HostEffect.inv {ev : HostEvent} (h : HostEffect s ev t) (hs : s.Inv) : t.Inv := by
  cases h with
  | untouched => exact hs
  | refused | answered | pcWritten | ioLenWritten =>
    exact ⟨hs.config, hs.regs, hs.rings, hs.flags, hs.ioWf, hs.ioBound, hs.cmdWf, hs.cmdBound, hs.running, hs.oneCause,
      hs.faultCode, hs.faultRegs, hs.scratch⟩
  | ioWritten addr v j hb hj =>
    exact ⟨hs.config, hs.regs, hs.rings, hs.flags, Memory.wf_writeList hs.ioWf _ _,
      Memory.bound_writeList hs.ioBound (show 4 * j + 4 ≤ s.ioBytes by omega), hs.cmdWf,
      hs.cmdBound, hs.running, hs.oneCause, hs.faultCode, hs.faultRegs, hs.scratch⟩
  | cmdWritten addr v i hb hi =>
    exact ⟨hs.config, hs.regs, hs.rings, hs.flags, hs.ioWf, hs.ioBound, Memory.wf_write hs.cmdWf _ _,
      Memory.bound_write hs.cmdBound hi, hs.running, hs.oneCause, hs.faultCode, hs.faultRegs, hs.scratch⟩
  | ctrl addr v ho hv => exact State.inv_writeCtrl hs hv
  | softReset => exact State.inv_softReset hs
  | powerOn => exact State.inv_powerOnReset hs

end Sys2Proof.Machine
end

