-- ==== Sys2Proof/Laws/PerInstr.lean ====
section
/-! SUPPORT. Laws stated of every command as syntax, one lemma per constructor. -/

namespace Sys2Proof.Laws.EncodedLength

/-- A command encodes to as many words as its format has (30_encoding.md R140, R143). -/
def Statement (i : Instr) : Prop := (encode i).length = i.words

theorem nop : Statement (.nop) := rfl
theorem halt : Statement (.halt) := rfl
theorem mov (rd ra : RegIdx) : Statement (.mov rd ra) := rfl
theorem zero (rd : RegIdx) : Statement (.zero rd) := rfl
theorem ldi (rd : RegIdx) (imm : Word) : Statement (.ldi rd imm) := rfl
theorem ldb (rd : RegIdx) : Statement (.ldb rd) := rfl
theorem stb (ra : RegIdx) : Statement (.stb ra) := rfl
theorem rand (rd : RegIdx) (imm : Word) : Statement (.rand rd imm) := rfl
theorem bitset (rd : RegIdx) (imm : Word) : Statement (.bitset rd imm) := rfl
theorem bitclr (rd : RegIdx) (imm : Word) : Statement (.bitclr rd imm) := rfl
theorem bittest (ra : RegIdx) (imm : Word) : Statement (.bittest ra imm) := rfl
theorem bitlen (rd ra : RegIdx) : Statement (.bitlen rd ra) := rfl
theorem inc2 (rd : RegIdx) : Statement (.inc2 rd) := rfl
theorem cmp (ra rb : RegIdx) : Statement (.cmp ra rb) := rfl
theorem add (rd ra rb : RegIdx) : Statement (.add rd ra rb) := rfl
theorem sub (rd ra rb : RegIdx) : Statement (.sub rd ra rb) := rfl
theorem mul (rd ra rb : RegIdx) : Statement (.mul rd ra rb) := rfl
theorem sqr (rd ra : RegIdx) : Statement (.sqr rd ra) := rfl
theorem mulw (rd ra : RegIdx) (imm : Word) : Statement (.mulw rd ra imm) := rfl
theorem shl (rd ra : RegIdx) (imm : Word) : Statement (.shl rd ra imm) := rfl
theorem shr (rd ra : RegIdx) (imm : Word) : Statement (.shr rd ra imm) := rfl
theorem divrem (rd re ra rb : RegIdx) : Statement (.divrem rd re ra rb) := rfl
theorem rset (rg : RingIdx) (ra : RegIdx) : Statement (.rset rg ra) := rfl
theorem rclr (rg : RingIdx) : Statement (.rclr rg) := rfl
theorem rred (rd ra : RegIdx) (rg : RingIdx) : Statement (.rred rd ra rg) := rfl
theorem rmul (rd ra rb : RegIdx) (rg : RingIdx) : Statement (.rmul rd ra rb rg) := rfl
theorem rdiff (rd ra rb : RegIdx) (rg : RingIdx) : Statement (.rdiff rd ra rb rg) := rfl
theorem rpow (rd ra rb : RegIdx) (rg : RingIdx) : Statement (.rpow rd ra rb rg) := rfl
theorem rpowi (rd : RegIdx) (imm : Word) (rb : RegIdx) (rg : RingIdx) : Statement (.rpowi rd imm rb rg) := rfl
theorem rtom (rd ra : RegIdx) (rg : RingIdx) : Statement (.rtom rd ra rg) := rfl
theorem rfromm (rd ra : RegIdx) (rg : RingIdx) : Statement (.rfromm rd ra rg) := rfl
theorem rmmul (rd ra rb : RegIdx) (rg : RingIdx) : Statement (.rmmul rd ra rb rg) := rfl

end Sys2Proof.Laws.EncodedLength
end

