-- ==== Sys2Proof/Tests/Slice0.lean ====
section
/-! SUPPORT. Tests of the model against values from the spec, and a state and operands that meet the hypotheses of each statement.
Expected values and words come from 95_test_vectors.md, 30_encoding.md R146 and R152, or from the cited rule by hand. -/

namespace Sys2Proof.Tests

open Sys2Proof Sys2Proof.Machine

-- Each test waits for the kernel; elaborating them one after another keeps the number of waiting threads down.
set_option Elab.async false

/-! ### Small states -/

/-- Register `i` holds `v`. -/
def withReg (s : State) (i : RegIdx) (v : Nat) : State := { s with regs := s.regs.set i (Reg.holding v 0) }

/-- Ring `r` is set up for `m`. -/
def withRing (s : State) (r : RingIdx) (m : Nat) : State := { s with rings := s.rings.set r (Ring.ofModulus m) }

/-- A run is in progress at `pc`, with the given words there in CMDMEM. -/
def running (s : State) (pc : Nat) (words : List Word) : State :=
  { s with busy := true, pc := BitVec.ofNat 11 pc, cmdMem := s.cmdMem.writeList pc words }

/-- A build with two digits, so that VMAX is 2^64 - 1 and IOBUF has 8 bytes. B0 to B7 and B10 are written and the other
registers are not; R0 and R3 are odd, R1 is even and R2 is not set; IOLEN is 8. -/
def demo : State :=
  let s : State := { State.reset with cfg := { maxw := 2, dhcBase := 0 }, ioLen := 8, busy := true }
  let s := withReg (withReg (withReg (withReg s 0 0) 1 5) 2 9) 3 (2^64 - 1)
  let s := withReg (withReg (withReg (withReg s 4 (2^64 - 3)) 5 (2^64 - 2)) 6 (2^32)) 7 (2^32 - 1)
  withRing (withRing (withRing (withReg s 10 1) 0 497) 1 8) 3 1

/-- The default build, idle after a run, with a host event waiting. -/
def idle (ev : HostEvent) : State := { State.reset with inputs := [ev] }

/-- The same while a run is in progress. -/
def busy (ev : HostEvent) : State := { State.reset with inputs := [ev], busy := true }

/-- CMDMEM with every word written. -/
def fullCmdMem : Memory 32 := (List.range' 0 1024).map fun i => (i, 0)

/-- The value and length of a register after an outcome; nothing unless it is a next state. -/
def regAfter (o : Host.Outcome State Fault Refusal) (i : RegIdx) : Option (Nat × Nat) :=
  match o with
  | .next t => if t.regs[i].wr then some (t.regs[i].val, t.regs[i].len) else none
  | _ => none

/-- FAULTCODE after an outcome. -/
def faultAfter (o : Host.Outcome State Fault Refusal) : Option FaultCode :=
  match o with
  | .next t => if t.fault then some t.faultCode else none
  | _ => none

/-- FLAGS, as the host reads it, after an outcome. -/
def flagsAfter (o : Host.Outcome State Fault Refusal) : Option Nat :=
  match o with
  | .next t => some t.flagsWord.toNat
  | _ => none

/-! ### WellFormed: the one ill-formed shape is refused (30_encoding.md R148) -/

theorem test_wellFormed_refuses_divrem_same_destinations : (Instr.divrem 6 6 0 1).wellFormed = false := by decide
theorem test_wellFormed_accepts_divrem : (Instr.divrem 2 3 0 1).wellFormed = true := by decide

/-! ### Decoding words written out from the spec: every constructor -/

theorem test_decode_control :
    decode 0x00000000 0 = .ok .nop ∧ decode 0x04000000 0 = .ok .halt := by decide

theorem test_decode_register_file :
    decode 0x08840000 0 = .ok (.mov 2 1) ∧ decode 0x0CC00000 0 = .ok (.zero 3) ∧
    decode 0x10400000 0xFFFFFFFF = .ok (.ldi 1 0xFFFFFFFF) ∧ decode 0x14000000 0 = .ok (.ldb 0) ∧
    decode 0x18180000 0 = .ok (.stb 6) ∧ decode 0x1C800000 8 = .ok (.rand 2 8) ∧
    decode 0x20400000 0x20 = .ok (.bitset 1 32) ∧ decode 0x24400000 0x000186A0 = .ok (.bitclr 1 100000) ∧
    decode 0x28000000 2 = .ok (.bittest 0 2) ∧ decode 0x2C400000 0 = .ok (.bitlen 1 0) ∧
    decode 0x31400000 0 = .ok (.inc2 5) := by decide

theorem test_decode_kernel :
    decode 0x40004000 0 = .ok (.cmp 0 1) ∧ decode 0x44804000 0 = .ok (.add 2 0 1) ∧ decode 0x48804000 0 = .ok (.sub 2 0 1) ∧
    decode 0x4C804000 0 = .ok (.mul 2 0 1) ∧ decode 0x50400000 0 = .ok (.sqr 1 0) ∧
    decode 0x54400000 0x7FFFFFFF = .ok (.mulw 1 0 0x7FFFFFFF) ∧ decode 0x58400000 0x1F = .ok (.shl 1 0 31) ∧
    decode 0x5C400000 1 = .ok (.shr 1 0 1) ∧ decode 0x60804300 0 = .ok (.divrem 2 3 0 1) := by decide

theorem test_decode_ring :
    decode 0x80243000 0 = .ok (.rset 3 9) ∧ decode 0x84003000 0 = .ok (.rclr 3) ∧ decode 0x89941000 0 = .ok (.rred 6 5 1) ∧
    decode 0x8DC4A000 0 = .ok (.rmul 7 1 2 2) ∧ decode 0x9204A000 0 = .ok (.rdiff 8 1 2 2) ∧
    decode 0x95D0C000 0 = .ok (.rpow 7 4 3 0) ∧ decode 0x98C09000 3 = .ok (.rpowi 3 3 2 1) ∧
    decode 0x9E843000 0 = .ok (.rtom 10 1 3) ∧ decode 0xA1942000 0 = .ok (.rfromm 6 5 2) ∧
    decode 0xA54D2000 0 = .ok (.rmmul 5 3 4 2) := by decide

theorem test_decode_refuses_illegal_words :
    decode 0x04000001 0 = .error .reservedBits ∧ decode 0x00000001 0 = .error .reservedBits ∧
    decode 0x34000000 0 = .error .reservedOpcode ∧ decode 0xFC000000 0 = .error .reservedOpcode ∧
    decode 0x44001000 0 = .error .unusedField ∧ decode 0x0840C000 0 = .error .unusedField ∧
    decode 0x18400000 0 = .error .unusedField ∧ decode 0x61804600 0 = .error .sameDestinations := by decide

theorem test_decodeTableWord_takes_the_extension_from_the_high_bits :
    decodeTableWord 64 0x000000209900B000 = some (.rpowi 4 0x20 2 3) ∧ decodeTableWord 32 0xFC000000 = none := by decide

theorem test_encode_pseudo_instruction_words :
    assembleLine "loop: sqr B1, B0 ; comment" = some [0x50400000] ∧
    assembleLine ".word 0xFFFFFFFF" = some [0xFFFFFFFF] ∧
    assembleLine "ADD B2, B0" = none ∧ assembleLine "" = some [] := by decide

/-! ### One command each -/

theorem test_nop_moves_past_one_word : (∃ t, exec .nop demo = .next t ∧ t.pc = 1 ∧ t.busy = true) := ⟨_, rfl, rfl, rfl⟩

theorem test_halt_ends_the_run : (∃ t, exec .halt demo = .next t ∧ t.busy = false ∧ t.done = true ∧ t.pc = 1) :=
  ⟨_, rfl, rfl, rfl, rfl⟩

theorem test_mov_copies : regAfter (exec (.mov 9 6) demo) 9 = some (0x100000000, 2) := by decide +kernel
theorem test_mov_unwritten_source : faultAfter (exec (.mov 9 8) demo) = some .unwrittenRegister := by decide +kernel
theorem test_zero_has_length_one : regAfter (exec (.zero 3) demo) 3 = some (0, 1) := by decide +kernel
theorem test_ldi_is_unsigned : regAfter (exec (.ldi 1 0xFFFFFFFF) demo) 1 = some (0xFFFFFFFF, 1) := by decide +kernel

theorem test_ldb_is_big_endian :
    regAfter (exec (.ldb 0) { demo with ioLen := 4, ioBuf := [(0, 0), (1, 0), (2, 1), (3, 2)] }) 0 = some (0x102, 1) := by
  decide +kernel
theorem test_ldb_beyond_iobytes : faultAfter (exec (.ldb 0) { demo with ioLen := 9 }) = some .byteCount := by decide +kernel

theorem test_stb_is_minimal_big_endian :
    (∃ t, exec (.stb 6) demo = .next t ∧ t.ioLen = 5 ∧ t.ioString 5 = [1, 0, 0, 0, 0]) := ⟨_, rfl, by decide +kernel⟩
theorem test_stb_keeps_bytes_above :
    (∃ t, exec (.stb 1) { withReg demo 1 0x80 with ioBuf := [(0, 0x11), (1, 0x22), (2, 0x33)] } = .next t ∧ t.ioLen = 1 ∧
      t.ioString 3 = [0x80, 0x22, 0x33]) := ⟨_, rfl, by decide +kernel⟩

theorem test_rand_of_zero_bits : regAfter (exec (.rand 2 0) demo) 2 = some (0, 1) := by decide +kernel
theorem test_rand_beyond_capacity : faultAfter (exec (.rand 2 8193) State.reset) = some .bitCount := by decide +kernel
theorem test_bitset_grows_the_length : regAfter (exec (.bitset 1 32) (withReg demo 1 0x10)) 1 = some (0x100000010, 2) := by
  decide +kernel
theorem test_bitset_unwritten_before_index : faultAfter (exec (.bitset 8 8192) demo) = some .unwrittenRegister := by decide +kernel
theorem test_bitclr_shrinks_the_length :
    regAfter (exec (.bitclr 1 32) (withReg demo 1 0x100000010)) 1 = some (0x10, 1) := by decide +kernel
theorem test_bitclr_any_index : regAfter (exec (.bitclr 1 100000) (withReg demo 1 0x10)) 1 = some (0x10, 1) := by decide +kernel
theorem test_bittest_keeps_the_comparison :
    flagsAfter (exec (.bittest 0 2) { withReg demo 0 0x55 with flags := ⟨false, true, false, false⟩ }) = some 0xA := by
  decide +kernel
theorem test_bittest_huge_index : flagsAfter (exec (.bittest 0 0xFFFFFFFF) (withReg demo 0 0x55)) = some 0 := by decide +kernel
theorem test_bitlen : regAfter (exec (.bitlen 1 6) demo) 1 = some (33, 1) := by decide +kernel
theorem test_inc2_carries : regAfter (exec (.inc2 7) demo) 7 = some (0x100000001, 2) := by decide +kernel
theorem test_inc2_overflows : faultAfter (exec (.inc2 5) demo) = some .capacityOverflow := by decide +kernel

theorem test_cmp_greater :
    flagsAfter (exec (.cmp 6 7) { demo with flags := ⟨true, false, false, true⟩ }) = some 0xC := by decide +kernel
theorem test_cmp_top_digit_decides :
    flagsAfter (exec (.cmp 0 1) (withReg (withReg demo 0 0x200000001) 1 0x1FFFFFFFF)) = some 4 := by decide +kernel
theorem test_add_carries : regAfter (exec (.add 2 7 1) (withReg demo 1 1)) 2 = some (0x100000000, 2) := by decide +kernel
theorem test_add_overflows : faultAfter (exec (.add 2 3 1) demo) = some .capacityOverflow := by decide +kernel
theorem test_sub_shrinks_the_length :
    regAfter (exec (.sub 2 0 1) (withReg (withReg State.reset 0 (2^96)) 1 (2^96 - 1))) 2 = some (1, 1) := by decide +kernel
theorem test_sub_negative : faultAfter (exec (.sub 9 1 2) demo) = some .negativeDifference := by decide +kernel
theorem test_mul_two_digits : regAfter (exec (.mul 2 7 7) demo) 2 = some (0xFFFFFFFE00000001, 2) := by decide +kernel
theorem test_mul_overflows :
    faultAfter (exec (.mul 2 0 0) (withReg State.reset 0 (2^4096))) = some .capacityOverflow := by decide +kernel
theorem test_sqr : regAfter (exec (.sqr 1 7) demo) 1 = some (0xFFFFFFFE00000001, 2) := by decide +kernel
theorem test_mulw : regAfter (exec (.mulw 1 0 0x7FFFFFFF) (withReg demo 0 7)) 1 = some (0x37FFFFFF9, 2) := by decide +kernel
theorem test_mulw_negative : faultAfter (exec (.mulw 1 1 0xFFFFFFFF) demo) = some .negativeMultiplier := by decide +kernel
theorem test_shl_crosses_a_digit : regAfter (exec (.shl 1 7 4) demo) 1 = some (0xFFFFFFFF0, 2) := by decide +kernel
theorem test_shl_of_zero_never_overflows : regAfter (exec (.shl 1 0 100000) demo) 1 = some (0, 1) := by decide +kernel
theorem test_shr : regAfter (exec (.shr 1 3 36) demo) 1 = some (0xFFFFFFF, 1) := by decide +kernel
theorem test_shr_negative : faultAfter (exec (.shr 1 1 0x80000000) demo) = some .negativeShift := by decide +kernel
theorem test_divrem_reads_before_writing :
    regAfter (exec (.divrem 0 1 0 1) (withReg (withReg demo 0 17) 1 5)) 0 = some (3, 1) ∧
    regAfter (exec (.divrem 0 1 0 1) (withReg (withReg demo 0 17) 1 5)) 1 = some (2, 1) := by decide +kernel
theorem test_divrem_by_zero : faultAfter (exec (.divrem 9 10 1 0) demo) = some .divideByZero := by decide +kernel

theorem test_rset_497 :
    (∃ t, exec (.rset 2 1) (withReg demo 1 497) = .next t ∧
      t.rings[2] = { valid := true, m := 497, k := 1, mu := 0x83DCF94DC7570C, odd := true, minv := 0x28B130EF }) :=
  ⟨_, rfl, by decide +kernel⟩
theorem test_rset_power_of_the_radix :
    (∃ t, exec (.rset 0 6) demo = .next t ∧
      t.rings[0] = { valid := true, m := 2^32, k := 2, mu := 2^96, odd := false, minv := 0 }) := ⟨_, rfl, by decide +kernel⟩
theorem test_rclr_scrubs : (∃ t, exec (.rclr 0) demo = .next t ∧ t.rings[0] = Ring.cleared) := ⟨_, rfl, by decide +kernel⟩
theorem test_rred_barrett : regAfter (exec (.rred 1 0 0) (withReg demo 0 1000)) 1 = some (6, 1) := by decide +kernel
theorem test_rred_division : regAfter (exec (.rred 1 0 0) (withReg demo 0 (2^96 + 5))) 1 = some (237, 1) := by decide +kernel
theorem test_rmul_prereduces :
    regAfter (exec (.rmul 3 1 2 0) (withReg (withReg demo 1 (2^96 + 5)) 2 (2^64 + 3))) 3 = some (170, 1) := by decide +kernel
theorem test_rdiff_literal_modulus :
    regAfter (exec (.rdiff 3 1 2 0) (withRing (withReg (withReg demo 1 3) 2 10) 0 7)) 3 = some (7, 1) := by decide +kernel
theorem test_rdiff_wraps :
    regAfter (exec (.rdiff 3 1 2 0) (withRing (withReg (withReg demo 1 3) 2 5) 0 7)) 3 = some (5, 1) := by decide +kernel
theorem test_rpow_odd : regAfter (exec (.rpow 3 1 2 0) (withReg (withReg demo 1 4) 2 13)) 3 = some (445, 1) := by decide +kernel
theorem test_rpow_even :
    regAfter (exec (.rpow 3 1 2 0) (withRing (withReg (withReg demo 1 4) 2 13) 0 498)) 3 = some (376, 1) := by decide +kernel
theorem test_rpowi_doubling :
    regAfter (exec (.rpowi 3 2 1 0) (withRing (withReg demo 1 85) 0 341)) 3 = some (32, 1) := by decide +kernel
theorem test_rpowi_small_base :
    regAfter (exec (.rpowi 3 5 1 0) (withRing (withReg demo 1 6) 0 23)) 3 = some (8, 1) := by decide +kernel
theorem test_rtom : regAfter (exec (.rtom 9 1 0) demo) 9 = some (258, 1) := by decide +kernel
theorem test_rtom_even_modulus : faultAfter (exec (.rtom 9 1 1) demo) = some .evenModulus := by decide +kernel
theorem test_rfromm : regAfter (exec (.rfromm 9 1 0) (withReg demo 1 258)) 9 = some (5, 1) := by decide +kernel
theorem test_rmmul : regAfter (exec (.rmmul 3 1 2 0) (withReg (withReg demo 1 123) 2 456)) 3 = some (197, 1) := by decide +kernel
theorem test_rmmul_final_subtraction :
    regAfter (exec (.rmmul 3 1 2 0) (withReg (withReg demo 1 406) 2 426)) 3 = some (0, 1) := by decide +kernel

/-! ### Datapaths, with the corner paths of 95_test_vectors.md section 3.5 -/

theorem test_divider_two_estimate_decrements :
    divider (2^96) 0x100000001 = (0xFFFFFFFF00000000, 0x100000000) := by decide +kernel
theorem test_divider_add_back :
    divider 0x7FFFFFFF800000000000000000000000 0x800000000000000000000001 = (0xFFFFFFFE, 0x7FFFFFFFFFFFFFFF00000002) := by
  decide +kernel
theorem test_redc_final_subtraction : (Ring.ofModulus 497).redc 172956 = 0 ∧ (Ring.ofModulus 497).redc 56088 = 197 := by
  decide +kernel

/-! ### Steps -/

theorem test_step_runs_the_fetched_command :
    regAfter (step (running State.reset 0 [0x10400000, 0xFFFFFFFF])) 1 = some (0xFFFFFFFF, 1) := by decide +kernel
theorem test_step_overruns_at_the_first_word : faultAfter (step (running State.reset 2047 [])) = some .commandOverrun := by
  decide +kernel
theorem test_step_overruns_at_the_extension_word :
    faultAfter (step (running State.reset 1023 [0x10400000])) = some .commandOverrun := by decide +kernel
theorem test_step_illegal_before_overrun :
    faultAfter (step (running State.reset 1023 [0x10440000])) = some .illegalCommand := by decide +kernel
theorem test_step_halts_in_the_last_word :
    (∃ t, step (running State.reset 1023 [0x04000000]) = .next t ∧ t.done = true ∧ t.pc = 1024) := ⟨_, rfl, by decide +kernel⟩
theorem test_step_refuses_an_unwritten_word : step (running State.reset 5 []) = .refused (.unwrittenCommandWord 5) := rfl
theorem test_step_idle_holds_everything : step State.reset = .next State.reset := rfl

theorem test_step_start_while_faulted_is_refused :
    (∃ t, step { idle (.write 4 4 1) with fault := true, faultCode := .commandOverrun } = .next t ∧
      t.statusWord = 0xC ∧ t.busy = false) := ⟨_, rfl, by decide +kernel⟩
theorem test_step_clear_while_busy_is_refused :
    (∃ t, step (busy (.write 4 4 4)) = .next t ∧ t.hwerr = true ∧ t.busy = true) := ⟨_, rfl, by decide +kernel⟩
theorem test_step_byte_access_is_refused :
    (∃ t, step (idle (.write 1 0x800 1)) = .next t ∧ t.hwerr = true ∧ t.ioBuf = []) := ⟨_, rfl, by decide +kernel⟩
theorem test_step_iobuf_write_is_big_endian :
    (∃ t, step (idle (.write 4 0x800 0x01020304)) = .next t ∧ t.ioString 4 = [1, 2, 3, 4]) := ⟨_, rfl, by decide +kernel⟩
theorem test_step_reads_id : (∃ t, step (idle (.read 4 0)) = .next t ∧ t.responses = [0x44480007]) := ⟨_, rfl, by decide +kernel⟩
theorem test_step_soft_reset_ends_the_run :
    (∃ t, step { busy (.write 4 4 8) with cmdMem := [(3, 7)], ie := true } = .next t ∧ t.busy = false ∧ t.ie = false ∧
      t.cmdMem = [(3, 7)]) := ⟨_, rfl, by decide +kernel⟩

theorem test_withFetchWord_runs_the_command_next :
    regAfter (step (State.reset.withFetchWord 64 0x0000000710400000)) 1 = some (7, 1) := by decide +kernel
theorem test_withFetchWord_after_a_fault :
    (∃ t, step (State.withFetchWord { State.reset with fault := true, faultCode := .divideByZero, pc := 1024 } 32 0) = .next t ∧
      t.pc = 1 ∧ t.busy = true) := ⟨_, rfl, by decide +kernel⟩

/-! ### The invariant holds of states that the statements speak of -/

theorem demo_inv : demo.Inv where
  config := by decide
  regs := by
    have h : ∀ i : RegIdx, (demo.regs[i].wr = true → demo.regs[i].len = digitLen demo.regs[i].val) ∧
        demo.regs[i].val ≤ vmaxOf 2 ∧ demo.regs[i].stale < 2^(32 * (2 - demo.regs[i].len)) ∧
        (demo.regs[i].wr = false → demo.regs[i] = Reg.reset) := by decide +kernel
    exact fun i => ⟨(h i).1, (h i).2.1, (h i).2.2.1, (h i).2.2.2⟩
  rings := by
    have h : ∀ r : RingIdx, (demo.rings[r].valid = false → demo.rings[r] = Ring.cleared) ∧
        (demo.rings[r].valid = true → demo.rings[r] = Ring.ofModulus demo.rings[r].m) ∧
        (demo.rings[r].valid = true → demo.rings[r].m ≠ 0) ∧ demo.rings[r].m ≤ vmaxOf 2 := by decide +kernel
    exact fun r => ⟨(h r).1, (h r).2.1, (h r).2.2.1, (h r).2.2.2⟩
  flags := by decide
  ioWf := by decide
  ioBound := by decide
  cmdWf := by decide
  cmdBound := by decide
  running := by decide
  oneCause := by decide
  faultCode := by decide
  faultRegs := by decide
  scratch := rfl

theorem fullCmdMem_read? (start n a : Nat) (h1 : start ≤ a) (h2 : a < start + n) :
    Memory.read? ((List.range' start n).map fun i => (i, (0 : Word))) a = some 0 := by
  induction n generalizing start with
  | zero => omega
  | succ n ih =>
    rw [List.range'_succ, List.map_cons]
    unfold Memory.read?
    split
    · rfl
    · exact ih (start + 1) (by omega) (by omega)

theorem fullCmdMem_written : ∀ index < cmdWords, ∃ w, fullCmdMem.read? index = some w :=
  fun index h => ⟨0, fullCmdMem_read? 0 1024 index (Nat.zero_le _) (by simpa using h)⟩

/-- A run about to start in a CMDMEM full of NOPs. -/
def fullRun : State := { demo with cmdMem := fullCmdMem }

theorem fullRun_inv : fullRun.Inv :=
  { demo_inv with
    cmdWf := List.pairwise_map.2 (List.pairwise_lt_range' (s := 0) (n := 1024))
    cmdBound := by
      intro c hc
      obtain ⟨i, hi, rfl⟩ := List.mem_map.1 hc
      simpa using List.mem_range'_1.1 hi }

/-! ### Witnesses: each statement's hypotheses are met, clause by clause, at boundary values -/

theorem demo_coreTurn : State.CoreTurn demo demo := .inl ⟨rfl, rfl⟩

theorem noAccess_coreTurn : State.CoreTurn (busy .noAccess) { busy .noAccess with inputs := [] } := .inr ⟨[], rfl, rfl⟩

theorem ctrlNext_idle (v : Word) : State.CtrlNext (idle (.write 4 4 v)) v := ⟨4, rfl, rfl⟩

theorem ctrlNext_busy (v : Word) : State.CtrlNext (busy (.write 4 4 v)) v := ⟨4, rfl, rfl⟩

theorem resetNext_powerOn : State.ResetNext (busy .powerOn) := .inl rfl

theorem resetNext_softReset : State.ResetNext (busy (.write 4 4 8)) := .inr ⟨8, ctrlNext_busy 8, by decide⟩

theorem witness_DecodeInvertsEncode :
    (Instr.divrem 15 14 15 15).WellFormed ∧ (Instr.rpowi 15 0xFFFFFFFF 15 3).WellFormed := by decide

theorem witness_LegalWordsHaveOneMeaning :
    decode 0x63FFCE00 7 = .ok (.divrem 15 14 15 15) ∧ decode 0x9BC3F000 0xFFFFFFFF = .ok (.rpowi 15 0xFFFFFFFF 15 3) := by
  decide

theorem witness_MatchAndMaskRowsAreTheDecoder :
    (∃ row ∈ opcodeMap, (0x44804000 : Word) &&& row.mask = row.mtch ∧ row.format ≠ .deab) ∧
    (∃ row ∈ opcodeMap, (0x61804600 : Word) &&& row.mask = row.mtch ∧ row.format = .deab) ∧
    (∀ row ∈ opcodeMap, (0x44001000 : Word) &&& row.mask ≠ row.mtch) := by decide

theorem witness_IllegalWordsFaultAtDecode :
    (State.CoreTurn (running State.reset 1023 [0xA8000000]) (running State.reset 1023 [0xA8000000]) ∧
      (running State.reset 1023 [0xA8000000]).busy = true ∧ (running State.reset 1023 [0xA8000000]).pc.toNat < cmdWords ∧
      (running State.reset 1023 [0xA8000000]).cmdMem.read? 1023 = some 0xA8000000) ∧
    (∃ e, decodeHead 0xA8000000 = .error e) ∧ (∃ i, decode 0x10400000 0 = .ok i) :=
  ⟨⟨.inl ⟨rfl, rfl⟩, rfl, by decide, rfl⟩, ⟨_, rfl⟩, ⟨_, rfl⟩⟩

theorem witness_ResetsLeaveTheResetValues :
    (busy .powerOn).inputs = [.powerOn] ∧ (busy (.write 4 4 0xF)).inputs = [.write 4 4 0xF] ∧
    Config.windowOffset (busy (.write 4 4 0xF)).cfg 4 = some 0x004 ∧ (0xF : Word).getLsbD 3 = true := by decide

theorem witness_EveryStepKeepsTheInvariant : fullRun.Inv ∧ (∃ t, step fullRun = .next t) := ⟨fullRun_inv, ⟨_, rfl⟩⟩

theorem witness_StepRunsTheDecodedCommand :
    State.CoreTurn (busy .noAccess) { busy .noAccess with inputs := [] } ∧
    (State.CoreTurn State.reset State.reset ∧ State.reset.busy = false) ∧
    (State.CoreTurn (running demo 1022 [0x10400000, 7]) (running demo 1022 [0x10400000, 7]) ∧
      (running demo 1022 [0x10400000, 7]).pc.toNat + (Instr.ldi 1 7).words ≤ cmdWords ∧
      (running demo 1022 [0x10400000, 7]).cmdMem.read? 1022 = some 0x10400000 ∧ decode 0x10400000 7 = .ok (.ldi 1 7) ∧
      (running demo 1022 [0x10400000, 7]).cmdMem.read? 1023 = some 7) ∧
    ((running demo 1023 [0]).pc.toNat + Instr.nop.words ≤ cmdWords ∧ (running demo 1023 [0]).cmdMem.read? 1023 = some 0 ∧
      decode 0 0 = .ok .nop) :=
  ⟨noAccess_coreTurn, ⟨.inl ⟨rfl, rfl⟩, rfl⟩, ⟨.inl ⟨rfl, rfl⟩, by decide, rfl, rfl, rfl⟩, by decide, rfl, rfl⟩

theorem witness_FetchBeyondCommandMemoryOverruns :
    (State.CoreTurn (running demo 1024 []) (running demo 1024 []) ∧ cmdWords ≤ (running demo 1024 []).pc.toNat) ∧
    (State.CoreTurn (running demo 1023 [0x10400000]) (running demo 1023 [0x10400000]) ∧
      (running demo 1023 [0x10400000]).pc.toNat < cmdWords ∧ cmdWords ≤ (running demo 1023 [0x10400000]).pc.toNat + 1 ∧
      (running demo 1023 [0x10400000]).cmdMem.read? 1023 = some 0x10400000 ∧
      ∃ h, decodeHead 0x10400000 = .ok h ∧ h.words = 2) :=
  ⟨⟨.inl ⟨rfl, rfl⟩, by decide⟩, .inl ⟨rfl, rfl⟩, by decide, by decide, rfl, _, rfl, rfl⟩

theorem witness_StepStopsOnlyAtAnUnwrittenCommandWord :
    (∃ r, step (running demo 5 []) = .refused r) ∧ (∃ r, step (running demo 5 [0x10400000]) = .refused r) ∧
    (∀ index < cmdWords, ∃ w, fullRun.cmdMem.read? index = some w) := ⟨⟨_, rfl⟩, ⟨_, rfl⟩, fullCmdMem_written⟩

theorem witness_EveryCommandCompletesOrTakesAPreciseFault :
    State.CoreTurn (running demo 2047 []) (running demo 2047 []) ∧ (running demo 2047 []).fault = false ∧
    (∃ t, step (running demo 2047 []) = .next t ∧ t.fault = true) := ⟨.inl ⟨rfl, rfl⟩, rfl, _, rfl, rfl⟩

theorem witness_UnwrittenSourcesFaultBeforeUnsetRings :
    ((Instr.rmul 1 1 15 2).WellFormed ∧ ∃ r ∈ (Instr.rmul 1 1 15 2).sources, demo.regs[r].wr = false) ∧
    ((Instr.rpowi 1 2 0 2).WellFormed ∧ (∀ r ∈ (Instr.rpowi 1 2 0 2).sources, demo.regs[r].wr = true) ∧
      (Instr.rpowi 1 2 0 2).ringRead = some 2 ∧ demo.rings[(2 : RingIdx)].valid = false) := by decide

theorem witness_WrittenBitsAreSetByWritesAndClearedByReset :
    (State.ResetNext (busy .powerOn) ∧ ∃ t, step (busy .powerOn) = .next t) ∧
    (∃ t, exec (.ldi 15 0) demo = .next t ∧ t.regs[(15 : RegIdx)].wr ≠ demo.regs[(15 : RegIdx)].wr) ∧
    (∃ t, step (withReg (busy (.write 4 4 8)) 15 0) = .next t ∧
      (withReg (busy (.write 4 4 8)) 15 0).regs[(15 : RegIdx)].wr = true ∧ t.regs[(15 : RegIdx)].wr = false) ∧
    ((Instr.inc2 15).WellFormed ∧ 15 ∈ (Instr.inc2 15).sources ∧ demo.regs[(15 : RegIdx)].wr = false) :=
  ⟨⟨.inl rfl, _, rfl⟩, ⟨_, rfl, by decide⟩, ⟨_, rfl, by decide, by decide⟩, by decide⟩

theorem witness_OnlyCmpAndBittestWriteFlags :
    (∃ t, exec (.cmp 1 2) demo = .next t ∧ t.flags ≠ demo.flags) ∧
    (∃ t, exec (.bittest 1 0) demo = .next t ∧ t.flags ≠ demo.flags) :=
  ⟨⟨_, rfl, by decide⟩, ⟨_, rfl, by decide +kernel⟩⟩

theorem witness_NoCommandReadsFlags : ∃ t, exec (.cmp 1 2) demo = .next t := ⟨_, rfl⟩

theorem witness_StaleDigitsAreNeverObserved :
    (fullRun.forgetStale = State.forgetStale { fullRun with regs := fullRun.regs.set 1 (Reg.holding 5 9) } ∧
      ∃ t, step fullRun = .next t) ∧
    (demo.forgetStale = State.forgetStale { demo with regs := demo.regs.set 1 (Reg.holding 5 9) } ∧
      ∃ r, step demo = .refused r) := ⟨⟨by decide +kernel, _, rfl⟩, by decide +kernel, _, rfl⟩

theorem witness_OnlyNamedCommandsTouchRingsIobufAndEntropy :
    (∃ t, exec (.rset 2 1) demo = .next t ∧ t.rings[(2 : RingIdx)] ≠ demo.rings[(2 : RingIdx)]) ∧
    (∃ t, exec (.rclr 0) demo = .next t ∧ t.rings[(0 : RingIdx)] ≠ demo.rings[(0 : RingIdx)]) ∧
    (∃ t, exec (.stb 1) demo = .next t ∧ t.ioLen ≠ demo.ioLen) ∧
    (∃ t, exec (.rand 1 1) demo = .next t ∧ t.draws ≠ demo.draws) :=
  ⟨⟨_, rfl, by decide +kernel⟩, ⟨_, rfl, by decide +kernel⟩, ⟨_, rfl, by decide +kernel⟩, ⟨_, rfl, by decide +kernel⟩⟩

theorem witness_PcMovesByCommandsHostWritesAndResetOnly :
    (∃ t, State.CoreTurn fullRun fullRun ∧ step fullRun = .next t ∧ fullRun.busy = true ∧ t.busy = true ∧ t.pc ≠ fullRun.pc) ∧
    (∃ t, step { busy .powerOn with pc := 7 } = .next t ∧ t.pc ≠ 7) ∧
    (∃ t, step (idle (.write 4 0x010 0xFFFFFFFF)) = .next t ∧ t.pc ≠ (idle (.write 4 0x010 0xFFFFFFFF)).pc) :=
  ⟨⟨_, .inl ⟨rfl, rfl⟩, rfl, rfl, rfl, by decide⟩, ⟨_, rfl, by decide⟩, ⟨_, rfl, by decide⟩⟩

/-- NOP and HALT in the last two words, with every other word unwritten. -/
def shortRun : State := running demo 1022 [0x00000000, 0x04000000]

theorem shortRun_inv : shortRun.Inv :=
  { demo_inv with cmdWf := by decide, cmdBound := by decide, running := by decide }

theorem shortRun_fetches : shortRun.FetchesWritten ∧ State.FetchesWritten { shortRun with pc := 1023 } := by
  refine ⟨fun _ => ⟨0, rfl, fun h hd h2 _ => ?_⟩, fun _ => ⟨0x04000000, rfl, fun _ _ _ hp => absurd hp (by decide)⟩⟩
  exact ⟨0x04000000, rfl⟩

theorem witness_EveryRunEnds :
    shortRun.Inv ∧ shortRun.busy = true ∧ shortRun.inputs = [] ∧
    (∀ (k : Nat) (v : State), Host.Core.run core k shortRun = .next v → v.busy = true → v.FetchesWritten) ∧
    (∀ index < 1022, shortRun.cmdMem.read? index = none) := by
  refine ⟨shortRun_inv, rfl, rfl, ?_, by decide +kernel⟩
  have first : step shortRun = .next { shortRun with pc := 1023 } := rfl
  have second : step { shortRun with pc := 1023 } = .next { shortRun with pc := 1024, busy := false, done := true } := rfl
  have ended : step { shortRun with pc := 1024, busy := false, done := true } =
      .next { shortRun with pc := 1024, busy := false, done := true } := rfl
  intro k v hk hb
  match k with
  | 0 => cases hk; exact shortRun_fetches.1
  | 1 => rw [run_succ 0 first] at hk; cases hk; exact shortRun_fetches.2
  | k + 2 => rw [run_succ _ first, run_succ _ second, run_of_step_self ended] at hk; cases hk; cases hb

theorem witness_NopAndHaltDoTheirEffectOnly :
    (opcOf 0x00000001 = 0x00 ∧ (0x00000001 : Word) ≠ 0) ∧ (opcOf 0x07FFFFFF = 0x01 ∧ (0x07FFFFFF : Word) ≠ 0x04000000) := by decide

theorem witness_MovZeroAndLdiWriteOneRegister :
    demo.regs[(8 : RegIdx)].wr = false ∧ demo.regs[(3 : RegIdx)].wr = true := by decide

theorem witness_LdbImportsIobufBigEndian :
    (State.ioBytes { demo with ioLen := 9 } < 9) ∧ demo.ioLen.toNat ≤ demo.ioBytes := by decide

theorem witness_StbExportsMinimalBigEndian :
    demo.Inv ∧ demo.regs[(8 : RegIdx)].wr = false ∧ demo.regs[(3 : RegIdx)].wr = true ∧
    (minBE demo.regs[(3 : RegIdx)].val).length = demo.ioBytes := ⟨demo_inv, by decide, by decide, by decide +kernel⟩

theorem witness_ByteStringsRoundTrip : 0 < (minBE 0).length ∧ 1 < (minBE 256).length := by decide +kernel

theorem witness_RandWritesAValueBelowTwoToTheCount :
    32 * demo.cfg.maxw < (65 : Word).toNat ∧ (64 : Word).toNat ≤ 32 * demo.cfg.maxw ∧ (0 : Word).toNat ≤ 32 * demo.cfg.maxw := by
  decide

theorem witness_BitsetAndBitclrChangeOneBit :
    demo.Inv ∧ demo.regs[(8 : RegIdx)].wr = false ∧ demo.regs[(0 : RegIdx)].wr = true ∧
    32 * demo.cfg.maxw ≤ (64 : Word).toNat ∧ (63 : Word).toNat < 32 * demo.cfg.maxw :=
  ⟨demo_inv, by decide, by decide, by decide, by decide⟩

theorem witness_BittestAndBitlenReadTheirSource :
    demo.regs[(8 : RegIdx)].wr = false ∧ demo.regs[(1 : RegIdx)].wr = true ∧
    bitLen demo.regs[(1 : RegIdx)].val ≤ (3 : Word).toNat := by decide +kernel

theorem witness_Inc2AddsTwoInPlace :
    demo.regs[(8 : RegIdx)].wr = false ∧
    (demo.regs[(5 : RegIdx)].wr = true ∧ demo.vmax < demo.regs[(5 : RegIdx)].val + 2) ∧
    (demo.regs[(4 : RegIdx)].wr = true ∧ demo.regs[(4 : RegIdx)].val + 2 ≤ demo.vmax) := by decide +kernel

theorem witness_CmpOrdersTwoMagnitudes :
    demo.regs[(8 : RegIdx)].wr = false ∧ demo.regs[(6 : RegIdx)].wr = true ∧ demo.regs[(7 : RegIdx)].wr = true := by decide

theorem witness_AddIsExactOrOverflows :
    demo.regs[(8 : RegIdx)].wr = false ∧
    (demo.regs[(3 : RegIdx)].wr = true ∧ demo.regs[(10 : RegIdx)].wr = true ∧
      demo.vmax < demo.regs[(3 : RegIdx)].val + demo.regs[(10 : RegIdx)].val) ∧
    (demo.regs[(5 : RegIdx)].wr = true ∧ demo.regs[(5 : RegIdx)].val + demo.regs[(10 : RegIdx)].val ≤ demo.vmax) := by
  decide +kernel

theorem witness_SubIsExactOrFaultsNegative :
    demo.regs[(8 : RegIdx)].wr = false ∧
    (demo.regs[(0 : RegIdx)].wr = true ∧ demo.regs[(10 : RegIdx)].wr = true ∧
      demo.regs[(0 : RegIdx)].val < demo.regs[(10 : RegIdx)].val) ∧
    demo.regs[(3 : RegIdx)].val ≤ demo.regs[(3 : RegIdx)].val := by decide +kernel

theorem witness_MulAndSqrAreExactOrOverflow :
    demo.regs[(8 : RegIdx)].wr = false ∧ demo.regs[(6 : RegIdx)].wr = true ∧ demo.regs[(3 : RegIdx)].wr = true ∧
    demo.regs[(10 : RegIdx)].wr = true ∧ demo.regs[(7 : RegIdx)].wr = true ∧
    demo.vmax < demo.regs[(6 : RegIdx)].val * demo.regs[(6 : RegIdx)].val ∧
    demo.regs[(3 : RegIdx)].val * demo.regs[(10 : RegIdx)].val ≤ demo.vmax ∧
    demo.regs[(7 : RegIdx)].val * demo.regs[(7 : RegIdx)].val ≤ demo.vmax := by decide +kernel

theorem witness_MulwMultipliesByASignedImmediate :
    demo.regs[(8 : RegIdx)].wr = false ∧ demo.regs[(3 : RegIdx)].wr = true ∧ (0x80000000 : Word).toInt < 0 ∧
    0 ≤ (0x7FFFFFFF : Word).toInt ∧ demo.vmax < demo.regs[(3 : RegIdx)].val * (2 : Word).toNat ∧
    demo.regs[(3 : RegIdx)].val * (1 : Word).toNat ≤ demo.vmax := by decide +kernel

theorem witness_ShlAndShrScaleByPowersOfTwo :
    demo.regs[(8 : RegIdx)].wr = false ∧ demo.regs[(6 : RegIdx)].wr = true ∧ (0xFFFFFFFF : Word).toInt < 0 ∧
    0 ≤ (0x7FFFFFFF : Word).toInt ∧ demo.vmax < demo.regs[(6 : RegIdx)].val * 2^(32 : Word).toNat ∧
    demo.regs[(6 : RegIdx)].val * 2^(31 : Word).toNat ≤ demo.vmax := by decide +kernel

theorem witness_DivremWritesQuotientAndRemainder :
    (2 : RegIdx) ≠ 3 ∧ demo.regs[(8 : RegIdx)].wr = false ∧ demo.regs[(1 : RegIdx)].wr = true ∧
    (demo.regs[(0 : RegIdx)].wr = true ∧ demo.regs[(0 : RegIdx)].val = 0) ∧
    (demo.regs[(10 : RegIdx)].wr = true ∧ demo.regs[(10 : RegIdx)].val ≠ 0) := by decide +kernel

theorem witness_SourceLawsHoldAcrossCommands :
    demo.Inv ∧ (demo.regs[(5 : RegIdx)].wr = true ∧ demo.regs[(10 : RegIdx)].wr = true ∧ (9 : RegIdx) ≠ 10 ∧ (11 : RegIdx) ≠ 10 ∧
      (9 : RegIdx) ≠ 11 ∧ demo.regs[(10 : RegIdx)].val ≠ 0 ∧
      demo.regs[(5 : RegIdx)].val + demo.regs[(10 : RegIdx)].val ≤ demo.vmax ∧
      demo.regs[(5 : RegIdx)].val * demo.regs[(10 : RegIdx)].val ≤ demo.vmax) := ⟨demo_inv, by decide +kernel⟩

theorem witness_RsetAndRclrSetUpAndTearDownARing :
    demo.regs[(8 : RegIdx)].wr = false ∧ (demo.regs[(0 : RegIdx)].wr = true ∧ demo.regs[(0 : RegIdx)].val = 0) ∧
    (demo.regs[(10 : RegIdx)].wr = true ∧ demo.regs[(10 : RegIdx)].val ≠ 0) ∧ (1 : RingIdx) ≠ 0 := by decide +kernel

theorem witness_RredReducesModuloTheRing :
    demo.Inv ∧ demo.regs[(8 : RegIdx)].wr = false ∧ demo.regs[(1 : RegIdx)].wr = true ∧
    demo.rings[(2 : RingIdx)].valid = false ∧ demo.rings[(0 : RingIdx)].valid = true :=
  ⟨demo_inv, by decide, by decide, by decide +kernel, by decide +kernel⟩

theorem witness_RmulMultipliesModuloTheRing :
    demo.Inv ∧ demo.regs[(8 : RegIdx)].wr = false ∧ demo.regs[(1 : RegIdx)].wr = true ∧ demo.regs[(2 : RegIdx)].wr = true ∧
    demo.rings[(2 : RingIdx)].valid = false ∧ demo.rings[(3 : RingIdx)].valid = true :=
  ⟨demo_inv, by decide, by decide, by decide, by decide +kernel, by decide +kernel⟩

theorem witness_RdiffEmulatesSignedSubtraction :
    demo.Inv ∧ demo.regs[(8 : RegIdx)].wr = false ∧ demo.regs[(1 : RegIdx)].wr = true ∧ demo.regs[(2 : RegIdx)].wr = true ∧
    demo.rings[(2 : RingIdx)].valid = false ∧ demo.rings[(3 : RingIdx)].valid = true :=
  ⟨demo_inv, by decide, by decide, by decide, by decide +kernel, by decide +kernel⟩

theorem witness_MontgomeryCommandsConvertAndMultiply :
    demo.Inv ∧ demo.regs[(8 : RegIdx)].wr = false ∧ demo.regs[(1 : RegIdx)].wr = true ∧ demo.regs[(2 : RegIdx)].wr = true ∧
    demo.rings[(2 : RingIdx)].valid = false ∧ (demo.rings[(1 : RingIdx)].valid = true ∧ demo.rings[(1 : RingIdx)].m % 2 = 0) ∧
    (demo.rings[(3 : RingIdx)].valid = true ∧ demo.rings[(3 : RingIdx)].m % 2 = 1) :=
  ⟨demo_inv, by decide, by decide, by decide, by decide +kernel, by decide +kernel, by decide +kernel⟩

theorem witness_PowersAreExactModuloTheRing :
    demo.Inv ∧ demo.regs[(8 : RegIdx)].wr = false ∧ demo.regs[(1 : RegIdx)].wr = true ∧ demo.regs[(0 : RegIdx)].wr = true ∧
    demo.rings[(2 : RingIdx)].valid = false ∧ demo.rings[(1 : RingIdx)].valid = true ∧ demo.rings[(3 : RingIdx)].valid = true :=
  ⟨demo_inv, by decide, by decide, by decide, by decide +kernel, by decide +kernel, by decide +kernel⟩

theorem witness_ExponentiationPathsAgree :
    (8 : Nat) ≠ 0 ∧ 497 % 2 = 1 ∧ 0xFFFFFFFF < 2^32 ∧ demo.Inv ∧ demo.regs[(7 : RegIdx)].wr = true ∧
    demo.regs[(3 : RegIdx)].wr = true ∧ demo.rings[(1 : RingIdx)].valid = true ∧
    demo.regs[(7 : RegIdx)].val = (0xFFFFFFFF : Word).toNat :=
  ⟨by decide, by decide, by decide, demo_inv, by decide, by decide, by decide +kernel, by decide +kernel⟩

theorem witness_MontgomeryAndBarrettPathsAgree :
    1 % 2 = 1 ∧ demo.Inv ∧ demo.regs[(3 : RegIdx)].wr = true ∧ demo.regs[(4 : RegIdx)].wr = true ∧
    demo.rings[(0 : RingIdx)].valid = true ∧ demo.rings[(0 : RingIdx)].m % 2 = 1 ∧ (9 : RegIdx) ≠ 4 ∧ (9 : RegIdx) ≠ 11 :=
  ⟨by decide, demo_inv, by decide, by decide, by decide +kernel, by decide +kernel, by decide, by decide⟩

theorem witness_BarrettPipelineReduces : (497 : Nat) ≠ 0 ∧ digitLen (2^64 - 1) ≤ 2 * digitLen 497 := by decide +kernel

theorem witness_RedcAndItsConstantMeetTheirInvariants :
    497 % 2 = 1 ∧ 497 * radix^(digitLen 497) - 1 < 497 * radix^(digitLen 497) ∧ 1 ≤ digitLen 497 ∧ 0 % 2 = 0 := by decide +kernel

theorem witness_AdderAndSubtractorPropagateCarries : (2^32 : Nat) ≤ 2^32 := by decide

theorem witness_DividerGivesQuotientAndRemainder : (2^32 : Nat) ≠ 0 ∧ (1 : Nat) ≠ 0 := by decide

theorem witness_CtrlWritesActInOrder :
    (idle (.write 4 4 0xF)).inputs = [.write 4 4 0xF] ∧ Config.windowOffset (idle (.write 4 4 0xF)).cfg 4 = some 0x004 ∧
    (0xF : Word).getLsbD 3 = true ∧ (0x7 : Word).getLsbD 3 = false := by decide

theorem witness_HostWritesStoreOrAreRefused :
    (idle (.write 2 0x1FFE 1)).inputs = [.write 2 0x1FFE 1] ∧ Config.windowOffset Config.standard 0x1FFE = some 0x1FFE ∧
    Config.windowOffset Config.standard 0x010 = some 0x010 ∧ Config.windowOffset Config.standard 0x020 = some 0x020 ∧
    Config.windowOffset Config.standard 0x1FFC = some 0x1FFC ∧ Config.windowOffset Config.standard 0x1000 = some 0x1000 ∧
    Config.windowOffset Config.standard 0x7FC = some 0x7FC ∧
    (0x800 + demo.ioBytes ≤ 0x808 ∧ Config.windowOffset demo.cfg 0x808 = some 0x808) ∧
    (0x804 < 0x800 + demo.ioBytes ∧ Config.windowOffset demo.cfg 0x804 = some 0x804) ∧
    (busy (.write 4 0x010 1)).busy = true ∧ (idle (.write 4 0x010 1)).busy = false ∧
    (∃ t, step { idle (.write 4 4 4) with hwerr := true } = .next t ∧ t.hwerr = false) :=
  ⟨by decide, by decide, by decide, by decide, by decide, by decide, by decide, by decide, by decide, by decide, by decide,
    _, rfl, by decide⟩

theorem witness_HostReadsAnswerAndChangeNothing :
    (busy (.read 4 8)).inputs = [.read 4 8] ∧ Config.windowOffset Config.standard 8 = some 0x008 ∧
    Config.windowOffset Config.standard 0x1FFF = some 0x1FFF := by decide

theorem witness_MmioMapHasTheListedOffsets :
    State.reset.ioBytes ≤ 0x800 ∧ 4 * 1 < demo.ioBytes ∧ 0x080 < 0x800 ∧ 0x800 + demo.ioBytes ≤ 0xFFC := by decide

theorem witness_RegistersReadAsTheirFields : fullRun.Inv ∧ ∃ w, fullRun.cmdMem.read? 1023 = some w :=
  ⟨fullRun_inv, fullCmdMem_written 1023 (by decide)⟩

theorem witness_IobufWordsArePackedBigEndian :
    { demo with inputs := [.write 4 0x804 1] }.inputs = [.write 4 (0x800 + 4 * 1) 1] ∧
    Config.windowOffset demo.cfg 0x804 = some (0x800 + 4 * 1) ∧ 4 * 1 < demo.ioBytes ∧ demo.ioBytes ≤ 0x800 ∧
    (idle (.write 4 0x804 1)).busy = false := by decide

theorem witness_FaultIsHeldUntilClearedOrReset :
    (∃ t, step { idle (.write 4 4 5) with fault := true, faultCode := .byteCount } = .next t ∧ t.fault = false ∧ t.busy = true) ∧
    (∃ t, step (busy (.read 4 1)) = .next t ∧ (busy (.read 4 1)).hwerr = false ∧ t.hwerr = true) :=
  ⟨⟨_, rfl, by decide, by decide⟩, ⟨_, rfl, rfl, by decide⟩⟩

theorem witness_InterruptRisesAndFallsForItsCausesOnly :
    (∃ t, step { running State.reset 1023 [0x04000000] with ie := true } = .next t ∧ t.irq = true) ∧
    (∃ t, step { idle (.write 4 4 2) with done := true } = .next t ∧ State.irq { idle (.write 4 4 2) with done := true } = false ∧
      t.irq = true) ∧
    (∃ t, step { idle (.write 4 4 3) with done := true, ie := true } = .next t ∧
      State.irq { idle (.write 4 4 3) with done := true, ie := true } = true ∧ t.irq = false) :=
  ⟨⟨_, rfl, by decide +kernel⟩, ⟨_, rfl, rfl, by decide⟩, ⟨_, rfl, rfl, by decide⟩⟩

end Sys2Proof.Tests
end

section
/-! SUPPORT. The invariant of the machine: it holds at reset, and every step keeps it (10_state.md R60, R42, R50, R51). -/

namespace Sys2Proof.Machine

variable {s t u : State}

/-- The core's turn takes nothing from the state but a used-up host event. -/
theorem State.CoreTurn.exists_inputs (h : State.CoreTurn s u) : ∃ ins, u = { s with inputs := ins } := ⟨_, h.same⟩

/-- On the core's turn the invariant stays. -/
theorem State.CoreTurn.inv (h : State.CoreTurn s u) (hs : s.Inv) : u.Inv := by
  rw [h.same]; exact State.inv_withInputs hs _

/-- The reset state, with its scrubbed registers and cleared rings, meets the invariant (10_state.md R60). -/
theorem State.reset_inv : State.reset.Inv where
  config := by decide
  regs := fun i => by
    have : State.reset.regs[i] = Reg.reset := by simp [State.reset]
    rw [this]; exact Reg.ok_reset _
  rings := fun r => by
    have : State.reset.rings[r] = Ring.cleared := by simp [State.reset]
    rw [this]; exact Ring.ok_cleared _
  flags := by decide
  ioWf := .nil
  ioBound := nofun
  cmdWf := .nil
  cmdBound := nofun
  running := nofun
  oneCause := by decide
  faultCode := by decide
  faultRegs := fun _ => ⟨rfl, rfl⟩
  scratch := rfl

/-- The invariant is inductive: whichever way a step ends, it stays. -/
theorem step_keeps_inv (hs : s.Inv) (h : step s = .next t) : t.Inv := by
  obtain ⟨u, hu, -, rfl⟩ | ⟨u, c, hu, -, hc, rfl⟩ | ⟨u, i, v, hu, hb, hv, -, rfl⟩ | ⟨ev, rest, -, -, he⟩ := step_next_cases h
  · exact hu.inv hs
  · exact State.inv_trap (hu.inv hs) hc
  · have hbu : u.busy = true := by rw [hu.same]; exact hb
    exact hv.inv_advance (hu.inv hs) hbu _
  · exact he.inv (State.inv_withInputs hs rest)

/-- Settles O7: every register is scrubbed, every ring cleared and every status field 0. -/
theorem resetMeetsTheInvariant : Obligations.ResetMeetsTheInvariant := State.reset_inv

/-- Settles O8, by the cases of a step. -/
theorem everyStepKeepsTheInvariant : Obligations.EveryStepKeepsTheInvariant := fun _ _ hs h => step_keeps_inv hs h

end Sys2Proof.Machine
end

section
/-! SUPPORT. What no command can tell apart. A relation of states is unobserved when what the commands read agrees on both
sides and each thing a command can do keeps the relation; then every command runs alike on both sides. FLAGS (10_state.md R50)
and the digits above the registers' lengths (R42) are the two uses. -/

namespace Sys2Proof.Machine

variable {s s' : State} {R : State → State → Prop}

/-- What the commands read of the state is the same in both: sources, build parameters, rings, IOBUF, IOLEN and the draw. -/
structure State.SameReads (s s' : State) : Prop where
  source : ∀ r, s'.source r = s.source r
  cfg    : s'.cfg = s.cfg
  rings  : s'.rings = s.rings
  ioBuf  : s'.ioBuf = s.ioBuf
  ioLen  : s'.ioLen = s.ioLen
  epoch  : s'.epoch = s.epoch
  draws  : s'.draws = s.draws

namespace State.SameReads

theorem context (h : State.SameReads s s') (r : RingIdx) : s'.context r = s.context r := by
  simp only [State.context, h.rings]

theorem oddContext (h : State.SameReads s s') (r : RingIdx) : s'.oddContext r = s.oddContext r := by
  simp only [State.oddContext, h.context]

theorem fitted (h : State.SameReads s s') (v : Nat) : s'.fitted v = s.fitted v := by
  unfold State.fitted State.vmax; rw [h.cfg]

theorem shiftedLeft (h : State.SameReads s s') (a n : Nat) : s'.shiftedLeft a n = s.shiftedLeft a n := by
  simp only [State.shiftedLeft, h.cfg]

theorem ioBytes (h : State.SameReads s s') : s'.ioBytes = s.ioBytes := by simp only [State.ioBytes, h.cfg]

theorem ioString (h : State.SameReads s s') (n : Nat) : s'.ioString n = s.ioString n :=
  List.map_congr_left fun j _ => State.ioByte_congr h.ioBuf h.epoch j

theorem entropy (h : State.SameReads s s') (n : Nat) : s'.entropy n = s.entropy n := by
  simp only [State.entropy, h.draws]

end State.SameReads

/-- No command tells the two sides of `R` apart. -/
structure Unobserved (R : State → State → Prop) : Prop where
  reads       : ∀ {s s'}, R s s' → State.SameReads s s'
  writeReg    : ∀ {s s'}, R s s' → ∀ i v, R (s.writeReg i v) (s'.writeReg i v)
  scrubReg    : ∀ {s s'}, R s s' → ∀ i, R (s.scrubReg i) (s'.scrubReg i)
  writeRing   : ∀ {s s'}, R s s' → ∀ r c, R (s.writeRing r c) (s'.writeRing r c)
  compared    : ∀ {s s'}, R s s' → ∀ a b, R (s.writeFlags (s.flags.compared a b)) (s'.writeFlags (s'.flags.compared a b))
  tested      : ∀ {s s'}, R s s' → ∀ a i, R (s.writeFlags (s.flags.tested a i)) (s'.writeFlags (s'.flags.tested a i))
  exportBytes : ∀ {s s'}, R s s' → ∀ bytes, R (s.exportBytes bytes) (s'.exportBytes bytes)
  drawn       : ∀ {s s'}, R s s' → R s.drawn s'.drawn
  endRun      : ∀ {s s'}, R s s' → R s.endRun s'.endRun
  advance     : ∀ {s s'}, R s s' → ∀ n, R (s.advance n) (s'.advance n)
  trap        : ∀ {s s'}, R s s' → ∀ c, R (s.trap c) (s'.trap c)

/-- Two command bodies raise the same fault, or stage related states. -/
inductive BodiesAlike (R : State → State → Prop) : Except FaultCode State → Except FaultCode State → Prop
  | ok {u u' : State} (h : R u u') : BodiesAlike R (.ok u) (.ok u')
  | error (c : FaultCode) : BodiesAlike R (.error c) (.error c)

/-- Two steps go on to related states, or are refused alike. -/
inductive OutcomesAlike (R : State → State → Prop) :
    Host.Outcome State Fault Refusal → Host.Outcome State Fault Refusal → Prop
  | next {t t' : State} (h : R t t') : OutcomesAlike R (.next t) (.next t')
  | refused (r : Refusal) : OutcomesAlike R (.refused r) (.refused r)

/-- Bodies that begin with the same reading or check and go on alike are alike. -/
theorem BodiesAlike.bind {α : Type} {x x' : Except FaultCode α} {f f' : α → Except FaultCode State} (hx : x' = x)
    (hf : ∀ a, BodiesAlike R (f a) (f' a)) : BodiesAlike R (x >>= f) (x' >>= f') := by
  subst hx
  cases x' with
  | ok a => exact hf a
  | error c => exact .error c

/-- Bodies that branch on the same condition and go on alike are alike. -/
theorem BodiesAlike.ite {p p' : Prop} [Decidable p] [Decidable p'] {x x' y y' : Except FaultCode State} (hp : p' ↔ p)
    (hx : BodiesAlike R x x') (hy : BodiesAlike R y y') : BodiesAlike R (if p then x else y) (if p' then x' else y') := by
  by_cases h : p
  · rw [if_pos h, if_pos (hp.2 h)]; exact hx
  · rw [if_neg h, if_neg (mt hp.1 h)]; exact hy

theorem OutcomesAlike.command (hR : Unobserved R) (h : R s s') (n : Nat) {x x' : Except FaultCode State}
    (hx : BodiesAlike R x x') : OutcomesAlike R (s.command n x) (s'.command n x') := by
  cases hx with
  | ok h' => exact .next (hR.advance h' n)
  | error c => exact .next (hR.trap h c)

/-- Bodies that stage a write of the same value to the same register are alike. -/
theorem Unobserved.wrote (hR : Unobserved R) (h : R s s') (rd : RegIdx) {v v' : Nat} (hv : v' = v) :
    BodiesAlike R (.ok (s.writeReg rd v)) (.ok (s'.writeReg rd v')) := hv ▸ .ok (hR.writeReg h rd v')

/-- No command tells the two sides of an unobserved relation apart. -/
theorem Unobserved.exec (hR : Unobserved R) (h : R s s') (i : Instr) :
    OutcomesAlike R (Machine.exec i s) (Machine.exec i s') := by
  have hr := hR.reads h
  have src := hr.source
  have wr := fun rd v => hR.wrote h rd (rfl : v = v)
  cases i with
  | nop => exact .command hR h 1 (.ok h)
  | halt => exact .command hR h 1 (.ok (hR.endRun h))
  | mov rd ra => exact .command hR h 1 (.bind (src ra) fun a => wr rd a)
  | zero rd => exact .command hR h 1 (.ok (hR.scrubReg h rd))
  | ldi rd imm => exact .command hR h 2 (wr rd _)
  | ldb rd =>
    refine .command hR h 1 (.ite (by rw [hr.ioBytes, hr.ioLen]) (.error _) (hR.wrote h rd ?_))
    rw [hr.ioLen, hr.ioString]
  | stb ra => exact .command hR h 1 (.bind (src ra) fun v => .ok (hR.exportBytes h _))
  | rand rd imm =>
    exact .command hR h 2 (.ite (by rw [hr.cfg]) (.error _)
      (.ite .rfl (wr rd 0) (hR.wrote (hR.drawn h) rd (hr.entropy _))))
  | bitset rd imm => exact .command hR h 2 (.bind (src rd) fun a => .ite (by rw [hr.cfg]) (.error _) (wr rd _))
  | bitclr rd imm => exact .command hR h 2 (.bind (src rd) fun a => wr rd _)
  | bittest ra imm => exact .command hR h 2 (.bind (src ra) fun a => .ok (hR.tested h a _))
  | bitlen rd ra => exact .command hR h 1 (.bind (src ra) fun a => wr rd _)
  | inc2 rd => exact .command hR h 1 (.bind (src rd) fun a => .bind (hr.fitted _) fun v => wr rd v)
  | cmp ra rb => exact .command hR h 1 (.bind (src ra) fun a => .bind (src rb) fun b => .ok (hR.compared h a b))
  | add rd ra rb | mul rd ra rb =>
    exact .command hR h 1 (.bind (src ra) fun a => .bind (src rb) fun b => .bind (hr.fitted _) fun v => wr rd v)
  | sub rd ra rb =>
    exact .command hR h 1 (.bind (src ra) fun a => .bind (src rb) fun b => .ite .rfl (.error _) (wr rd _))
  | sqr rd ra => exact .command hR h 1 (.bind (src ra) fun a => .bind (hr.fitted _) fun v => wr rd v)
  | mulw rd ra imm =>
    exact .command hR h 2 (.bind (src ra) fun a => .bind rfl fun c => .bind (hr.fitted _) fun v => wr rd v)
  | shl rd ra imm =>
    exact .command hR h 2 (.bind (src ra) fun a => .bind rfl fun n => .bind (hr.shiftedLeft a n) fun v => wr rd v)
  | shr rd ra imm => exact .command hR h 2 (.bind (src ra) fun a => .bind rfl fun n => wr rd _)
  | divrem rd re ra rb =>
    exact .command hR h 1 (.ite .rfl (.error _) (.bind (src ra) fun a => .bind (src rb) fun b =>
      .ite .rfl (.error _) (hR.wrote (hR.writeReg h rd _) re rfl)))
  | rset rg ra => exact .command hR h 1 (.bind (src ra) fun m => .ite .rfl (.error _) (.ok (hR.writeRing h rg _)))
  | rclr rg => exact .command hR h 1 (.ok (hR.writeRing h rg _))
  | rred rd ra rg => exact .command hR h 1 (.bind (src ra) fun x => .bind (hr.context rg) fun c => wr rd _)
  | rmul rd ra rb rg | rdiff rd ra rb rg | rpow rd ra rb rg =>
    exact .command hR h 1 (.bind (src ra) fun a => .bind (src rb) fun b => .bind (hr.context rg) fun c => wr rd _)
  | rpowi rd imm rb rg => exact .command hR h 2 (.bind (src rb) fun e => .bind (hr.context rg) fun c => wr rd _)
  | rtom rd ra rg | rfromm rd ra rg =>
    exact .command hR h 1 (.bind (src ra) fun x => .bind (hr.oddContext rg) fun c => wr rd _)
  | rmmul rd ra rb rg =>
    exact .command hR h 1 (.bind (src ra) fun x => .bind (src rb) fun y => .bind (hr.oddContext rg) fun c => wr rd _)

/-! ### FLAGS -/

/-- The two states differ in FLAGS at most. -/
def State.FlagsOnly (s s' : State) : Prop := ∃ f, s' = { s with flags := f }

/-- FLAGS are unobserved (10_state.md R50): CMP and BITTEST overwrite them, and nothing reads them. -/
theorem State.flagsOnly_unobserved : Unobserved State.FlagsOnly where
  reads       := by rintro s _ ⟨f, rfl⟩; exact ⟨fun _ => rfl, rfl, rfl, rfl, rfl, rfl, rfl⟩
  writeReg    := by rintro s _ ⟨f, rfl⟩ i v; exact ⟨f, rfl⟩
  scrubReg    := by rintro s _ ⟨f, rfl⟩ i; exact ⟨f, rfl⟩
  writeRing   := by rintro s _ ⟨f, rfl⟩ r c; exact ⟨f, rfl⟩
  compared    := by rintro s _ ⟨f, rfl⟩ a b; exact ⟨f.compared a b, rfl⟩
  tested      := by rintro s _ ⟨f, rfl⟩ a i; exact ⟨f.tested a i, rfl⟩
  exportBytes := by rintro s _ ⟨f, rfl⟩ bytes; exact ⟨f, rfl⟩
  drawn       := by rintro s _ ⟨f, rfl⟩; exact ⟨f, rfl⟩
  endRun      := by rintro s _ ⟨f, rfl⟩; exact ⟨f, rfl⟩
  advance     := by rintro s _ ⟨f, rfl⟩ n; exact ⟨f, rfl⟩
  trap        := by rintro s _ ⟨f, rfl⟩ c; exact ⟨f, rfl⟩

/-- Settles O16: FLAGS are unobserved. -/
theorem noCommandReadsFlags : Obligations.NoCommandReadsFlags := by
  intro i s t f ht
  have h := State.flagsOnly_unobserved.exec (s := s) ⟨f, rfl⟩ i
  rw [ht] at h
  generalize exec i { s with flags := f } = o at h ⊢
  cases h with
  | next h => obtain ⟨f', rfl⟩ := h; exact ⟨_, rfl, rfl⟩

/-! ### Stale digits -/

/-- The register without the digits above its length. -/
def Reg.forgetStale (r : Reg) : Reg := { r with stale := 0 }

/-- The two states differ at most in the digits above the registers' lengths. -/
def State.StaleOnly (s s' : State) : Prop :=
  ∃ regs', regs'.map Reg.forgetStale = s.regs.map Reg.forgetStale ∧ s' = { s with regs := regs' }

theorem State.staleOnly_iff : State.StaleOnly s s' ↔ s.forgetStale = s'.forgetStale := by
  constructor
  · rintro ⟨regs', h, rfl⟩
    exact congrArg (fun rs => { s with regs := rs }) h.symm
  · intro h
    refine ⟨s'.regs, (congrArg State.regs h).symm, ?_⟩
    have := congrArg (fun t => ({ t with regs := s'.regs } : State)) h
    exact this.symm

/-- The digits above the lengths are all that is forgotten. -/
theorem Reg.forgetStale_inj {r r' : Reg} (h : r'.forgetStale = r.forgetStale) :
    r'.wr = r.wr ∧ r'.len = r.len ∧ r'.val = r.val := by
  simpa [Reg.forgetStale] using h

theorem forgetStale_getElem {regs regs' : Vector Reg 16} (h : regs'.map Reg.forgetStale = regs.map Reg.forgetStale)
    (i : RegIdx) : regs'[i].wr = regs[i].wr ∧ regs'[i].len = regs[i].len ∧ regs'[i].val = regs[i].val := by
  refine Reg.forgetStale_inj ?_
  have := congrArg (fun rs : Vector Reg 16 => rs[i]) h
  simpa using this

/-- Writing the same value to both sides leaves them alike, whatever stale digits each write leaves. -/
theorem forgetStale_set {regs regs' : Vector Reg 16} (h : regs'.map Reg.forgetStale = regs.map Reg.forgetStale) (i : RegIdx)
    (v x x' : Nat) :
    (regs'.set i (Reg.holding v x')).map Reg.forgetStale = (regs.set i (Reg.holding v x)).map Reg.forgetStale := by
  rw [Vector.map_set, Vector.map_set, h]; rfl

/-- The digits above the registers' lengths are unobserved (10_state.md R42). -/
theorem State.staleOnly_unobserved : Unobserved State.StaleOnly where
  reads := by
    rintro s _ ⟨regs', h, rfl⟩
    refine ⟨fun r => ?_, rfl, rfl, rfl, rfl, rfl, rfl⟩
    obtain ⟨hwr, -, hval⟩ := forgetStale_getElem h r
    simp only [State.source, hwr, hval]
  writeReg    := by rintro s _ ⟨regs', h, rfl⟩ i v; exact ⟨_, forgetStale_set h i v _ _, rfl⟩
  scrubReg    := by rintro s _ ⟨regs', h, rfl⟩ i; exact ⟨_, forgetStale_set h i 0 0 0, rfl⟩
  writeRing   := by rintro s _ ⟨regs', h, rfl⟩ r c; exact ⟨regs', h, rfl⟩
  compared    := by rintro s _ ⟨regs', h, rfl⟩ a b; exact ⟨regs', h, rfl⟩
  tested      := by rintro s _ ⟨regs', h, rfl⟩ a i; exact ⟨regs', h, rfl⟩
  exportBytes := by rintro s _ ⟨regs', h, rfl⟩ bytes; exact ⟨regs', h, rfl⟩
  drawn       := by rintro s _ ⟨regs', h, rfl⟩; exact ⟨regs', h, rfl⟩
  endRun      := by rintro s _ ⟨regs', h, rfl⟩; exact ⟨regs', h, rfl⟩
  advance     := by rintro s _ ⟨regs', h, rfl⟩ n; exact ⟨regs', h, rfl⟩
  trap        := by rintro s _ ⟨regs', h, rfl⟩ c; exact ⟨regs', h, rfl⟩

/-- The host reads WR and LEN of the registers, and neither tells the two sides apart (R53). -/
theorem State.StaleOnly.mmioWord (h : State.StaleOnly s s') (target : MmioTarget) :
    s'.mmioWord target = s.mmioWord target := by
  obtain ⟨regs', h, rfl⟩ := h
  cases target with
  | regWr => simp only [State.mmioWord, State.regWrWord, (forgetStale_getElem h _).1]
  | regLen i =>
    obtain ⟨hwr, hlen, -⟩ := forgetStale_getElem h i
    simp only [State.mmioWord, hwr, hlen]
  | _ => rfl

/-- A CTRL write acts alike on both sides: a soft reset scrubs the registers, the other actions leave them (R54). -/
theorem State.StaleOnly.writeCtrl (h : State.StaleOnly s s') (v : Word) :
    State.StaleOnly (s.writeCtrl v) (s'.writeCtrl v) := by
  obtain ⟨regs', h, rfl⟩ := h
  cases h3 : v.getLsbD 3 with
  | false => rw [State.writeCtrl_eq _ v h3, State.writeCtrl_eq _ v h3]; exact ⟨regs', h, rfl⟩
  | true => unfold State.writeCtrl; rw [h3]; exact ⟨_, rfl, rfl⟩

theorem State.StaleOnly.writeIdle (h : State.StaleOnly s s') (v : Word) (target : MmioTarget) :
    State.StaleOnly (s.writeIdle v target) (s'.writeIdle v target) := by
  obtain ⟨regs', h, rfl⟩ := h
  cases target <;> exact ⟨regs', h, rfl⟩

theorem State.StaleOnly.setHwerr (h : State.StaleOnly s s') : State.StaleOnly s.setHwerr s'.setHwerr := by
  obtain ⟨regs', h, rfl⟩ := h
  exact ⟨regs', h, rfl⟩

theorem State.StaleOnly.respond (h : State.StaleOnly s s') (w : Word) : State.StaleOnly (s.respond w) (s'.respond w) := by
  obtain ⟨regs', h, rfl⟩ := h
  exact ⟨regs', h, rfl⟩

theorem State.StaleOnly.respondFree (h : State.StaleOnly s s') : State.StaleOnly s.respondFree s'.respondFree := by
  obtain ⟨regs', h, rfl⟩ := h
  exact ⟨regs', h, rfl⟩

theorem State.StaleOnly.busy_ioBytes (h : State.StaleOnly s s') : s'.busy = s.busy ∧ s'.ioBytes = s.ioBytes := by
  obtain ⟨regs', h, rfl⟩ := h
  exact ⟨rfl, rfl⟩

theorem State.StaleOnly.writeOffset (h : State.StaleOnly s s') (bytes off : Nat) (v : Word) :
    State.StaleOnly (s.writeOffset bytes off v) (s'.writeOffset bytes off v) := by
  obtain ⟨hbusy, hio⟩ := h.busy_ioBytes
  unfold State.writeOffset
  rw [hbusy, hio]
  split_ifs
  · exact h.setHwerr
  · exact h.writeCtrl v
  · exact h.setHwerr
  · exact h.writeIdle v _

theorem State.StaleOnly.readOffset (h : State.StaleOnly s s') (bytes off : Nat) :
    State.StaleOnly (s.readOffset bytes off) (s'.readOffset bytes off) := by
  obtain ⟨hbusy, hio⟩ := h.busy_ioBytes
  unfold State.readOffset
  rw [hbusy, hio, h.mmioWord]
  split_ifs
  · exact h.respondFree.setHwerr
  · exact h.respondFree
  · exact h.respond _

/-- A host event acts alike on both sides. -/
theorem State.StaleOnly.hostEvent (h : State.StaleOnly s s') (ev : HostEvent) :
    State.StaleOnly (s.hostEvent ev) (s'.hostEvent ev) := by
  have hcfg : s'.cfg = s.cfg := (State.staleOnly_unobserved.reads h).cfg
  cases ev with
  | noAccess => exact h
  | powerOn => obtain ⟨regs', h, rfl⟩ := h; exact ⟨_, rfl, rfl⟩
  | write bytes addr v =>
    simp only [State.hostEvent, hcfg]
    split
    · exact h.writeOffset bytes _ v
    · exact h
  | read bytes addr =>
    simp only [State.hostEvent, hcfg]
    split
    · exact h.readOffset bytes _
    · exact h

/-- The core's turn acts alike on both sides: the fetch reads PC and CMDMEM only, and no command tells them apart. -/
theorem State.StaleOnly.coreStep (h : State.StaleOnly s s') :
    OutcomesAlike State.StaleOnly (Machine.coreStep s) (Machine.coreStep s') := by
  have hfetch : s'.fetch = s.fetch := by obtain ⟨regs', h, rfl⟩ := h; rfl
  unfold Machine.coreStep
  rw [h.busy_ioBytes.1]
  split
  · unfold sequencerStep
    rw [hfetch]
    cases s.fetch with
    | run i => exact State.staleOnly_unobserved.exec h i
    | trap c => exact .next (State.staleOnly_unobserved.trap h c)
    | unwritten index => exact .refused _
  · exact .next h

theorem State.StaleOnly.withInputs (h : State.StaleOnly s s') (ins : List HostEvent) :
    State.StaleOnly { s with inputs := ins } { s' with inputs := ins } := by
  obtain ⟨regs', h, rfl⟩ := h
  exact ⟨regs', h, rfl⟩

/-- Every step acts alike on both sides. -/
theorem State.StaleOnly.step (h : State.StaleOnly s s') : OutcomesAlike State.StaleOnly (Machine.step s) (Machine.step s') := by
  have hins : s'.inputs = s.inputs := by obtain ⟨regs', h, rfl⟩ := h; rfl
  unfold Machine.step
  rw [hins]
  cases s.inputs with
  | nil => exact h.coreStep
  | cons ev rest =>
    have h' := h.withInputs rest
    cases ev with
    | noAccess => exact h'.coreStep
    | write | read | powerOn => exact .next (h'.hostEvent _)

/-- Settles O17: the digits above the lengths are unobserved by commands, and by the host's accesses. -/
theorem staleDigitsAreNeverObserved : Obligations.StaleDigitsAreNeverObserved := by
  intro s s' hs
  have h := (State.staleOnly_iff.2 hs).step
  generalize step s' = o' at h ⊢
  refine ⟨fun t ht => ?_, fun r hr => ?_⟩
  · rw [ht] at h
    cases h with
    | next h => exact ⟨_, rfl, State.staleOnly_iff.1 h⟩
  · rw [hr] at h
    cases h with
    | refused => rfl

end Sys2Proof.Machine
end

section
/-! SUPPORT. What a step does for a given next event, and what each host event can change: the rules the statements about resets,
CTRL, the written bits and PC rest on. -/

namespace Sys2Proof.Machine

variable {s t u : State} {rest : List HostEvent}

/-! ### Steps by their next event -/

theorem step_powerOn (hi : s.inputs = .powerOn :: rest) :
    step s = .next (State.powerOnReset { s with inputs := rest }) := by
  unfold step; rw [hi]; rfl

theorem step_write {bytes addr off : Nat} {v : Word} (hi : s.inputs = .write bytes addr v :: rest)
    (ho : Config.windowOffset s.cfg addr = some off) :
    step s = .next (State.writeOffset { s with inputs := rest } bytes off v) := by
  unfold step
  rw [hi]
  simp only [State.hostEvent, ho]

theorem step_writeCtrl {addr : Nat} {v : Word} (hi : s.inputs = .write 4 addr v :: rest)
    (ho : Config.windowOffset s.cfg addr = some 0x004) : step s = .next (State.writeCtrl { s with inputs := rest } v) :=
  step_write hi ho

theorem State.writeCtrl_srst (s : State) {v : Word} (hv : v.getLsbD 3 = true) : s.writeCtrl v = s.softReset := if_pos hv

theorem step_softReset {addr : Nat} {v : Word} (hi : s.inputs = .write 4 addr v :: rest)
    (ho : Config.windowOffset s.cfg addr = some 0x004) (hv : v.getLsbD 3 = true) :
    step s = .next (State.softReset { s with inputs := rest }) := by
  rw [step_writeCtrl hi ho, State.writeCtrl_srst _ hv]

/-- A reset that is next is taken: it leaves what a soft reset leaves, or what power-on leaves. -/
theorem State.ResetNext.step_eq (h : State.ResetNext s) :
    ∃ rest, step s = .next (State.softReset { s with inputs := rest }) ∨
      step s = .next (State.powerOnReset { s with inputs := rest }) := by
  obtain h | ⟨v, ⟨addr, h, ho⟩, hv⟩ := h
  · obtain ⟨rest, hi⟩ := List.head?_eq_some_iff.1 h
    exact ⟨rest, .inr (step_powerOn hi)⟩
  · obtain ⟨rest, hi⟩ := List.head?_eq_some_iff.1 h
    exact ⟨rest, .inl (step_softReset hi ho hv)⟩

theorem State.resetNext_of_powerOn (hi : s.inputs = .powerOn :: rest) : State.ResetNext s := .inl (by rw [hi]; rfl)

theorem State.ctrlNext_of_write {addr : Nat} {v : Word} (hi : s.inputs = .write 4 addr v :: rest)
    (ho : Config.windowOffset s.cfg addr = some 0x004) : State.CtrlNext s v := ⟨addr, by rw [hi]; rfl, ho⟩

theorem State.resetNext_of_srst {addr : Nat} {v : Word} (hi : s.inputs = .write 4 addr v :: rest)
    (ho : Config.windowOffset s.cfg addr = some 0x004) (hv : v.getLsbD 3 = true) : State.ResetNext s :=
  .inr ⟨v, State.ctrlNext_of_write hi ho, hv⟩

/-! ### What a host event leaves alone -/

/-- Only a reset changes a register on the host's side (R43). -/
theorem HostEffect.regs {ev : HostEvent} (hi : s.inputs = ev :: rest) (h : HostEffect { s with inputs := rest } ev t) :
    t.regs = s.regs ∨ State.ResetNext s := by
  cases h with
  | softReset addr v ho hv => exact .inr (State.resetNext_of_srst hi ho hv)
  | powerOn => exact .inr (State.resetNext_of_powerOn hi)
  | ctrl addr v ho hv => rw [State.writeCtrl_eq _ v hv]; exact .inl rfl
  | _ => exact .inl rfl

/-- On the host's side only a reset or an idle write to PC changes PC (R46). -/
theorem HostEffect.pc {ev : HostEvent} (hi : s.inputs = ev :: rest) (h : HostEffect { s with inputs := rest } ev t) :
    t.pc = s.pc ∨ State.ResetNext s ∨
      (s.busy = false ∧ ∃ (addr : Nat) (v : Word), s.inputs.head? = some (.write 4 addr v) ∧
        Config.windowOffset s.cfg addr = some 0x010 ∧ t.pc = BitVec.ofNat 11 v.toNat) := by
  cases h with
  | softReset addr v ho hv => exact .inr (.inl (State.resetNext_of_srst hi ho hv))
  | powerOn => exact .inr (.inl (State.resetNext_of_powerOn hi))
  | pcWritten addr v hb ho => exact .inr (.inr ⟨hb, addr, v, by rw [hi]; rfl, ho, rfl⟩)
  | ctrl addr v ho hv => rw [State.writeCtrl_eq _ v hv]; exact .inl rfl
  | _ => exact .inl rfl

/-- On the host's side only a reset or an idle CTRL.CLR clears HWERR (R451). -/
theorem HostEffect.hwerr {ev : HostEvent} (hi : s.inputs = ev :: rest) (h : HostEffect { s with inputs := rest } ev t)
    (hs : s.hwerr = true) :
    t.hwerr = true ∨ State.ResetNext s ∨ (s.busy = false ∧ ∃ v : Word, State.CtrlNext s v ∧ v.getLsbD 2 = true) := by
  cases h with
  | softReset addr v ho hv => exact .inr (.inl (State.resetNext_of_srst hi ho hv))
  | powerOn => exact .inr (.inl (State.resetNext_of_powerOn hi))
  | ctrl addr v ho hv =>
    have hc := State.ctrlNext_of_write hi ho
    rw [State.writeCtrl_eq _ v hv]
    cases h2 : v.getLsbD 2 with
    | false => exact .inl (by simp [hs])
    | true =>
      cases hb : s.busy with
      | false => exact .inr (.inr ⟨rfl, v, hc, h2⟩)
      | true => exact .inl (by simp)
  | refused => exact .inl rfl
  | answered => exact .inl (by simp [hs])
  | untouched | pcWritten | ioLenWritten | ioWritten | cmdWritten => exact .inl hs

/-! ### The core's turn -/

/-- A fault of the front half is trap entry (R180, R404). -/
theorem step_of_fetch_trap {c : FaultCode} (hu : State.CoreTurn s u) (hb : s.busy = true) (hf : s.fetch = .trap c) :
    step s = .next (u.trap c) := by
  have hbu : u.busy = true := by rw [hu.same]; exact hb
  have hfu : u.fetch = .trap c := by rw [hu.same]; exact hf
  rw [step_of_coreTurn hu, coreStep, if_pos hbu, sequencerStep, hfu]

theorem State.fetch_overrun (hp : cmdWords ≤ s.pc.toNat) : s.fetch = .trap .commandOverrun := if_pos hp

/-- The extension word of a two-word command in the last word of CMDMEM lies beyond it (R402 item 3). -/
theorem State.fetch_overrun_extension {w : Word} {h : Head} (hp : s.pc.toNat < cmdWords) (hp' : cmdWords ≤ s.pc.toNat + 1)
    (hw : s.cmdMem.read? s.pc.toNat = some w) (hd : decodeHead w = .ok h) (h2 : h.words = 2) :
    s.fetch = .trap .commandOverrun := by
  unfold State.fetch
  rw [if_neg (by omega), hw]
  simp only [hd]
  rw [if_neg (by omega), if_pos hp']

theorem State.cmdWord_of_read? {i : Nat} {w : Word} (h : s.cmdMem.read? i = some w) : s.cmdWord i = w := by
  simp [State.cmdWord, h]

/-- A command has one word or two (R140). -/
theorem words_one_or_two (i : Instr) : i.words = 1 ∨ i.words = 2 := by
  unfold Instr.words; split
  · exact .inr rfl
  · exact .inl rfl

/-- PC advances without wrapping when the command lies in CMDMEM (R45). -/
theorem State.advance_pc_toNat {n : Nat} (h : s.pc.toNat + n ≤ cmdWords) : (s.advance n).pc.toNat = s.pc.toNat + n := by
  have hn : s.pc.toNat + n < 2^11 := h.trans_lt (by decide)
  rw [State.advance_pc, BitVec.toNat_add, BitVec.toNat_ofNat, Nat.add_mod_mod, Nat.mod_eq_of_lt hn]

/-- A committed command moves PC by its length, from the PC it was fetched at (R180). -/
theorem Staged.advance_pc_toNat {i : Instr} (h : Staged s i u) (hp : s.pc.toNat + i.words ≤ cmdWords) :
    (u.advance i.words).pc.toNat = s.pc.toNat + i.words := by
  obtain ⟨-, -, -, -, -, -, hpc⟩ := h.report
  rw [← hpc] at hp ⊢
  exact State.advance_pc_toNat hp

/-! ### Unwritten sources -/

/-- A body that reads an unwritten source first raises UnwrittenRegister (R43, R402). -/
theorem source_bind_unwritten {r : RegIdx} (hw : s.regs[r].wr = false) (f : Nat → Except FaultCode State) :
    (s.source r >>= f) = .error .unwrittenRegister := by
  rw [State.source_unwritten hw]; rfl

/-- A body that reads two sources, either of them unwritten, raises UnwrittenRegister. -/
theorem source_bind_pair_unwritten {r ra rb : RegIdx} (hr : r ∈ [ra, rb]) (hw : s.regs[r].wr = false)
    (f : Nat → Nat → Except FaultCode State) :
    (s.source ra >>= fun a => s.source rb >>= f a) = .error .unwrittenRegister := by
  obtain ⟨-, ha⟩ | ⟨ha, -⟩ := s.source_cases ra
  · obtain rfl | hr := List.mem_cons.1 hr
    · exact source_bind_unwritten hw _
    · obtain rfl := List.mem_singleton.1 hr
      rw [ha]; exact source_bind_unwritten hw _
  · exact source_bind_unwritten ha _

/-- A legal command with an unwritten source takes the trap UnwrittenRegister (R43, R402 item 4). -/
theorem traps_unwrittenRegister {i : Instr} {r : RegIdx} (hi : i.WellFormed) (hr : r ∈ i.sources)
    (hw : s.regs[r].wr = false) : Traps i s .unwrittenRegister := by
  cases i with
  | nop | halt | zero | ldi | ldb | rand | rclr => cases hr
  | mov _ ra | stb ra | bittest ra _ | bitlen _ ra | sqr _ ra | mulw _ ra _ | shl _ ra _ | shr _ ra _ | rset _ ra
  | rred _ ra _ | rtom _ ra _ | rfromm _ ra _ | bitset ra _ | bitclr ra _ | inc2 ra | rpowi _ _ ra _ =>
    obtain rfl := List.mem_singleton.1 hr
    exact State.command_traps rfl (source_bind_unwritten hw _)
  | cmp ra rb | add _ ra rb | sub _ ra rb | mul _ ra rb | rmul _ ra rb _ | rdiff _ ra rb _ | rpow _ ra rb _
  | rmmul _ ra rb _ =>
    exact State.command_traps rfl (source_bind_pair_unwritten hr hw _)
  | divrem rd re ra rb =>
    have hne : rd ≠ re := by simpa [Instr.WellFormed, Instr.wellFormed] using hi
    exact State.command_traps rfl ((if_neg hne).trans (source_bind_pair_unwritten hr hw _))

end Sys2Proof.Machine
end

section
/-! SUPPORT. The reset values (10_state.md R60, 70_reset_and_hazards.md R450), and the obligations about resets, CTRL, fetch faults,
written bits, FLAGS, PC and the spaces a command touches. -/

namespace Sys2Proof.Machine

/-- Whatever the memories and the power-on count, a soft reset leaves the reset values. -/
theorem State.softReset_resetValues (s : State) (io : Memory 8) (cmds : Memory 32) (n : Nat) :
    State.ResetValues { s.softReset with ioBuf := io, cmdMem := cmds, epoch := n } where
  regs i := by
    have h : s.softReset.regs[i] = Reg.reset := by simp [State.softReset, State.reset]
    simp only [State.mmioWord, h]
    exact ⟨rfl, rfl, fun j => by simp [Reg.dig, Reg.reset, digit], rfl⟩
  rings r := by
    have h : s.softReset.rings[r] = Ring.cleared := by simp [State.softReset, State.reset]
    simp only [h]
    exact ⟨rfl, rfl, rfl, rfl, rfl, rfl⟩
  flags := (by decide : State.reset.flagsWord = 0)
  pc := rfl
  ie := rfl
  status := ⟨rfl, rfl, rfl, rfl⟩
  faultRegs := ⟨rfl, rfl, rfl⟩
  ioLen := rfl
  scratch := rfl
  irq := rfl

/-- Settles O6: a power-on event and a CTRL write with SRST are taken whatever the state, and leave the reset values. -/
theorem resetsLeaveTheResetValues : Obligations.ResetsLeaveTheResetValues := by
  refine ⟨State.softReset_resetValues State.reset [] [] 0, fun s rest => ⟨fun hi => ?_, fun addr v hi ho hv => ?_⟩⟩
  · exact ⟨_, step_powerOn hi, State.softReset_resetValues _ _ _ _, rfl, rfl, rfl, rfl⟩
  · exact ⟨_, step_softReset hi ho hv, State.softReset_resetValues { s with inputs := rest } s.ioBuf s.cmdMem s.epoch,
      fun _ => rfl, rfl, fun _ => rfl, rfl, rfl, rfl⟩

/-- Settles O52, from the closed form of a CTRL write. -/
theorem ctrlWritesActInOrder : Obligations.CtrlWritesActInOrder := by
  intro s rest addr v hi ho
  refine ⟨step_softReset hi ho, fun hv => ⟨_, step_writeCtrl hi ho, _, _, rfl, rfl, ?_⟩⟩
  rw [State.writeCtrl_eq _ v hv]

/-- Settles O10: both overruns are faults of the fetch, so the step is trap entry. -/
theorem fetchBeyondCommandMemoryOverruns : Obligations.FetchBeyondCommandMemoryOverruns := by
  intro s u hu hb
  have hfaultCmd : (u.trap .commandOverrun).faultCmd = if cmdWords ≤ s.pc.toNat then 0 else s.cmdWord s.pc.toNat := by
    obtain ⟨ins, rfl⟩ := hu.exists_inputs
    simp only [State.trap_faultCmd, true_and]
    rfl
  refine ⟨fun hp => ?_, fun w h hp hp' hw hd h2 => ?_⟩
  · refine ⟨_, step_of_fetch_trap hu hb (State.fetch_overrun hp), u.trap_trapped _, ?_⟩
    rw [hfaultCmd, if_pos hp]
  · refine ⟨_, step_of_fetch_trap hu hb (State.fetch_overrun_extension hp hp' hw hd h2), u.trap_trapped _, ?_⟩
    rw [hfaultCmd, if_neg (by omega), State.cmdWord_of_read? hw]

/-- A host event always answers a next state, and so does the core's turn but at an unwritten word (U5). -/
theorem step_next_or_unwritten (s : State) :
    (∃ t, step s = .next t) ∨ (s.busy = true ∧ ∃ n, step s = .refused (.unwrittenCommandWord n) ∧ n < cmdWords ∧
      s.cmdMem.read? n = none ∧ (n = s.pc.toNat ∨ n = s.pc.toNat + 1)) := by
  obtain ⟨u, hu, hs⟩ | ⟨ev, rest, t, -, -, hs, -⟩ := step_cases s
  · rw [hs]
    obtain ⟨ins, rfl⟩ := hu.exists_inputs
    obtain ⟨-, hc⟩ | ⟨-, c, -, hc⟩ | ⟨-, i, v, -, -, hc⟩ | h := coreStep_cases { s with inputs := ins }
    · exact .inl ⟨_, hc⟩
    · exact .inl ⟨_, hc⟩
    · exact .inl ⟨_, hc⟩
    · exact .inr h
  · exact .inl ⟨t, hs⟩

/-- Settles O11: the one refusal is at an unwritten word, and the model has no fault of its own. -/
theorem stepStopsOnlyAtAnUnwrittenCommandWord : Obligations.StepStopsOnlyAtAnUnwrittenCommandWord := by
  intro s
  refine ⟨nofun, fun r hr => ?_, fun hall => ?_⟩
  · obtain ⟨t, hs⟩ | ⟨hb, n, hs, hn⟩ := step_next_or_unwritten s <;> rw [hs] at hr
    · cases hr
    · injection hr with hr
      exact ⟨hb, n, hr.symm, hn⟩
  · obtain h | ⟨-, n, -, hn, hnone, -⟩ := step_next_or_unwritten s
    · exact h
    · obtain ⟨w, hw⟩ := hall n hn
      rw [hnone] at hw; cases hw

/-- A command that changes a register leaves it written (R43). -/
theorem exec_wr_of_changed {i : Instr} {s t : State} {j : RegIdx} (h : exec i s = .next t) (hne : t.regs[j] ≠ s.regs[j]) :
    t.regs[j].wr = true := by
  obtain ⟨c, -, rfl⟩ | ⟨u, hu, rfl⟩ := exec_next_cases h
  · exact absurd rfl hne
  · obtain hj | ⟨v, x, hj, -⟩ := hu.reg j
    · exact absurd hj hne
    · exact congrArg Reg.wr hj

/-- A step that clears a written bit is a reset (R43). -/
theorem resetNext_of_wr_cleared {s t : State} {j : RegIdx} (h : step s = .next t) (hs : s.regs[j].wr = true)
    (ht : t.regs[j].wr = false) : State.ResetNext s := by
  have hkept : t.regs[j] ≠ s.regs[j] := fun he => by rw [he, hs] at ht; cases ht
  obtain ⟨u, hu, -, rfl⟩ | ⟨u, c, hu, -, -, rfl⟩ | ⟨u, i, v, hu, -, hv, -, rfl⟩ | ⟨ev, rest, hi, -, he⟩ := step_next_cases h
  · obtain ⟨ins, rfl⟩ := hu.exists_inputs; exact absurd rfl hkept
  · obtain ⟨ins, rfl⟩ := hu.exists_inputs; exact absurd rfl hkept
  · obtain ⟨ins, rfl⟩ := hu.exists_inputs
    obtain hj | ⟨w, x, hj, -⟩ := hv.reg j
    · exact absurd hj hkept
    · exact absurd (congrArg Reg.wr hj) (by rw [State.advance_regs] at ht; rw [ht]; nofun)
  · obtain hr | hr := he.regs hi
    · exact absurd (by rw [hr]) hkept
    · exact hr

/-- Settles O14. -/
theorem writtenBitsAreSetByWritesAndClearedByReset : Obligations.WrittenBitsAreSetByWritesAndClearedByReset := by
  refine ⟨fun s t j hr h => ?_, fun i s t j => exec_wr_of_changed, fun s t j => resetNext_of_wr_cleared,
    fun i s r hi hr hw => traps_unwrittenRegister hi hr hw⟩
  obtain ⟨rest, hs | hs⟩ := hr.step_eq <;> rw [hs] at h <;> injection h with h <;> subst h
  · exact ((State.softReset_resetValues { s with inputs := rest } _ _ _).regs j).1
  · exact ((State.softReset_resetValues { s with inputs := rest } [] [] _).regs j).1

/-- Settles O15, by the FLAGS of a staged state. -/
theorem onlyCmpAndBittestWriteFlags : Obligations.OnlyCmpAndBittestWriteFlags := by
  intro i s t h hne
  obtain ⟨c, -, rfl⟩ | ⟨u, hu, rfl⟩ := exec_next_cases h
  · exact absurd rfl hne
  · rw [State.advance_flags] at hne ⊢
    obtain hf | ⟨ra, rb, a, b, rfl, hf⟩ | ⟨ra, imm, a, rfl, hf⟩ := hu.flags
    · exact absurd hf hne
    · exact .inl ⟨ra, rb, rfl, by rw [hf]; rfl⟩
    · exact .inr ⟨ra, imm, rfl, by rw [hf]; exact ⟨rfl, rfl, rfl⟩⟩

/-- Settles O18, by what a staged state can change. -/
theorem onlyNamedCommandsTouchRingsIobufAndEntropy : Obligations.OnlyNamedCommandsTouchRingsIobufAndEntropy := by
  intro i s t h
  obtain ⟨c, -, rfl⟩ | ⟨u, hu, rfl⟩ := exec_next_cases h
  · refine ⟨fun r hne => absurd rfl hne, fun hne => ?_, fun hne => absurd rfl hne, (s.trap_trapped c).outside⟩
    obtain ⟨j, hj⟩ | hl := hne
    · exact absurd rfl hj
    · exact absurd rfl hl
  · have hout := hu.outside
    refine ⟨fun r hne => ?_, fun hne => ?_, fun hne => ?_,
      ⟨hout.cfg, hout.cmdMem, hout.cmdWord, hout.inputs, hout.responses, hout.epoch⟩⟩
    · obtain hr | ⟨ra, rfl, -⟩ | ⟨rfl, -⟩ := hu.ring r
      · exact absurd hr hne
      · exact .inl ⟨ra, rfl⟩
      · exact .inr rfl
    · obtain ⟨hb, hl⟩ | ⟨ra, rfl, -⟩ := hu.io
      · obtain ⟨j, hj⟩ | hl' := hne
        · exact absurd (State.ioByte_congr hb hout.epoch j) hj
        · exact absurd hl hl'
      · exact ⟨ra, rfl⟩
    · obtain hd | ⟨rd, imm, rfl, h0, hd⟩ := hu.draws
      · exact absurd hd hne
      · exact ⟨rd, imm, rfl, h0, hd⟩

/-- Settles O19, by the cases of a step. -/
theorem pcMovesByCommandsHostWritesAndResetOnly : Obligations.PcMovesByCommandsHostWritesAndResetOnly := by
  intro s t h
  obtain ⟨u, hu, hb, rfl⟩ | ⟨u, c, hu, -, -, rfl⟩ | ⟨u, i, v, hu, hb, hv, hp, rfl⟩ | ⟨ev, rest, hi, hev, he⟩ := step_next_cases h
  · obtain ⟨ins, rfl⟩ := hu.exists_inputs
    exact ⟨fun _ _ hb' => absurd (hb.symm.trans hb') nofun, fun hne => absurd rfl hne⟩
  · obtain ⟨ins, rfl⟩ := hu.exists_inputs
    exact ⟨fun _ _ _ hb' => absurd hb' nofun, fun hne => absurd rfl hne⟩
  · have hpc : u.pc = s.pc := by rw [hu.same]
    have hadv := hv.advance_pc_toNat hp
    have hwords := words_one_or_two i
    rw [hpc] at hadv hp
    exact ⟨fun _ _ _ _ => by omega, fun _ => .inr (.inl ⟨hb, ⟨u, hu⟩, by omega⟩)⟩
  · refine ⟨fun _ hu => absurd (hu.not_event hi) hev, fun hne => ?_⟩
    obtain hpc | hr | hw := he.pc hi
    · exact absurd hpc hne
    · exact .inl hr
    · exact .inr (.inr hw)

end Sys2Proof.Machine
end

section
/-! SUPPORT. Host writes (10_state.md R46; 20_memory.md R103 to R109; 70_reset_and_hazards.md R451): the targets of the offsets, the
four bytes of an IOBUF word, and what a write stores. -/

namespace Sys2Proof.Machine

variable {s : State}

/-! ### The targets of the offsets (R106) -/

/-- Below 0x030 stand registers, IOLEN at 0x020, and no memory. -/
theorem mmioTarget_registers {n off : Nat} (ho : off % 4 = 0) (h : off < 0x030) :
    (mmioTarget n off = .ioLen ↔ off = 0x020) ∧ (∀ j, mmioTarget n off ≠ .ioBuf j) ∧ ∀ i, mmioTarget n off ≠ .cmdMem i := by
  obtain ⟨q, rfl⟩ : ∃ q, off = 4 * q := ⟨off / 4, by omega⟩
  have hq : q < 12 := by omega
  interval_cases q <;> simp [mmioTarget]

/-- Only offset 0x020 is IOLEN. -/
theorem mmioTarget_eq_ioLen {n off : Nat} (ho : off % 4 = 0) : mmioTarget n off = .ioLen ↔ off = 0x020 := by
  by_cases h : off < 0x030
  · exact (mmioTarget_registers ho h).1
  · unfold mmioTarget
    rw [if_neg h]
    split_ifs <;> simp <;> omega

/-- The offsets of IOBUF name its words, and no others do. -/
theorem mmioTarget_eq_ioBuf {n off j : Nat} (ho : off % 4 = 0) :
    mmioTarget n off = .ioBuf j ↔ 0x800 ≤ off ∧ off < 0x800 + n ∧ off < 0x1000 ∧ j = (off - 0x800) / 4 := by
  by_cases h : off < 0x030
  · have := (mmioTarget_registers (n := n) ho h).2.1 j
    simp only [this, false_iff]; omega
  · unfold mmioTarget
    rw [if_neg h]
    split_ifs <;> simp <;> omega

/-- The offsets from 0x1000 on name CMDMEM words, and no others do. -/
theorem mmioTarget_eq_cmdMem {n off i : Nat} (ho : off % 4 = 0) :
    mmioTarget n off = .cmdMem i ↔ 0x1000 ≤ off ∧ i = (off - 0x1000) / 4 := by
  by_cases h : off < 0x030
  · have := (mmioTarget_registers (n := n) ho h).2.2 i
    simp only [this, false_iff]; omega
  · unfold mmioTarget
    rw [if_neg h]
    split_ifs <;> simp <;> omega

/-! ### The four bytes of a word (R103) -/

theorem beValue_wordBytes (v : Word) : BitVec.ofNat 32 (beValue (wordBytes v)) = v := by
  apply BitVec.eq_of_toNat_eq
  have := v.isLt
  simp only [beValue, wordBytes, List.foldl_cons, List.foldl_nil, BitVec.toNat_ofNat, Nat.shiftRight_eq_div_pow]
  omega

/-- Byte `k` of the four bytes stored at `a`. -/
theorem State.ioByte_store (s : State) (a : Nat) (v : Word) {k : Nat} (hk : k < 4) :
    State.ioByte { s with ioBuf := s.ioBuf.writeList a (wordBytes v) } (a + k) = (wordBytes v)[k] := by
  simp [State.ioByte, Memory.read?_writeList_inside s.ioBuf (wordBytes v) hk]

/-- The bytes outside the four stored are as before. -/
theorem State.ioByte_store_outside (s : State) {a j : Nat} (v : Word) (h : j < a ∨ a + 4 ≤ j) :
    State.ioByte { s with ioBuf := s.ioBuf.writeList a (wordBytes v) } j = s.ioByte j := by
  simp [State.ioByte, Memory.read?_writeList_outside s.ioBuf (wordBytes v) h]

/-- A word stored in IOBUF reads back. -/
theorem State.ioWord_store (s : State) (j : Nat) (v : Word) :
    State.ioWord { s with ioBuf := s.ioBuf.writeList (4 * j) (wordBytes v) } j = v := by
  have h0 := s.ioByte_store (4 * j) v (k := 0) (by decide)
  have h1 := s.ioByte_store (4 * j) v (k := 1) (by decide)
  have h2 := s.ioByte_store (4 * j) v (k := 2) (by decide)
  have h3 := s.ioByte_store (4 * j) v (k := 3) (by decide)
  unfold State.ioWord
  rw [Nat.add_zero] at h0
  rw [h0, h1, h2, h3]
  exact beValue_wordBytes v

/-! ### What a write does, by its offset -/

theorem State.writeOffset_misused {bytes off : Nat} {v : Word} (h : bytes ≠ 4 ∨ off % 4 ≠ 0) :
    s.writeOffset bytes off v = s.setHwerr :=
  if_pos (by simpa [accessOk, imp_iff_not_or] using h)

/-- An aligned 32-bit write to something other than CTRL: refused while busy, stored while idle (R109, R451). -/
theorem State.writeOffset_aligned {off : Nat} {v : Word} (ho : off % 4 = 0) (h4 : off ≠ 0x004) :
    s.writeOffset 4 off v = if s.busy then s.setHwerr else s.writeIdle v (mmioTarget s.ioBytes off) := by
  unfold State.writeOffset
  rw [if_neg (by simp [accessOk, ho]), if_neg (mt (mmioTarget_eq_ctrl ho).1 h4)]

/-- A write to a read-only register or a reserved offset is ignored (R108). -/
theorem State.writeIdle_ignored {target : MmioTarget} (v : Word) (hpc : target ≠ .pc) (hlen : target ≠ .ioLen)
    (hio : ∀ j, target ≠ .ioBuf j) (hcmd : ∀ i, target ≠ .cmdMem i) : s.writeIdle v target = s := by
  cases target with
  | pc => exact absurd rfl hpc
  | ioLen => exact absurd rfl hlen
  | ioBuf j => exact absurd rfl (hio j)
  | cmdMem i => exact absurd rfl (hcmd i)
  | _ => rfl

/-- An idle write to IOBUF stores the word's four bytes there and nothing else (R103). -/
theorem State.writeIdle_ioBuf_spec (s : State) (v : Word) (j : Nat) :
    (s.writeIdle v (.ioBuf j)).mmioWord (.ioBuf j) = v ∧
    (∀ a, a < 4 * j ∨ 4 * j + 4 ≤ a → (s.writeIdle v (.ioBuf j)).ioByte a = s.ioByte a) ∧
    s.writeIdle v (.ioBuf j) = { s with ioBuf := (s.writeIdle v (.ioBuf j)).ioBuf } :=
  ⟨s.ioWord_store j v, fun _ ha => s.ioByte_store_outside v ha, rfl⟩

/-- An idle write to CMDMEM stores the word there, for reads and for fetches, and nothing else (R105). -/
theorem State.writeIdle_cmdMem_spec (s : State) (v : Word) (k : Nat) :
    (s.writeIdle v (.cmdMem k)).cmdWord k = v ∧ (s.writeIdle v (.cmdMem k)).cmdMem.read? k = some v ∧
    (∀ i, i ≠ k → (s.writeIdle v (.cmdMem k)).cmdWord i = s.cmdWord i ∧
      (s.writeIdle v (.cmdMem k)).cmdMem.read? i = s.cmdMem.read? i) ∧
    s.writeIdle v (.cmdMem k) = { s with cmdMem := (s.writeIdle v (.cmdMem k)).cmdMem } := by
  have hother : ∀ i, i ≠ k → (s.cmdMem.write k v).read? i = s.cmdMem.read? i := fun i hi => Memory.read?_write_ne _ v hi
  refine ⟨?_, Memory.read?_write_self _ k v, fun i hi => ⟨?_, hother i hi⟩, rfl⟩
  · exact State.cmdWord_of_read? (Memory.read?_write_self _ k v)
  · simp [State.cmdWord, State.writeIdle, hother i hi]

/-- A step that clears HWERR is a reset or an idle CTRL.CLR (R451). -/
theorem reset_or_clear_of_hwerr_cleared {s t : State} (h : step s = .next t) (hs : s.hwerr = true) (ht : t.hwerr = false) :
    State.ResetNext s ∨ (s.busy = false ∧ ∃ v : Word, State.CtrlNext s v ∧ v.getLsbD 2 = true) := by
  have hkept : t.hwerr ≠ s.hwerr := by rw [hs, ht]; nofun
  obtain ⟨u, hu, -, rfl⟩ | ⟨u, c, hu, -, -, rfl⟩ | ⟨u, i, v, hu, -, hv, -, rfl⟩ | ⟨ev, rest, hi, -, he⟩ := step_next_cases h
  · obtain ⟨ins, rfl⟩ := hu.exists_inputs; exact absurd rfl hkept
  · obtain ⟨ins, rfl⟩ := hu.exists_inputs; exact absurd rfl hkept
  · obtain ⟨ins, rfl⟩ := hu.exists_inputs
    exact absurd hv.report.2.1 hkept
  · obtain hw | hr := he.hwerr hi hs
    · exact absurd (hw.symm.trans ht) nofun
    · exact hr

/-- Settles O53, offset by offset. -/
theorem hostWritesStoreOrAreRefused : Obligations.HostWritesStoreOrAreRefused := by
  refine ⟨fun s rest bytes addr off v hi hoff => ⟨fun h => ?_, fun h4 ho hctrl => ⟨fun hb => ?_, fun hb => ?_⟩⟩,
    fun s t => reset_or_clear_of_hwerr_cleared⟩
  · rw [step_write hi hoff, State.writeOffset_misused h]; rfl
  · subst h4
    rw [step_write hi hoff, State.writeOffset_aligned ho hctrl, if_pos hb]; rfl
  · subst h4
    have hstep : step s = .next (State.writeIdle { s with inputs := rest } v (mmioTarget s.ioBytes off)) := by
      rw [step_write hi hoff, State.writeOffset_aligned ho hctrl, if_neg (by rw [hb]; nofun)]; rfl
    refine ⟨fun h => ?_, fun h => ?_, fun h1 h2 h3 => ?_, fun h1 => ?_, fun hpc hlen hr => ?_⟩
    · rw [hstep, (mmioTarget_eq_pc ho).2 h]; rfl
    · rw [hstep, (mmioTarget_eq_ioLen ho).2 h]; rfl
    · rw [(mmioTarget_eq_ioBuf ho).2 ⟨h1, h2, h3, rfl⟩] at hstep
      obtain ⟨hv, hbytes, heq⟩ := State.writeIdle_ioBuf_spec { s with inputs := rest } v ((off - 0x800) / 4)
      exact ⟨_, hstep, hv, fun a ha => hbytes a (by omega), heq⟩
    · rw [(mmioTarget_eq_cmdMem ho).2 ⟨h1, rfl⟩] at hstep
      exact ⟨_, hstep, State.writeIdle_cmdMem_spec { s with inputs := rest } v ((off - 0x1000) / 4)⟩
    · rw [hstep, State.writeIdle_ignored v (mt (mmioTarget_eq_pc ho).1 hpc) (mt (mmioTarget_eq_ioLen ho).1 hlen)
        (fun j hj => by have := (mmioTarget_eq_ioBuf ho).1 hj; omega)
        (fun i hc => by have := (mmioTarget_eq_cmdMem ho).1 hc; omega)]

end Sys2Proof.Machine
end

section
/-! SUPPORT. The registers as the host reads them (10_state.md R50, R53; 60_exceptions.md R401): each bit of a register word. -/

namespace Sys2Proof.Machine

variable {s : State}

/-- A word with one bit placed has that bit alone. -/
@[simp] theorem getLsbD_bitAt (b : Bool) {i : Nat} (hi : i < 32) (n : Nat) :
    (bitAt b i).getLsbD n = (decide (n = i) && b) := by
  cases b with
  | false => simp [bitAt]
  | true =>
    simp only [bitAt, if_true, BitVec.getLsbD_ofNat, Nat.testBit_two_pow, Bool.and_true]
    by_cases h : n = i
    · subst h; simp [hi]
    · simp [h, Ne.symm h]

/-- A bit of a word gathered from several words is set if it is set in one of them. -/
theorem getLsbD_foldl_or {α : Type} (f : α → Word) (l : List α) (w : Word) (n : Nat) :
    (l.foldl (fun acc a => acc ||| f a) w).getLsbD n = (w.getLsbD n || l.any fun a => (f a).getLsbD n) := by
  induction l generalizing w with
  | nil => simp
  | cons a l ih => simp [ih, Bool.or_assoc]

/-- Bit `n` of REGWR is the WR of the register of that number. -/
theorem State.getLsbD_regWrWord (s : State) (n : Nat) :
    s.regWrWord.getLsbD n = true ↔ ∃ i : RegIdx, n = i.val ∧ s.regs[i].wr = true := by
  unfold State.regWrWord
  rw [getLsbD_foldl_or]
  simp (disch := omega) [getLsbD_bitAt]

/-- Bit `n` of RINGSTAT is the VALID of ring `n`, or the ODD of ring `n - 4` when it is valid. -/
theorem State.getLsbD_ringStatWord (s : State) (n : Nat) :
    s.ringStatWord.getLsbD n = true ↔
      ∃ r : RingIdx, (n = r.val ∧ s.rings[r].valid = true) ∨ (n = 4 + r.val ∧ s.rings[r].valid = true ∧ s.rings[r].odd = true) := by
  unfold State.ringStatWord
  simp only [BitVec.or_assoc]
  rw [getLsbD_foldl_or]
  simp (disch := omega) [getLsbD_bitAt]

/-- LEN and K of values that fit are at most `MAXW`, so they fit the word that shows them (R8, R42). -/
theorem State.Inv.digitLen_le (h : s.Inv) {v : Nat} (hv : v ≤ s.vmax) : digitLen v ≤ 512 := by
  obtain ⟨h2, h512, -⟩ := h.config
  exact ((digitLen_le_iff (by omega)).2 (le_vmaxOf_iff.1 hv)).trans h512

/-- A length shown while its bit is set, and 0 otherwise, fits the word. -/
theorem toNat_shown {b : Bool} {n : Nat} (h : b = true → n ≤ 512) :
    (if b then BitVec.ofNat 32 n else 0 : Word).toNat = if b then n else 0 := by
  cases b with
  | false => rfl
  | true =>
    have := h rfl
    rw [if_pos rfl, if_pos rfl, BitVec.toNat_ofNat, Nat.mod_eq_of_lt (by omega)]

theorem State.Inv.ringK_word (h : s.Inv) (r : RingIdx) :
    (s.mmioWord (.ringK r)).toNat = if s.rings[r].valid then s.rings[r].k else 0 := by
  refine toNat_shown fun hv => ?_
  obtain ⟨heq, -, hm⟩ := h.ring_eq hv
  have hk : s.rings[r].k = digitLen s.rings[r].m := congrArg Ring.k heq
  rw [hk]; exact h.digitLen_le hm

theorem State.Inv.regLen_word (h : s.Inv) (i : RegIdx) :
    (s.mmioWord (.regLen i)).toNat = if s.regs[i].wr then s.regs[i].len else 0 := by
  refine toNat_shown fun hw => ?_
  rw [(h.regs i).normalized hw]; exact h.digitLen_le (h.val_le i)

/-- PARAM shows MAXW below CMDW (R53). -/
theorem State.Inv.paramWord_toNat (h : s.Inv) : s.paramWord.toNat = 1024 * 2^16 + s.cfg.maxw := by
  obtain ⟨-, h512, -⟩ := h.config
  rw [State.paramWord, BitVec.toNat_ofNat, Nat.mod_eq_of_lt (by unfold cmdWords; omega)]

/-- A field of at most 32 bits reads as its value. -/
theorem toNat_ofNat_toNat {w : Nat} (hw : w ≤ 32) (x : BitVec w) : (BitVec.ofNat 32 x.toNat).toNat = x.toNat := by
  rw [BitVec.toNat_ofNat]
  exact Nat.mod_eq_of_lt (x.isLt.trans_le (Nat.pow_le_pow_right (by decide) hw))

/-- Bit `r` of RINGSTAT is VALID of ring `r` (R53). -/
theorem State.ringStatWord_valid (s : State) (r : RingIdx) : s.ringStatWord.getLsbD r.val = s.rings[r].valid := by
  rw [Bool.eq_iff_iff, State.getLsbD_ringStatWord]
  constructor
  · rintro ⟨q, ⟨hq, hv⟩ | ⟨hq, -⟩⟩
    · rw [Fin.ext hq]; exact hv
    · omega
  · exact fun hv => ⟨r, .inl ⟨rfl, hv⟩⟩

/-- Bit `4 + r` of RINGSTAT is ODD of ring `r`, 0 when the ring is invalid (R53). -/
theorem State.ringStatWord_odd (s : State) (r : RingIdx) :
    s.ringStatWord.getLsbD (4 + r.val) = (s.rings[r].valid && s.rings[r].odd) := by
  rw [Bool.eq_iff_iff, State.getLsbD_ringStatWord, Bool.and_eq_true]
  constructor
  · rintro ⟨q, ⟨hq, -⟩ | ⟨hq, hv⟩⟩
    · omega
    · have hqr : r = q := Fin.ext (by omega)
      rw [hqr]; exact hv
  · exact fun hv => ⟨r, .inr ⟨rfl, hv⟩⟩

theorem State.ringStatWord_above (s : State) {n : Nat} (hn : 8 ≤ n) : s.ringStatWord.getLsbD n = false := by
  rw [Bool.eq_false_iff, ne_eq, State.getLsbD_ringStatWord]
  rintro ⟨q, ⟨hq, -⟩ | ⟨hq, -⟩⟩ <;> omega

/-- Bit `i` of REGWR is WR of register `i` (R53). -/
theorem State.regWrWord_wr (s : State) (i : RegIdx) : s.regWrWord.getLsbD i.val = s.regs[i].wr := by
  rw [Bool.eq_iff_iff, State.getLsbD_regWrWord]
  constructor
  · rintro ⟨j, hj, hw⟩
    rw [Fin.ext hj]; exact hw
  · exact fun hw => ⟨i, rfl, hw⟩

theorem State.regWrWord_above (s : State) {n : Nat} (hn : 16 ≤ n) : s.regWrWord.getLsbD n = false := by
  rw [Bool.eq_false_iff, ne_eq, State.getLsbD_regWrWord]
  rintro ⟨j, hj, -⟩
  omega

/-- Settles O56, register by register. -/
theorem registersReadAsTheirFields : Obligations.RegistersReadAsTheirFields := by
  intro s hs
  refine ⟨rfl, fun n => getLsbD_bitAt s.ie (by decide) n, fun n => ?_, fun n => ?_, toNat_ofNat_toNat (by decide) s.pc, ?_,
    toNat_ofNat_toNat (by decide) s.faultPc, rfl, toNat_ofNat_toNat (by decide) s.ioLen,
    fun r => ⟨s.ringStatWord_valid r, s.ringStatWord_odd r⟩, fun n => s.ringStatWord_above, s.regWrWord_wr,
    fun n => s.regWrWord_above, hs.paramWord_toNat, hs.ringK_word, hs.regLen_word, rfl,
    fun i => ⟨rfl, fun w hw => State.cmdWord_of_read? hw⟩⟩
  · simp [State.mmioWord, State.statusWord, State.irq]
  · simp [State.mmioWord, State.flagsWord]
  · unfold State.mmioWord
    cases s.faultCode <;> rfl

end Sys2Proof.Machine
end

section
/-! SUPPORT. The MMIO map, host reads and IOBUF words (20_memory.md R103, R106 to R110; 70_reset_and_hazards.md R452): the target of
each listed offset, the three ways a read is answered, and the bytes of a word stored in IOBUF. -/

namespace Sys2Proof.Machine

variable {s : State}

/-! ### The targets of the listed offsets (R106) -/

theorem mmioTarget_ringK (n : Nat) (r : RingIdx) : mmioTarget n (0x030 + 4 * r.val) = .ringK r := by
  have hr := r.isLt
  have hword : (0x030 + 4 * r.val - 0x030) / 4 = r.val := by omega
  unfold mmioTarget
  rw [if_neg (by omega), if_pos (by omega), hword, Fin.ofNat_val_eq_self]

theorem mmioTarget_regLen (n : Nat) (i : RegIdx) : mmioTarget n (0x040 + 4 * i.val) = .regLen i := by
  have hi := i.isLt
  have hword : (0x040 + 4 * i.val - 0x040) / 4 = i.val := by omega
  unfold mmioTarget
  rw [if_neg (by omega), if_neg (by omega), if_pos (by omega), hword, Fin.ofNat_val_eq_self]

/-- The gap between the registers and IOBUF is reserved. -/
theorem mmioTarget_belowIoBuf {n off : Nat} (h1 : 0x080 ≤ off) (h2 : off < 0x800) : mmioTarget n off = .reserved := by
  unfold mmioTarget
  rw [if_neg (by omega), if_neg (by omega), if_neg (by omega), if_pos h2]

/-- The gap between IOBUF and CMDMEM is reserved. -/
theorem mmioTarget_aboveIoBuf {n off : Nat} (h1 : 0x800 + n ≤ off) (h2 : off < 0x1000) : mmioTarget n off = .reserved := by
  unfold mmioTarget
  rw [if_neg (by omega), if_neg (by omega), if_neg (by omega), if_neg (by omega), if_neg (by omega), if_neg (by omega)]

/-- Word `j` of IOBUF stands at 0x800 + 4j, when IOBUF ends below CMDMEM (R103). -/
theorem mmioTarget_ioBuf {n j : Nat} (hj : 4 * j < n) (hn : n ≤ 0x800) : mmioTarget n (0x800 + 4 * j) = .ioBuf j :=
  (mmioTarget_eq_ioBuf (by omega)).2 (by omega)

theorem mmioTarget_cmdMem (n i : Nat) : mmioTarget n (0x1000 + 4 * i) = .cmdMem i :=
  (mmioTarget_eq_cmdMem (by omega)).2 (by omega)

/-- Settles O55: the registers by computing the map at their offsets, the rest range by range. -/
theorem mmioMapHasTheListedOffsets : Obligations.MmioMapHasTheListedOffsets :=
  ⟨fun n hn => ⟨rfl, rfl, rfl, rfl, rfl, rfl, rfl, rfl, rfl, rfl, rfl, rfl, mmioTarget_ringK n, mmioTarget_regLen n,
    fun _ => mmioTarget_belowIoBuf, fun _ hj => mmioTarget_ioBuf hj hn, fun _ => mmioTarget_aboveIoBuf,
    fun i _ => mmioTarget_cmdMem n i⟩,
  fun _ _ _ => windowOffset_eq_some⟩

/-! ### What a read answers, by its offset -/

theorem step_read {rest : List HostEvent} {bytes addr off : Nat} (hi : s.inputs = .read bytes addr :: rest)
    (ho : Config.windowOffset s.cfg addr = some off) :
    step s = .next (State.readOffset { s with inputs := rest } bytes off) := by
  unfold step
  rw [hi]
  simp only [State.hostEvent, ho]

/-- ID, CTRL and STATUS are exact while busy (R110, R452). -/
theorem mmioTarget_exactWhileBusy (n : Nat) {off : Nat} (h : off = 0x000 ∨ off = 0x004 ∨ off = 0x008) :
    (mmioTarget n off).exactWhileBusy = true := by
  obtain rfl | rfl | rfl := h <;> rfl

/-- A read of another width, or misaligned, answers an unspecified word and sets HWERR (R107). -/
theorem State.readOffset_misused {bytes off : Nat} (h : bytes ≠ 4 ∨ off % 4 ≠ 0) :
    s.readOffset bytes off = s.respondFree.setHwerr :=
  if_pos (by simpa [accessOk, imp_iff_not_or] using h)

/-- An aligned 32-bit read answers the contents or, while busy and of a target that is not exact then, an unspecified word
(R110, R452). -/
theorem State.readOffset_aligned {off : Nat} (ho : off % 4 = 0) :
    s.readOffset 4 off = if s.busy && !(mmioTarget s.ioBytes off).exactWhileBusy then s.respondFree
      else s.respond (s.mmioWord (mmioTarget s.ioBytes off)) :=
  if_neg (by simp [accessOk, ho])

/-- Settles O54, by the three ways a read is answered. -/
theorem hostReadsAnswerAndChangeNothing : Obligations.HostReadsAnswerAndChangeNothing := by
  intro s rest bytes addr off hi hoff
  by_cases hbad : bytes ≠ 4 ∨ off % 4 ≠ 0
  · have hstep := step_read hi hoff
    rw [State.readOffset_misused hbad] at hstep
    refine ⟨_, Config.busRead s.frees, hstep, ?_, fun h4 ho => (hbad.elim (· h4) (· ho)).elim⟩
    rw [decide_eq_true hbad, Bool.or_true]; rfl
  · obtain ⟨rfl, ho⟩ : bytes = 4 ∧ off % 4 = 0 := by omega
    have hstep := step_read hi hoff
    rw [State.readOffset_aligned ho] at hstep
    rw [decide_eq_false hbad, Bool.or_false]
    split at hstep
    · next hfree =>
      rw [Bool.and_eq_true, Bool.not_eq_true'] at hfree
      obtain ⟨hbusy, hinexact⟩ := hfree
      refine ⟨_, Config.busRead s.frees, hstep, rfl, fun _ _ h => ?_⟩
      obtain hidle | hreg := h
      · exact absurd (hbusy.symm.trans hidle) nofun
      · exact absurd ((mmioTarget_exactWhileBusy _ hreg).symm.trans hinexact) nofun
    · exact ⟨_, _, hstep, rfl, fun _ _ _ => rfl⟩

/-! ### The bytes of an IOBUF word (R103) -/

theorem State.ioWord_toNat (s : State) (j : Nat) :
    (s.ioWord j).toNat = (s.ioByte (4 * j)).toNat * 2^24 + (s.ioByte (4 * j + 1)).toNat * 2^16 +
      (s.ioByte (4 * j + 2)).toNat * 2^8 + (s.ioByte (4 * j + 3)).toNat := by
  have h0 := (s.ioByte (4 * j)).isLt
  have h1 := (s.ioByte (4 * j + 1)).isLt
  have h2 := (s.ioByte (4 * j + 2)).isLt
  have h3 := (s.ioByte (4 * j + 3)).isLt
  simp only [State.ioWord, beValue, List.foldl_cons, List.foldl_nil, BitVec.toNat_ofNat]
  omega

/-- Byte `k` of a word, counted from the most significant. -/
theorem wordBytes_toNat (v : Word) {k : Nat} (hk : k < 4) : (wordBytes v)[k].toNat = v.toNat / 2^(24 - 8 * k) % 2^8 := by
  interval_cases k <;> simp [wordBytes, Nat.shiftRight_eq_div_pow]

theorem State.ioByte_store_toNat (s : State) (a : Nat) (v : Word) {k : Nat} (hk : k < 4) :
    (State.ioByte { s with ioBuf := s.ioBuf.writeList a (wordBytes v) } (a + k)).toNat = v.toNat / 2^(24 - 8 * k) % 2^8 := by
  rw [State.ioByte_store s a v hk, wordBytes_toNat v hk]

/-- An idle write at the offset of an IOBUF word is a store of that word. -/
theorem step_writeIoBuf {rest : List HostEvent} {addr j : Nat} {v : Word} (hi : s.inputs = .write 4 addr v :: rest)
    (hoff : Config.windowOffset s.cfg addr = some (0x800 + 4 * j)) (hj : 4 * j < s.ioBytes) (hn : s.ioBytes ≤ 0x800)
    (hb : s.busy = false) : step s = .next (State.writeIdle { s with inputs := rest } v (.ioBuf j)) := by
  rw [step_write hi hoff, State.writeOffset_aligned (by omega) (by omega), if_neg (by rw [hb]; nofun), ← mmioTarget_ioBuf hj hn]
  rfl

/-- Settles O57, byte by byte of the stored word. -/
theorem iobufWordsArePackedBigEndian : Obligations.IobufWordsArePackedBigEndian := by
  refine ⟨State.ioWord_toNat, fun s rest addr j v hi hoff hj hn hb => ?_⟩
  obtain ⟨hread, houtside, hframe⟩ := State.writeIdle_ioBuf_spec { s with inputs := rest } v j
  have hbyte {k : Nat} (hk : k < 4) := State.ioByte_store_toNat { s with inputs := rest } (4 * j) v hk
  have htop : v.toNat / 2^24 % 2^8 = v.toNat / 2^24 := Nat.mod_eq_of_lt (by have := v.isLt; omega)
  have hlow : v.toNat / 2^0 % 2^8 = v.toNat % 2^8 := by rw [Nat.pow_zero, Nat.div_one]
  exact ⟨_, step_writeIoBuf hi hoff hj hn hb, hread, (hbyte (k := 0) (by decide)).trans htop, hbyte (k := 1) (by decide),
    hbyte (k := 2) (by decide), (hbyte (k := 3) (by decide)).trans hlow, houtside, hframe⟩

end Sys2Proof.Machine
end

section
/-! SUPPORT. Strict decoding by the rows of the opcode map (30_encoding.md R141, R146 to R148): the row of a word, what the decoder
answers for it, and the row's match and mask columns, which select the same words. -/

namespace Sys2Proof

/-! ### The row of an opcode -/

/-- The opcodes of the map are distinct (R146). -/
theorem opcodeMap_nodup : (opcodeMap.map OpcodeRow.opc).Nodup := by decide

/-- A row is the one the decoder finds for the row's opcode. -/
theorem find?_opc_of_mem {row : OpcodeRow} (hrow : row ∈ opcodeMap) : opcodeMap.find? (fun r => r.opc == row.opc) = some row := by
  cases hf : opcodeMap.find? (fun r => r.opc == row.opc) with
  | none => exact absurd (beq_self_eq_true row.opc) (List.find?_eq_none.1 hf row hrow)
  | some r =>
    have ho : r.opc = row.opc := by simpa using List.find?_some hf
    rw [List.inj_on_of_nodup_map opcodeMap_nodup (List.mem_of_find?_eq_some hf) hrow ho]

/-- What the decoder answers for a word with a listed opcode (R147 points 2 to 4). -/
theorem decodeHead_of_row {row : OpcodeRow} {w : Word} (hrow : row ∈ opcodeMap) (ho : row.opc = opcOf w) :
    decodeHead w =
      if row.format.unusedZero (fieldsOf w) = false then .error .unusedField
      else if reservedBitsOf w ≠ 0 then .error .reservedBits
      else if row.format = .deab ∧ regField w 22 = regField w 8 then .error .sameDestinations
      else .ok { format := row.format, instr := row.build (fieldsOf w) } := by
  unfold decodeHead
  rw [← ho, find?_opc_of_mem hrow]
  rfl

/-- A word with an unlisted opcode is refused (R147 point 1). -/
theorem decodeHead_of_unlisted {w : Word} (h : ∀ row ∈ opcodeMap, row.opc ≠ opcOf w) : decodeHead w = .error .reservedOpcode := by
  have hf : opcodeMap.find? (fun r => r.opc == opcOf w) = none := List.find?_eq_none.2 fun row hrow => by simpa using h row hrow
  unfold decodeHead
  rw [hf]

/-- The four reasons to refuse a word, and no other (R147). -/
theorem decodeHead_error_iff (w : Word) :
    (∃ e, decodeHead w = .error e) ↔
      (∀ row ∈ opcodeMap, row.opc ≠ opcOf w) ∨
      ∃ row ∈ opcodeMap, row.opc = opcOf w ∧
        (row.format.unusedZero (fieldsOf w) = false ∨ reservedBitsOf w ≠ 0 ∨
          (row.format = .deab ∧ regField w 22 = regField w 8)) := by
  constructor
  · rintro ⟨e, he⟩
    by_cases hno : ∀ row ∈ opcodeMap, row.opc ≠ opcOf w
    · exact .inl hno
    · push Not at hno
      obtain ⟨row, hrow, ho⟩ := hno
      refine .inr ⟨row, hrow, ho, ?_⟩
      rw [decodeHead_of_row hrow ho] at he
      split_ifs at he with h1 h2 h3
      · exact .inl h1
      · exact .inr (.inl h2)
      · exact .inr (.inr h3)
  · rintro (hno | ⟨row, hrow, ho, hbad⟩)
    · exact ⟨_, decodeHead_of_unlisted hno⟩
    · rw [decodeHead_of_row hrow ho]
      split_ifs with h1 h2 h3
      · exact ⟨_, rfl⟩
      · exact ⟨_, rfl⟩
      · exact ⟨_, rfl⟩
      · exact absurd hbad (by simp [h1, h2, h3])

/-! ### Bitwise `and`, field by field (R141) -/

/-- The bitwise `and` of two words' fields. -/
def Fields.and (f g : Fields) : Fields :=
  { rd := f.rd &&& g.rd, ra := f.ra &&& g.ra, rb := f.rb &&& g.rb, rg := f.rg &&& g.rg, re := f.re &&& g.re }

theorem opcOf_and (w m : Word) : opcOf (w &&& m) = opcOf w &&& opcOf m := by
  simp only [opcOf, BitVec.toNat_and, Nat.and_div_two_pow]

theorem reservedBitsOf_and (w m : Word) : reservedBitsOf (w &&& m) = reservedBitsOf w &&& reservedBitsOf m := by
  simp only [reservedBitsOf, BitVec.toNat_and, Nat.and_mod_two_pow]

theorem regField_and (w m : Word) (lo : Nat) : regField (w &&& m) lo = regField w lo &&& regField m lo := by
  ext
  simp only [regField, Fin.val_ofNat, BitVec.toNat_and, Nat.and_div_two_pow, Fin.and_val]
  exact Nat.and_mod_two_pow (n := 4)

theorem ringField_and (w m : Word) : ringField (w &&& m) = ringField w &&& ringField m := by
  ext
  simp only [ringField, Fin.val_ofNat, BitVec.toNat_and, Nat.and_div_two_pow, Fin.and_val]
  exact Nat.and_mod_two_pow (n := 2)

theorem fieldsOf_and (w m : Word) : fieldsOf (w &&& m) = (fieldsOf w).and (fieldsOf m) := by
  simp only [fieldsOf, Fields.and, regField_and, ringField_and]

/-- Words are equal when their opcodes, fields and reserved bits are. -/
theorem word_eq_iff {w v : Word} :
    w = v ↔ opcOf w = opcOf v ∧ fieldsOf w = fieldsOf v ∧ reservedBitsOf w = reservedBitsOf v := by
  refine ⟨fun h => h ▸ ⟨rfl, rfl, rfl⟩, fun ⟨ho, hf, hr⟩ => ?_⟩
  simp only [fieldsOf, Fields.mk.injEq, regField, ringField, Fin.ext_iff, Fin.val_ofNat] at hf
  unfold opcOf at ho
  unfold reservedBitsOf at hr
  apply BitVec.eq_of_toNat_eq
  omega

/-! ### The match and mask columns (R146) -/

/-- The fields of a format's mask: all ones where the format does not use the field. -/
def Format.fieldMask (t : Format) : Fields :=
  { rd := if t.usesRd then 0 else 15, ra := if t.usesRa then 0 else 15, rb := if t.usesRb then 0 else 15,
    rg := if t.usesRg then 0 else 3, re := if t.usesRe then 0 else 15 }

/-- Each row's mask covers OPC, RSV and the fields its format does not use, and its match is its opcode there and 0 elsewhere. -/
theorem opcodeMap_columns : ∀ row ∈ opcodeMap,
    (opcOf row.mask = 63 ∧ fieldsOf row.mask = row.format.fieldMask ∧ reservedBitsOf row.mask = 255) ∧
    (opcOf row.mtch = row.opc ∧ fieldsOf row.mtch = {} ∧ reservedBitsOf row.mtch = 0) := by decide

theorem regMask_zero_iff : ∀ (used : Bool) (x : RegIdx), x &&& (if used then 0 else 15) = 0 ↔ (used || x == 0) = true := by decide

theorem ringMask_zero_iff : ∀ (used : Bool) (x : RingIdx), x &&& (if used then 0 else 3) = 0 ↔ (used || x == 0) = true := by decide

/-- Strict decoding as a mask: under the format's mask nothing is left of the fields. -/
theorem Format.and_fieldMask_iff (t : Format) (f : Fields) : f.and t.fieldMask = {} ↔ t.unusedZero f = true := by
  simp only [Fields.and, Format.fieldMask, Fields.mk.injEq, regMask_zero_iff, ringMask_zero_iff, Format.unusedZero,
    Bool.and_eq_true, and_assoc]

/-- A word meets a row's match and mask exactly when it has the row's opcode and zero in RSV and in each unused field (R146,
R147). -/
theorem OpcodeRow.match_iff {row : OpcodeRow} (hrow : row ∈ opcodeMap) (w : Word) :
    w &&& row.mask = row.mtch ↔
      opcOf w = row.opc ∧ row.format.unusedZero (fieldsOf w) = true ∧ reservedBitsOf w = 0 := by
  obtain ⟨⟨hmo, hmf, hmr⟩, hto, htf, htr⟩ := opcodeMap_columns row hrow
  have hopc : opcOf w &&& 63 = opcOf w :=
    Nat.and_two_pow_sub_one_of_lt_two_pow (n := 6) (by have := w.isLt; unfold opcOf; omega)
  have hrsv : reservedBitsOf w &&& 255 = reservedBitsOf w :=
    Nat.and_two_pow_sub_one_of_lt_two_pow (n := 8) (Nat.mod_lt _ (by decide))
  rw [word_eq_iff, opcOf_and, fieldsOf_and, reservedBitsOf_and, hmo, hmf, hmr, hto, htf, htr, hopc, hrsv,
    Format.and_fieldMask_iff]

/-! ### Both words of a command -/

/-- A first word and an extension word side by side, taken apart again (R140). -/
theorem ofNat_wordPair (w ext : Word) :
    BitVec.ofNat 32 (w.toNat + 2^32 * ext.toNat) = w ∧ BitVec.ofNat 32 ((w.toNat + 2^32 * ext.toNat) / 2^32) = ext := by
  have hw := w.isLt
  have hx := ext.isLt
  constructor <;> apply BitVec.eq_of_toNat_eq <;> rw [BitVec.toNat_ofNat] <;> omega

/-- The table word of a first word and an extension word, which is 0 where there is none, decodes as the two words do. -/
theorem decodeTableWord_eq_some {n : Nat} {w ext : Word} {i : Instr} (hn : n = 1 ∧ ext = 0 ∨ n = 2) (h : decode w ext = .ok i) :
    decodeTableWord (32 * n) (w.toNat + 2^32 * ext.toNat) = some i := by
  have hw := w.isLt
  have hx := ext.isLt
  have hlt : w.toNat + 2^32 * ext.toNat < 2^(32 * n) := by
    obtain ⟨rfl, rfl⟩ | rfl := hn
    · simpa using hw
    · omega
  obtain ⟨h1, h2⟩ := ofNat_wordPair w ext
  unfold decodeTableWord
  rw [Nat.mod_eq_of_lt hlt, h1, h2, h]

/-- A command of one word has no extension word (R140, R142). -/
theorem Instr.words_cases (i : Instr) : i.words = 1 ∧ i.parts.2.2 = none ∨ i.words = 2 := by
  unfold Instr.words
  cases i.parts.2.2 with
  | none => exact .inl ⟨rfl, rfl⟩
  | some imm => exact .inr rfl

/-- Every opcode fits its six bits (R141). -/
theorem Instr.opc_lt (i : Instr) : i.parts.1 < 64 := by cases i <;> simp [Instr.parts]

theorem decode_of_head {w ext : Word} {h : Head} (hd : decodeHead w = .ok h) : decode w ext = .ok (h.instr ext) := by
  unfold decode
  rw [hd]

end Sys2Proof
end

section
/-! SUPPORT. The obligations about the encoding (30_encoding.md R140 to R152). -/

namespace Sys2Proof.Machine

/-- Settles O2, by the row of the command. -/
theorem decodeInvertsEncode : Obligations.DecodeInvertsEncode := by
  intro i hi
  obtain ⟨row, hrow, -⟩ := Instr.row_of_wellFormed hi
  obtain ⟨hhead, hwords, hbuild⟩ := decodeHead_encodeWord hi hrow
  have hdecode (ext : Word) : decode (encodeWord i) (i.parts.2.2.getD ext) = .ok i :=
    (decode_of_head hhead).trans (congrArg _ (hbuild ext))
  refine ⟨⟨_, hhead, hwords⟩, hdecode, decodeTableWord_eq_some ?_ (hdecode 0)⟩
  exact i.words_cases.imp_left fun ⟨h1, hnone⟩ => ⟨h1, by rw [hnone]; rfl⟩

/-- Settles O3: the row builds a command with the word's own fields, and these pack to the word again. -/
theorem legalWordsHaveOneMeaning : Obligations.LegalWordsHaveOneMeaning := by
  intro w ext i h
  obtain ⟨hd, hhead, hwords, rfl, -⟩ := decode_ok_inv h
  obtain ⟨row, hrow, hopc, hunused, hrsv, hdest, rfl⟩ := decodeHead_ok_inv hhead
  obtain ⟨hwf, hpopc, hpfields, hext⟩ := OpcodeRow.build_spec hrow hunused hdest ext
  have hword : encodeWord (row.build (fieldsOf w) ext) = w := by
    rw [encodeWord, hpopc, hpfields, hopc, packWord_fieldsOf w hrsv]
  refine ⟨hwf, ?_⟩
  obtain ⟨hnone, h1⟩ | ⟨hsome, h2⟩ := hext
  · exact .inl ⟨hwords.symm.trans h1, by rw [encode, hword, hnone]; rfl⟩
  · exact .inr ⟨hwords.symm.trans h2, by rw [encode, hword, hsome]; rfl⟩

/-- Settles O4: a row's match and mask say that the word has the row's opcode and is strict for its format. -/
theorem matchAndMaskRowsAreTheDecoder : Obligations.MatchAndMaskRowsAreTheDecoder := by
  refine fun w => ⟨fun row hrow hm => ?_, fun hno => ?_, ?_⟩
  · obtain ⟨hopc, hunused, hrsv⟩ := (OpcodeRow.match_iff hrow w).1 hm
    have hhead := decodeHead_of_row hrow hopc.symm
    rw [hunused, hrsv, if_neg (by decide), if_neg (by decide)] at hhead
    refine ⟨hopc, ?_⟩
    split_ifs at hhead ⊢
    · exact hhead
    · exact ⟨_, hhead, rfl, rfl, fun _ => rfl⟩
  · cases hd : decodeHead w with
    | error e => exact ⟨e, rfl⟩
    | ok h =>
      obtain ⟨row, hrow, hopc, hunused, hrsv, -⟩ := decodeHead_ok_inv hd
      exact absurd ((OpcodeRow.match_iff hrow w).2 ⟨hopc.symm, hunused, hrsv⟩) (hno row hrow)
  · refine (List.pairwise_map.1 opcodeMap_nodup).imp_of_mem fun {r q} hr hq hne ⟨hmr, hmq⟩ => hne ?_
    exact ((OpcodeRow.match_iff hr w).1 hmr).1.symm.trans ((OpcodeRow.match_iff hq w).1 hmq).1

/-- A refused word is found before any extension word is fetched (R147). -/
theorem State.fetch_illegal {s : State} {w : Word} {e : Illegal} (hp : s.pc.toNat < cmdWords)
    (hw : s.cmdMem.read? s.pc.toNat = some w) (he : decodeHead w = .error e) : s.fetch = .trap .illegalCommand := by
  unfold State.fetch
  rw [if_neg (by omega), hw]
  simp only [he]

/-- The opcodes no row has (R145, R147). -/
theorem opcode_unlisted_iff : ∀ n < 64,
    (∀ row ∈ opcodeMap, row.opc ≠ n) ↔ (0x0D ≤ n ∧ n ≤ 0x0F) ∨ (0x19 ≤ n ∧ n ≤ 0x1F) ∨ 0x2A ≤ n := by decide

/-- Settles O5: the reasons are the decoder's branches, and a refused word at PC is a fault of the fetch. -/
theorem illegalWordsFaultAtDecode : Obligations.IllegalWordsFaultAtDecode := by
  refine ⟨opcode_unlisted_iff, decodeHead_error_iff, fun s u w e hu hb hp hw he => ?_, fun w ext ext' ⟨i, hi⟩ => ?_⟩
  · refine ⟨_, step_of_fetch_trap hu hb (State.fetch_illegal hp hw he), u.trap_trapped _, ?_⟩
    obtain ⟨ins, rfl⟩ := hu.exists_inputs
    exact State.cmdWord_of_read? hw
  · obtain ⟨h, hd, -⟩ := decode_ok_inv hi
    exact ⟨_, decode_of_head hd⟩

/-- Settles O60: a command's words hold its parts, and each command's parts are its opcode, its operands and its immediate. -/
theorem operandsStandAtTheirBitPositions : Obligations.OperandsStandAtTheirBitPositions := by
  intro rd re ra rb rg imm
  have h (i : Instr) := encodesTo_parts i.opc_lt
  and_intros <;> exact h _

/-- Settles O1, by running the decoder and the assembler on the nine rows. -/
theorem sampleCommandWordsDecode : Obligations.SampleCommandWordsDecode := by
  unfold Obligations.SampleCommandWordsDecode
  and_intros <;> decide

end Sys2Proof.Machine
end

section
/-! SUPPORT. Runs (40_control.md R180, R184): a written, legal command at PC is what a step executes, a run whose words are written
takes a step, every step of a run ends it or moves PC up, and so every run ends. With them the obligations about the step, NOP and
HALT, and the end of a run. -/

namespace Sys2Proof.Machine

variable {s t u : State}

/-! ### The fetch of a written command -/

/-- The command at PC is fetched when its words lie in CMDMEM and are written (R140, R180). -/
theorem State.fetch_decoded {w ext : Word} {i : Instr} (hp : s.pc.toNat + i.words ≤ cmdWords)
    (hw : s.cmdMem.read? s.pc.toNat = some w) (hd : decode w ext = .ok i)
    (hx : i.words = 2 → s.cmdMem.read? (s.pc.toNat + 1) = some ext) : s.fetch = .run i := by
  obtain ⟨h, hh, hwords, hinstr, hone⟩ := decode_ok_inv hd
  unfold State.fetch
  obtain h1 | h2 := words_one_or_two i
  · rw [if_neg (by omega), hw]
    simp only [hh]
    rw [if_pos (by omega), hone (by omega)]
  · rw [if_neg (by omega), hw]
    simp only [hh]
    rw [if_neg (by omega), if_neg (by omega), hx h2]
    simp only [hinstr]

/-- A legal fetch is followed by the command's own meaning (R180). -/
theorem step_of_fetch_run {i : Instr} (hu : State.CoreTurn s u) (hb : s.busy = true) (hf : s.fetch = .run i) :
    step s = exec i u := by
  have hbu : u.busy = true := by rw [hu.same]; exact hb
  have hfu : u.fetch = .run i := by rw [hu.same]; exact hf
  rw [step_of_coreTurn hu, coreStep, if_pos hbu, sequencerStep, hfu]

/-- Idle, the core's turn holds the state (R417). -/
theorem step_of_idle (hu : State.CoreTurn s u) (hb : s.busy = false) : step s = .next u := by
  have hbu : ¬ u.busy = true := by rw [hu.same]; simpa using hb
  rw [step_of_coreTurn hu, coreStep, if_neg hbu]

/-- Settles O9: the decoded command is the one the fetch finds. -/
theorem stepRunsTheDecodedCommand : Obligations.StepRunsTheDecodedCommand := fun _ _ hu =>
  ⟨step_of_idle hu, fun _ _ _ hb hp hw hd hx => step_of_fetch_run hu hb (State.fetch_decoded hp hw hd hx)⟩

/-! ### NOP and HALT -/

/-- A word that has a row's opcode but not its match under its mask is refused (R146, R147). -/
theorem decodeHead_error_of_mask {row : OpcodeRow} (hrow : row ∈ opcodeMap) {w : Word} (ho : opcOf w = row.opc)
    (hm : w &&& row.mask ≠ row.mtch) : ∃ e, decodeHead w = .error e := by
  cases hd : decodeHead w with
  | error e => exact ⟨e, rfl⟩
  | ok h =>
    obtain ⟨q, hq, hopc, hunused, hrsv, -⟩ := decodeHead_ok_inv hd
    obtain rfl : q = row := List.inj_on_of_nodup_map opcodeMap_nodup hq hrow (hopc.trans ho)
    exact absurd ((OpcodeRow.match_iff hrow w).2 ⟨ho, hunused, hrsv⟩) hm

/-- Where the mask is all ones, as NOP's and HALT's are, the match is the opcode's one legal word (R181, R183). -/
theorem decodeHead_error_of_fullMask {row : OpcodeRow} (hrow : row ∈ opcodeMap) (hmask : row.mask = BitVec.allOnes 32) {w : Word}
    (ho : opcOf w = row.opc) (hne : w ≠ row.mtch) : ∃ e, decodeHead w = .error e :=
  decodeHead_error_of_mask hrow ho (by rwa [hmask, BitVec.and_allOnes])

/-- Settles O21: both bodies always stage a state, and both rows have a full mask. -/
theorem nopAndHaltDoTheirEffectOnly : Obligations.NopAndHaltDoTheirEffectOnly := by
  refine ⟨fun s => State.command_completes rfl rfl rfl, fun s => State.command_completes rfl rfl ⟨rfl, ?_⟩,
    encodedAs (i := .nop) (row := opcodeRowsControl[0]) rfl rfl, by decide,
    encodedAs (i := .halt) (row := opcodeRowsControl[1]) rfl rfl, by decide, fun w => ?_, fun w => ?_⟩
  · simp [State.irq]
  · exact decodeHead_error_of_fullMask (row := opcodeRowsControl[0]) (.head _) rfl
  · exact decodeHead_error_of_fullMask (row := opcodeRowsControl[1]) (.tail _ (.head _)) rfl

/-! ### One step of a run -/

/-- A fetch from written words does not come upon an unwritten one (U5). -/
theorem State.FetchesWritten.fetch_ne_unwritten (h : s.FetchesWritten) (n : Nat) : s.fetch ≠ .unwritten n := by
  intro hn
  obtain ⟨hf, -⟩ | ⟨-, hp, hnone⟩ | ⟨w, hp, hw, ⟨-, -, hf⟩ | ⟨hd, hh, ⟨-, hf⟩ | ⟨-, -, hf⟩ | ⟨h1, hp', hnone, -⟩ | ⟨-, -, _, -, hf⟩⟩⟩ :=
    s.fetch_cases
  · cases hf.symm.trans hn
  · obtain ⟨w, hw, -⟩ := h hp
    cases hnone.symm.trans hw
  · cases hf.symm.trans hn
  · cases hf.symm.trans hn
  · cases hf.symm.trans hn
  · obtain ⟨w', hw', hext⟩ := h hp
    cases hw.symm.trans hw'
    obtain ⟨ext, hx⟩ := hext hd hh ((decodeHead_ok_words hh 0).2.resolve_left h1) hp'
    cases hnone.symm.trans hx
  · cases hf.symm.trans hn

/-- A run whose next words are written takes a step (R180). -/
theorem step_next_of_fetchesWritten (hu : State.CoreTurn s u) (hb : s.busy = true) (h : s.FetchesWritten) :
    ∃ t, step s = .next t := by
  cases hf : s.fetch with
  | run i =>
    obtain ⟨c, -, he⟩ | ⟨v, -, he⟩ := exec_cases i u
    · exact ⟨_, (step_of_fetch_run hu hb hf).trans he⟩
    · exact ⟨_, (step_of_fetch_run hu hb hf).trans he⟩
  | trap c => exact ⟨_, step_of_fetch_trap hu hb hf⟩
  | unwritten n => exact absurd hf (h.fetch_ne_unwritten n)

/-- How a run leaves the machine without a reset: idle, with DONE or with FAULT, and after a fault at the faulting command (R184
items 1 and 2). -/
structure State.RunEnded (t : State) : Prop where
  idle     : t.busy = false
  oneCause : t.done = !t.fault
  faultPc  : t.fault = true → t.pc = t.faultPc

/-- Without a host event, a step of a run ends it, or goes on with PC further up in CMDMEM (R182, R184). -/
theorem step_of_run (hs : s.Inv) (hb : s.busy = true) (hi : s.inputs = []) (h : step s = .next t) :
    t.inputs = [] ∧ (t.RunEnded ∨ t.busy = true ∧ s.pc.toNat < t.pc.toNat ∧ t.pc.toNat ≤ cmdWords) := by
  have turn : State.CoreTurn s s := .inl ⟨hi, rfl⟩
  obtain ⟨u, -, hb', -⟩ | ⟨u, c, hu, -, -, rfl⟩ | ⟨u, i, v, hu, -, hv, -, rfl⟩ | ⟨ev, rest, hi', -, -⟩ := step_next_cases h
  · cases hb.symm.trans hb'
  · obtain rfl := turn.unique hu
    exact ⟨hi, .inl ⟨rfl, rfl, fun _ => rfl⟩⟩
  · obtain rfl := turn.unique hu
    refine ⟨hv.outside.inputs.trans hi, ?_⟩
    obtain ⟨-, rfl⟩ | ⟨-, hbv, -⟩ := hv.run
    · have hfault : u.fault = false := (hs.running hb).2
      exact .inl ⟨rfl, by simp [State.endRun, hfault], fun hf => by cases hfault.symm.trans hf⟩
    · exact .inr ⟨hbv.trans hb, (pcMovesByCommandsHostWritesAndResetOnly _ _ h).1 u hu hb (hbv.trans hb)⟩
  · cases hi.symm.trans hi'

/-! ### Every run ends -/

/-- The words the run from `s` fetches are written (U5). -/
def State.RunFetchesWritten (s : State) : Prop :=
  ∀ (k : Nat) (v : State), Host.Core.run core k s = .next v → v.busy = true → v.FetchesWritten

/-- The run from `s` is over after exactly `n` steps. -/
def State.RunEndsAfter (s : State) (n : Nat) : Prop :=
  ∃ t : State, Host.Core.run core n s = .next t ∧ t.RunEnded ∧
    ∀ k < n, ∃ v : State, Host.Core.run core k s = .next v ∧ v.busy = true

theorem State.RunFetchesWritten.now (h : s.RunFetchesWritten) (hb : s.busy = true) : s.FetchesWritten := h 0 s rfl hb

theorem State.RunFetchesWritten.after (h : s.RunFetchesWritten) (hs : step s = .next t) : t.RunFetchesWritten :=
  fun k v hk => h (k + 1) v ((run_succ k hs).trans hk)

theorem State.RunEnded.runEndsAfter_zero (h : t.RunEnded) : t.RunEndsAfter 0 := ⟨t, rfl, h, nofun⟩

/-- A busy step in front makes a run one step longer. -/
theorem State.RunEndsAfter.of_step {n : Nat} (h : t.RunEndsAfter n) (hb : s.busy = true) (hs : step s = .next t) :
    s.RunEndsAfter (n + 1) := by
  obtain ⟨e, he, hended, hbusy⟩ := h
  refine ⟨e, (run_succ n hs).trans he, hended, fun k hk => ?_⟩
  cases k with
  | zero => exact ⟨s, rfl, hb⟩
  | succ k =>
    obtain ⟨v, hv, hbv⟩ := hbusy k (by omega)
    exact ⟨v, (run_succ k hs).trans hv, hbv⟩

/-- A run ends within one step more than there are words from PC on, since each step that does not end it moves PC up (R184). -/
theorem run_ends (hs : s.Inv) (hb : s.busy = true) (hi : s.inputs = []) (hw : s.RunFetchesWritten) :
    ∃ n, n ≤ cmdWords - s.pc.toNat + 1 ∧ s.RunEndsAfter n := by
  induction hm : cmdWords - s.pc.toNat using Nat.strong_induction_on generalizing s with
  | h m ih =>
    obtain ⟨t, ht⟩ := step_next_of_fetchesWritten (.inl ⟨hi, rfl⟩) hb (hw.now hb)
    obtain ⟨hit, hended | ⟨hbt, hlt, hle⟩⟩ := step_of_run hs hb hi ht
    · exact ⟨1, by omega, hended.runEndsAfter_zero.of_step hb ht⟩
    · obtain ⟨n, hn, hends⟩ := ih (cmdWords - t.pc.toNat) (by omega) (step_keeps_inv hs ht) hbt hit (hw.after ht) rfl
      exact ⟨n + 1, by omega, hends.of_step hb ht⟩

/-- Settles O20, by the bound on a run's steps. -/
theorem everyRunEnds : Obligations.EveryRunEnds := by
  intro s hs hb hi hw
  obtain ⟨n, hn, t, ht, hended, hbusy⟩ := run_ends hs hb hi hw
  exact ⟨n, t, by omega, ht, hended.idle, hended.oneCause, hended.faultPc, hbusy⟩

end Sys2Proof.Machine
end

section
/-! SUPPORT. Byte strings (41_regfile.md R204): the value of a string by its first byte and as a sum, and the round trip of MinBE. -/

namespace Sys2Proof.Machine

theorem beValue_cons (x : Byte) (s : List Byte) : beValue (x :: s) = x.toNat * 256^s.length + beValue s := by
  simpa [beValue] using beValue_append [x] s

/-- `BE(s)` as the sum of R204. -/
theorem beValue_eq_sum (bytes : List Byte) : beValue bytes =
    ((List.range bytes.length).map fun j => (bytes.getD j 0).toNat * 256^(bytes.length - 1 - j)).sum := by
  induction bytes with
  | nil => rfl
  | cons x s ih =>
    simp only [beValue_cons, ih, List.length_cons, List.range_succ_eq_map, List.map_cons, List.map_map, List.sum_cons,
      Function.comp_def, Nat.add_sub_cancel, Nat.sub_zero, List.getD_cons_zero, List.getD_cons_succ, Nat.sub_sub, Nat.add_comm 1]

/-- The low `n` bytes of `v`, the most significant first: the digits MinBE takes (R204). -/
def lowBytes (n v : Nat) : List Byte := (List.range n).map fun j => BitVec.ofNat 8 (v >>> (8 * (n - 1 - j)))

theorem minBE_eq_lowBytes (v : Nat) : minBE v = lowBytes (minBELen v) v := rfl

@[simp] theorem lowBytes_length (n v : Nat) : (lowBytes n v).length = n := by simp [lowBytes]

theorem lowBytes_succ (n v : Nat) : lowBytes (n + 1) v = BitVec.ofNat 8 (v >>> (8 * n)) :: lowBytes n v := by
  simp only [lowBytes, List.range_succ_eq_map, List.map_cons, List.map_map, Function.comp_def, Nat.add_sub_cancel, Nat.sub_zero,
    Nat.sub_sub, Nat.add_comm 1]

theorem lowBytes_getD (v : Nat) {n j : Nat} (h : j < n) : ((lowBytes n v).getD j 0).toNat = (v >>> (8 * (n - 1 - j))) % 256 := by
  simp [lowBytes, h]

theorem beValue_lowBytes (n v : Nat) : beValue (lowBytes n v) = v % 256^n := by
  induction n with
  | zero => simp [lowBytes, beValue, Nat.mod_one]
  | succ n ih =>
    have hpow : (2 : Nat)^(8 * n) = 256^n := by rw [Nat.pow_mul]
    rw [lowBytes_succ, beValue_cons, ih, lowBytes_length, BitVec.toNat_ofNat, Nat.shiftRight_eq_div_pow, hpow,
      Nat.mod_pow_succ (b := 256), Nat.mul_comm, Nat.add_comm]

/-- `MinBE(v)` has room for `v`, and its first byte starts below the top bit of `v`. -/
theorem minBELen_bounds (v : Nat) : bitLen v ≤ 8 * minBELen v ∧ (v ≠ 0 → 8 * (minBELen v - 1) ≤ bitLen v - 1) := by
  unfold minBELen
  split
  · next h => simp [h]
  · omega

/-- The round trip of R204. -/
theorem beValue_minBE (v : Nat) : beValue (minBE v) = v := by
  rw [minBE_eq_lowBytes, beValue_lowBytes, show (256 : Nat) = 2^8 by decide, ← Nat.pow_mul]
  exact Nat.mod_eq_of_lt (bitLen_le_iff.1 (minBELen_bounds v).1)

/-- The first byte of `MinBE(v)` is not 0 unless `v` is 0 (R204). -/
theorem minBE_head_ne_zero {v : Nat} (hv : v ≠ 0) : (minBE v).getD 0 0 ≠ 0 := by
  obtain ⟨hfits, htop⟩ := minBELen_bounds v
  have hpos : 2^(8 * (minBELen v - 1)) ≤ v := (Nat.pow_le_pow_right (by decide) (htop hv)).trans (two_pow_le_of_ne_zero hv)
  have hlt : v < 2^(8 * (minBELen v - 1)) * 256 := by
    have hlen := minBELen_pos v
    rw [show (256 : Nat) = 2^8 by decide, ← Nat.pow_add]
    exact bitLen_le_iff.1 (hfits.trans (by omega))
  have hbyte : v / 2^(8 * (minBELen v - 1)) < 256 := Nat.div_lt_of_lt_mul hlt
  intro h
  have h0 := lowBytes_getD v (minBELen_pos v)
  rw [← minBE_eq_lowBytes, h, Nat.sub_zero, Nat.shiftRight_eq_div_pow, Nat.mod_eq_of_lt hbyte] at h0
  exact absurd h0 (Nat.div_pos hpos (Nat.two_pow_pos _)).ne

/-- Settles O25: MinBE's bytes are the low bytes of `v`, and there are enough of them. -/
theorem byteStringsRoundTrip : Obligations.ByteStringsRoundTrip := by
  refine ⟨beValue_eq_sum, minBE_length, fun v j hj => ?_, fun v => minBE_head_ne_zero, beValue_minBE⟩
  rw [minBE_length] at hj ⊢
  exact lowBytes_getD v hj

end Sys2Proof.Machine
end

section
/-! SUPPORT. Single bits of a magnitude (41_regfile.md R208, R209): the length of a number with a bit set, and the bits of a number
with a bit cleared. -/

namespace Sys2Proof.Machine

theorem digitLen_or (a b : Nat) : digitLen (a ||| b) = max (digitLen a) (digitLen b) := by
  have hpos := digitLen_pos a
  have hbelow {x : Nat} (h : digitLen x ≤ max (digitLen a) (digitLen b)) : x < 2^(32 * max (digitLen a) (digitLen b)) := by
    rw [← radix_pow_eq]; exact (digitLen_le_iff (by omega)).1 h
  refine Nat.le_antisymm ((digitLen_le_iff (by omega)).2 ?_) (max_le (digitLen_mono Nat.left_le_or) (digitLen_mono Nat.right_le_or))
  rw [radix_pow_eq]
  exact Nat.or_lt_two_pow (hbelow (le_max_left _ _)) (hbelow (le_max_right _ _))

theorem digitLen_two_pow (i : Nat) : digitLen (2^i) = i / 32 + 1 := by
  have hbits : bitLen (2^i) = i + 1 := by simp [bitLen, Nat.log2_two_pow]
  rw [digitLen, hbits]; omega

/-- Subtracting a bit that is 1 clears it and borrows from no other. -/
theorem testBit_sub_two_pow {a i : Nat} (h : a.testBit i = true) (k : Nat) :
    (a - 2^i).testBit k = (a.testBit k && decide (k ≠ i)) := by
  induction i generalizing a k with
  | zero =>
    have hodd : a % 2 = 1 := by simpa using h
    cases k with
    | zero =>
      have : (a - 1) % 2 = 0 := by omega
      simp [this]
    | succ k =>
      have : (a - 1) / 2 = a / 2 := by omega
      simp [Nat.testBit_add_one, this]
  | succ i ih =>
    rw [Nat.testBit_add_one] at h
    cases k with
    | zero =>
      have : (a - 2^(i + 1)) % 2 = a % 2 := by
        have := Nat.ge_two_pow_of_testBit h
        rw [Nat.pow_succ]; omega
      simp [this]
    | succ k =>
      have : (a - 2^(i + 1)) / 2 = a / 2 - 2^i := by rw [Nat.pow_succ]; omega
      simp [Nat.testBit_add_one, this, ih h]

/-- The value BITCLR writes has every other bit as before (R209). -/
theorem testBit_cleared (a i k : Nat) :
    (if a.testBit i then a - 2^i else a).testBit k = (a.testBit k && decide (k ≠ i)) := by
  cases h : a.testBit i with
  | true => exact testBit_sub_two_pow h k
  | false =>
    by_cases hk : k = i
    · simp [hk, h]
    · simp [hk]

end Sys2Proof.Machine
end

section
/-! SUPPORT. The obligations about the register-file, byte-transfer and bit commands (41_regfile.md): each command's body answers its
fault or the state it stages. -/

namespace Sys2Proof.Machine

variable {s u : State}

/-- A body that reads a written source first goes on with its value (R11). -/
theorem source_bind_written {r : RegIdx} (hw : s.regs[r].wr = true) (f : Nat → Except FaultCode State) :
    (s.source r >>= f) = f s.regs[r].val := by
  rw [State.source_ok hw]; rfl

/-- A command whose body stages one register write writes that register and changes nothing else. -/
theorem completes_wrote {i : Instr} {n : Nat} {body : Except FaultCode State} {rd : RegIdx} {v : Nat}
    (he : exec i s = s.command n body) (hb : body = .ok (s.writeReg rd v)) : Completes i s fun t => State.Wrote s t n rd v :=
  State.command_completes he hb (s.writeReg_wrote n rd v)

/-- A staged state that is not HALT's completes the command, with the destinations it has (R180). -/
theorem Staged.completed {i : Instr} (h : Staged s i u) (hi : i ≠ .halt) {ds : List RegIdx}
    (hregs : ∀ j : RegIdx, j ∉ ds → u.regs[j] = s.regs[j]) (n : Nat) : State.Completed s (u.advance n) n ds := by
  obtain ⟨hie, hhwerr, hfault, hcode, hfpc, hfcmd, hpc⟩ := h.report
  obtain ⟨hcfg, hmem, hword, hin, hresp, hepoch⟩ := h.outside
  obtain ⟨hhalt, -⟩ | ⟨-, hbusy, hdone⟩ := h.run
  · exact absurd hhalt hi
  · exact
      { pc := by rw [State.advance_pc, hpc], scratch := rfl, regs := hregs,
        status := ⟨hie, hbusy, hdone, hfault, hhwerr, hcode, hfpc, hfcmd⟩,
        outside := ⟨hcfg, hmem, hword, hin, hresp, hepoch⟩ }

/-- A scrubbed register's digits are all zero (R201). -/
theorem Reg.dig_holding_zero (j : Nat) : (Reg.holding 0 0).dig j = 0 := by simp [Reg.dig, digit]

/-- Settles O22: each body stages one write, ZERO's of a scrubbed register. -/
theorem movZeroAndLdiWriteOneRegister : Obligations.MovZeroAndLdiWriteOneRegister := by
  refine ⟨fun s rd ra => ⟨encodedAs (row := opcodeRowsControl[2]) rfl rfl, traps_unwrittenRegister rfl (.head _), fun hw => ?_⟩,
    fun s rd => ⟨encodedAs (row := opcodeRowsControl[3]) rfl rfl, ?_⟩,
    fun s rd imm => ⟨encodedAs (row := opcodeRowsControl[4]) rfl rfl, completes_wrote rfl rfl⟩⟩
  · exact completes_wrote rfl (source_bind_written hw _)
  · refine State.command_completes rfl rfl ⟨s.scrubReg_wrote 1 rd, fun j _ => ?_⟩
    rw [State.advance_regs, State.scrubReg_get_self]
    exact Reg.dig_holding_zero j

/-- Settles O23, by the two sides of LDB's check. -/
theorem ldbImportsIobufBigEndian : Obligations.LdbImportsIobufBigEndian := fun s _ =>
  ⟨encodedAs (row := opcodeRowsControl[5]) rfl rfl,
    fun hlen => State.command_traps rfl (if_pos hlen),
    fun hlen => ⟨s.beValue_ioString_le hlen, completes_wrote rfl (if_neg (Nat.not_lt.2 hlen))⟩⟩

/-- Settles O24, by the bytes of an exported string. -/
theorem stbExportsMinimalBigEndian : Obligations.StbExportsMinimalBigEndian := by
  intro s ra hs
  refine ⟨encodedAs (row := opcodeRowsControl[6]) rfl rfl, traps_unwrittenRegister rfl (.head _), fun hw => ?_⟩
  have hfits := hs.minBELen_le ra
  refine ⟨hfits, State.command_completes rfl (source_bind_written hw _)
    ⟨(Staged.exported ra hw).completed nofun (fun _ _ => rfl) 1, rfl, rfl, ?_, fun j => s.ioByte_exportBytes_inside _,
      fun j => s.ioByte_exportBytes_outside _⟩⟩
  have hmax := hs.config.2.1
  unfold State.ioBytes at hfits
  exact (BitVec.toNat_ofNat _ 16).trans (Nat.mod_eq_of_lt (by omega))

/-- Settles O26, by the three outcomes of RAND's body. -/
theorem randWritesAValueBelowTwoToTheCount : Obligations.RandWritesAValueBelowTwoToTheCount := by
  intro s rd imm
  refine ⟨encodedAs (row := opcodeRowsControl[7]) rfl rfl, fun hn => State.command_traps rfl (if_pos hn), fun hn => ?_⟩
  by_cases h0 : imm.toNat = 0
  · refine State.command_completes rfl ((if_neg (Nat.not_lt.2 hn)).trans (if_pos h0))
      ⟨0, Nat.two_pow_pos _, s.writeReg_wrote 2 rd 0, ?_⟩
    rw [if_pos h0]; rfl
  · refine State.command_completes rfl ((if_neg (Nat.not_lt.2 hn)).trans (if_neg h0))
      ⟨s.entropy imm.toNat, s.entropy_lt _, ?_, ?_⟩
    · have himm : imm ≠ 0 := fun h => h0 (congrArg BitVec.toNat h)
      exact
        { holds := (s.drawn.writeReg_wrote 2 rd _).holds,
          frame :=
            { completed := (Staged.drew rd imm himm hn).completed nofun
                (fun j hj => s.drawn.writeReg_get_ne _ (by simpa using hj)) 2,
              rings := rfl, flags := rfl, io := ⟨fun _ => rfl, rfl⟩ } }
    · rw [if_neg h0]; rfl

/-- Settles O27, by the bits of the value written. -/
theorem bitsetAndBitclrChangeOneBit : Obligations.BitsetAndBitclrChangeOneBit := by
  intro s rd imm hs
  refine ⟨encodedAs (row := opcodeRowsControl[8]) rfl rfl, encodedAs (row := opcodeRowsControl[9]) rfl rfl,
    fun hw => ⟨traps_unwrittenRegister rfl (.head _) hw, traps_unwrittenRegister rfl (.head _) hw⟩,
    fun hw => ⟨fun hi => ?_, fun hi => ⟨State.le_vmax_iff.2 ?_, ?_, ?_⟩, ?_⟩⟩
  · exact State.command_traps rfl ((source_bind_written hw _).trans (if_pos hi))
  · exact Nat.or_lt_two_pow (State.le_vmax_iff.1 (hs.val_le rd)) (Nat.pow_lt_pow_right (by decide) hi)
  · rw [digitLen_or, digitLen_two_pow]
  · exact completes_wrote rfl ((source_bind_written hw _).trans (if_neg (Nat.not_le.2 hi)))
  · exact State.command_completes rfl (source_bind_written hw _)
      ⟨_, s.writeReg_wrote 2 rd _, rfl, testBit_cleared _ _⟩

/-- Settles O28: BITTEST stages FLAGS alone, and BITLEN one register. -/
theorem bittestAndBitlenReadTheirSource : Obligations.BittestAndBitlenReadTheirSource := by
  refine ⟨fun s ra imm => ⟨encodedAs (row := opcodeRowsControl[10]) rfl rfl, traps_unwrittenRegister rfl (.head _), fun hw => ?_⟩,
    fun s rd ra => ⟨encodedAs (row := opcodeRowsControl[11]) rfl rfl, traps_unwrittenRegister rfl (.head _), fun hw => ?_⟩⟩
  · refine State.command_completes rfl (source_bind_written hw _)
      ⟨(Staged.tested ra imm _).completed nofun (fun _ _ => rfl) 2, rfl, ⟨fun _ => rfl, rfl⟩, rfl, fun hlen => ?_⟩
    exact Nat.testBit_lt_two_pow (bitLen_le_iff.1 hlen)
  · exact completes_wrote rfl (source_bind_written hw _)

/-- Settles O29, by the two sides of the capacity check. -/
theorem inc2AddsTwoInPlace : Obligations.Inc2AddsTwoInPlace := by
  refine fun s rd => ⟨encodedAs (row := opcodeRowsControl[12]) rfl rfl, traps_unwrittenRegister rfl (.head _), fun hw =>
    ⟨fun hv => State.command_traps rfl ((source_bind_written hw _).trans ?_),
      fun hv => completes_wrote rfl ((source_bind_written hw _).trans ?_)⟩⟩
  · rw [State.fitted_overflow hv]; rfl
  · rw [State.fitted_ok hv]; rfl

end Sys2Proof.Machine
end

section
/-! SUPPORT. Numbers by their digits (00_scope.md R10; 42_kernel.md): folds over the digit positions, the value of a list of digits,
and the comparator (R240). -/

namespace Sys2Proof.Machine

/-- What holds before the first position and is kept at each position holds after the last. -/
theorem foldl_range_invariant {α : Type} {f : α → Nat → α} {init : α} {P : Nat → α → Prop} (n : Nat) (h0 : P 0 init)
    (hstep : ∀ i x, i < n → P i x → P (i + 1) (f x i)) : P n ((List.range n).foldl f init) := by
  induction n with
  | zero => exact h0
  | succ n ih =>
    rw [List.range_succ, List.foldl_append]
    exact hstep n _ n.lt_succ_self (ih fun i x hi => hstep i x (hi.trans n.lt_succ_self))

/-- Digits above the length of a number are 0 (R241). -/
theorem mod_radix_pow_of_digitLen_le {v n : Nat} (h : digitLen v ≤ n) : v % radix^n = v :=
  Nat.mod_eq_of_lt ((digitLen_le_iff ((digitLen_pos v).trans h)).1 h)

/-- Splitting off the lowest digit of a number's top part. -/
theorem div_radix_pow_eq (v i : Nat) : v / radix^i = digit v i + radix * (v / radix^(i + 1)) := by
  rw [digit_eq, Nat.pow_succ, ← Nat.div_div_eq_div_mul, Nat.mod_add_div]

theorem testBit_digit (v i k : Nat) : (digit v i).testBit k = (decide (k < 32) && v.testBit (32 * i + k)) := by
  rw [digit, Nat.testBit_mod_two_pow, Nat.testBit_shiftRight]

/-! ### The value of a list of digits -/

theorem digitsValue_eq_ofDigits (ds : List Nat) : digitsValue ds = Nat.ofDigits radix ds := by
  rw [Nat.ofDigits_eq_foldr]; rfl

@[simp] theorem digitsValue_nil : digitsValue [] = 0 := rfl

@[simp] theorem digitsValue_cons (d : Nat) (ds : List Nat) : digitsValue (d :: ds) = d + radix * digitsValue ds := rfl

theorem digitsValue_append (ds es : List Nat) : digitsValue (ds ++ es) = digitsValue ds + radix^ds.length * digitsValue es := by
  simp only [digitsValue_eq_ofDigits, Nat.ofDigits_append]

theorem digitsValue_replicate_zero (n : Nat) : digitsValue (List.replicate n 0) = 0 := by
  rw [digitsValue_eq_ofDigits, Nat.ofDigits_replicate_zero]

/-- The low `n` digits of a number have its low part as their value. -/
theorem digitsValue_map_digit (v n : Nat) : digitsValue ((List.range n).map (digit v)) = v % radix^n := by
  induction n with
  | zero => simp [Nat.mod_one]
  | succ n ih =>
    rw [List.range_succ, List.map_append, digitsValue_append, ih, mod_radix_pow_succ, List.length_map, List.length_range]
    simp only [List.map_cons, List.map_nil, digitsValue_cons, digitsValue_nil]
    ring

/-- Storing a digit exchanges its share of the value. -/
theorem digitsValue_set {ds : List Nat} {k : Nat} (hk : k < ds.length) (x : Nat) :
    digitsValue (ds.set k x) + ds.getD k 0 * radix^k = digitsValue ds + x * radix^k := by
  induction ds generalizing k with
  | nil => exact absurd hk (Nat.not_lt_zero k)
  | cons d ds ih =>
    cases k with
    | zero => simp; omega
    | succ k =>
      have h := ih (Nat.lt_of_succ_lt_succ hk)
      simp only [List.set_cons_succ, List.getD_cons_succ, digitsValue_cons, Nat.pow_succ]
      linear_combination radix * h

/-! ### The comparator -/

/-- Comparing digits downwards compares the numbers they form. -/
theorem compareDigits_eq (a b n : Nat) : compareDigits a b n = compare (a % radix^n) (b % radix^n) := by
  induction n with
  | zero => simp [compareDigits, Nat.mod_one]
  | succ n ih =>
    have ha := Nat.mod_lt a (radix_pow_pos n)
    have hb := Nat.mod_lt b (radix_pow_pos n)
    have hsplit {x y u v : Nat} (hxy : x < y) (hu : u < radix^n) : x * radix^n + u < y * radix^n + v := by
      have := Nat.mul_le_mul_right (radix^n) (Nat.succ_le_of_lt hxy)
      rw [Nat.succ_mul] at this
      omega
    rw [compareDigits, mod_radix_pow_succ, mod_radix_pow_succ]
    split_ifs with heq hlt
    · rw [ih, heq]
      simp [Nat.compare_eq_ite_lt]
    · exact (Nat.compare_eq_gt.2 (hsplit hlt hb)).symm
    · exact (Nat.compare_eq_lt.2 (hsplit (by omega) ha)).symm

/-- The comparator gives the numeric order: a longer normalized number is greater (R240). -/
theorem comparator_eq (a b : Nat) : comparator a b = compare a b := by
  have hlonger {x y : Nat} (h : digitLen x < digitLen y) : x < y :=
    Nat.lt_of_not_le fun hle => Nat.not_le.2 h (digitLen_mono hle)
  unfold comparator
  split_ifs with h1 h2
  · exact (Nat.compare_eq_gt.2 (hlonger h1)).symm
  · exact (Nat.compare_eq_lt.2 (hlonger h2)).symm
  · rw [compareDigits_eq, mod_radix_pow_of_digitLen_le (Nat.le_refl _), mod_radix_pow_of_digitLen_le (by omega)]

end Sys2Proof.Machine
end

section
/-! SUPPORT. The adder and the subtractor (42_kernel.md R241, R243): what the digits below a position add up to, with the carry or
borrow into it. -/

namespace Sys2Proof.Machine

/-- Below position `n`, the sum digits and the carry hold the sum of the operands' low parts. -/
theorem addStep_fold (a b n : Nat) :
    ((List.range n).foldl (addStep a b) (0, 0)).1 + ((List.range n).foldl (addStep a b) (0, 0)).2 * radix^n =
      a % radix^n + b % radix^n := by
  refine foldl_range_invariant (P := fun i (p : Nat × Nat) => p.1 + p.2 * radix^i = a % radix^i + b % radix^i) n
    (by simp [Nat.mod_one]) fun i p _ hp => ?_
  have ht := Nat.mod_add_div (digit a i + digit b i + p.2) radix
  rw [mod_radix_pow_succ, mod_radix_pow_succ, Nat.pow_succ]
  change p.1 + _ % radix * radix^i + _ / radix * _ = _
  linear_combination hp + radix^i * ht

theorem adder_eq_add (a b : Nat) : adder a b = a + b := by
  rw [adder, addStep_fold, mod_radix_pow_of_digitLen_le (le_max_left _ _), mod_radix_pow_of_digitLen_le (le_max_right _ _)]

/-- A sum has at most one digit more than the longer operand (R241). -/
theorem digitLen_add_le (a b : Nat) : digitLen (a + b) ≤ max (digitLen a) (digitLen b) + 1 := by
  have hbelow {v n : Nat} (h : digitLen v ≤ n) : v < radix^n := (digitLen_le_iff ((digitLen_pos v).trans h)).1 h
  have ha := hbelow (le_max_left (digitLen a) (digitLen b))
  have hb := hbelow (le_max_right (digitLen a) (digitLen b))
  have hr : 2 ≤ radix := by decide
  rw [digitLen_le_iff (by omega), Nat.pow_succ]
  nlinarith

/-- What the subtractor has below position `n`: digits that hold the difference of the low parts, with the borrow owed. -/
structure Borrowed (a b n : Nat) (p : Nat × Nat) : Prop where
  value  : p.1 + b % radix^n = a % radix^n + p.2 * radix^n
  below  : p.1 < radix^n
  borrow : p.2 ≤ 1

theorem Borrowed.step {a b n : Nat} {p : Nat × Nat} (h : Borrowed a b n p) : Borrowed a b (n + 1) (subStep a b p n) := by
  obtain ⟨hv, hlt, hbr⟩ := h
  have ha : digit a n < 2^32 := digit_lt a n
  have hb : digit b n < 2^32 := digit_lt b n
  have hdigit {d br : Nat} (hd : d < 2^32) (hdb : d + digit b n + p.2 = digit a n + br * 2^32) (hbr : br ≤ 1) :
      Borrowed a b (n + 1) (p.1 + d * radix^n, br) := by
    refine ⟨?_, ?_, hbr⟩
    · rw [mod_radix_pow_succ, mod_radix_pow_succ, show radix^(n + 1) = radix^n * 2^32 from Nat.pow_succ ..]
      linear_combination hv + radix^n * hdb
    · calc p.1 + d * radix^n < radix^n + d * radix^n := Nat.add_lt_add_right hlt _
        _ = (d + 1) * radix^n := by ring
        _ ≤ radix * radix^n := Nat.mul_le_mul_right _ hd
        _ = radix^(n + 1) := Nat.pow_succ'.symm
  unfold subStep
  split_ifs
  · exact hdigit (by omega) (by omega) (Nat.le_refl 1)
  · exact hdigit (by omega) (by omega) (Nat.zero_le 1)

/-- For `b ≤ a` no borrow is left over, and the digits hold the difference. -/
theorem subtractor_eq_sub {a b : Nat} (h : b ≤ a) : subtractor a b = (a - b, 0) := by
  obtain ⟨hv, hlt, hbr⟩ : Borrowed a b (digitLen a) (subtractor a b) :=
    foldl_range_invariant (P := Borrowed a b) _ ⟨by simp [Nat.mod_one], by simp, Nat.zero_le 1⟩ fun _ _ _ hp => hp.step
  rw [mod_radix_pow_of_digitLen_le (digitLen_mono h), mod_radix_pow_of_digitLen_le (Nat.le_refl _)] at hv
  have h0 : (subtractor a b).2 = 0 := by
    by_contra hne
    rw [show (subtractor a b).2 = 1 by omega] at hv
    omega
  rw [h0, Nat.zero_mul] at hv
  exact Prod.ext (by omega) h0

/-- Settles O48, by the carry and the borrow below each position. -/
theorem adderAndSubtractorPropagateCarries : Obligations.AdderAndSubtractorPropagateCarries :=
  ⟨fun a b => ⟨adder_eq_add a b, digitLen_add_le a b⟩, fun _ _ => subtractor_eq_sub⟩

end Sys2Proof.Machine
end

section
/-! SUPPORT. The shifters (42_kernel.md R250): each digit they form is a digit of the shifted number, bit by bit. -/

namespace Sys2Proof.Machine

/-- A digit of the left shifter is the digit of the number shifted by the bits that are left. -/
theorem shiftLeftDigit_eq (a i : Nat) {r : Nat} (hr : r < 32) : shiftLeftDigit a r i = digit (a <<< r) i := by
  refine Nat.eq_of_testBit_eq fun k => ?_
  rw [shiftLeftDigit, Nat.testBit_mod_two_pow, Nat.testBit_or, Nat.testBit_shiftLeft, testBit_digit, testBit_digit,
    Nat.testBit_shiftLeft]
  by_cases hk : k < 32
  · by_cases hkr : r ≤ k
    · have hpos : 32 * i + (k - r) = 32 * i + k - r := by omega
      have hout : ¬ 32 - r + k < 32 := by omega
      have hrk : r ≤ 32 * i + k := by omega
      have hlow : k - r < 32 := by omega
      split_ifs <;> simp [hk, hkr, hpos, hrk, hout, hlow, Nat.testBit_shiftRight, testBit_digit]
    · cases i with
      | zero => simp [hkr]
      | succ i =>
        have hpos : 32 * i + (32 - r + k) = 32 * (i + 1) + k - r := by omega
        have hin : 32 - r + k < 32 := by omega
        have hrk : r ≤ 32 * (i + 1) + k := by omega
        have h0 : r ≠ 0 := by omega
        simp [hk, hkr, h0, hpos, hrk, hin, Nat.testBit_shiftRight, testBit_digit]
  · simp [hk]

theorem shiftRightDigit_eq (a q i : Nat) {r : Nat} (hr : r < 32) :
    shiftRightDigit a q r i = digit (a >>> (32 * q + r)) i := by
  refine Nat.eq_of_testBit_eq fun k => ?_
  rw [shiftRightDigit, Nat.testBit_or, Nat.testBit_shiftRight, testBit_digit, testBit_digit, Nat.testBit_shiftRight]
  by_cases hk : r + k < 32
  · have hpos : 32 * (i + q) + (r + k) = 32 * q + r + (32 * i + k) := by omega
    have hlow : k < 32 := by omega
    have hout : ¬ 32 - r ≤ k := by omega
    split_ifs <;> simp [-Nat.reducePow, hk, hpos, hlow, hout, Nat.testBit_mod_two_pow, Nat.testBit_shiftLeft]
  · by_cases hlow : k < 32
    · have h0 : r ≠ 0 := by omega
      have hpos : 32 * (i + q + 1) + (k - (32 - r)) = 32 * q + r + (32 * i + k) := by omega
      have hin : 32 - r ≤ k := by omega
      have hbit : k - (32 - r) < 32 := by omega
      simp [-Nat.reducePow, hk, hlow, h0, hpos, hin, hbit, Nat.testBit_mod_two_pow, Nat.testBit_shiftLeft, testBit_digit]
    · split_ifs <;> simp [-Nat.reducePow, hk, hlow, Nat.testBit_mod_two_pow]

/-- A count is its digits and its bits (R250). -/
theorem count_eq (n : Nat) : n = 32 * (n >>> 5) + (n &&& 31) := by
  rw [Nat.shiftRight_eq_div_pow, show 31 = 2^5 - 1 by rfl, Nat.and_two_pow_sub_one_eq_mod]
  exact (Nat.div_add_mod n 32).symm

theorem count_bits_lt (n : Nat) : n &&& 31 < 32 := Nat.lt_succ_of_le Nat.and_le_right

theorem leftShifter_eq (a n : Nat) : leftShifter a n = a * 2^n := by
  have hr := count_bits_lt n
  have hlt : a <<< (n &&& 31) < radix^(digitLen a + 1) := by
    rw [Nat.shiftLeft_eq, Nat.pow_succ]
    exact Nat.mul_lt_mul_of_lt_of_le (lt_radix_pow_digitLen a) (Nat.pow_le_pow_right (by decide) hr.le) radix_pos
  have hdigits : shiftLeftDigit a (n &&& 31) = digit (a <<< (n &&& 31)) := funext fun i => shiftLeftDigit_eq a i hr
  rw [leftShifter, digitsValue_append, digitsValue_replicate_zero, hdigits, digitsValue_map_digit, Nat.mod_eq_of_lt hlt,
    List.length_replicate, Nat.shiftLeft_eq, radix_pow_eq]
  conv_rhs => rw [count_eq n, Nat.pow_add]
  ring

theorem rightShifter_eq (a n : Nat) : rightShifter a n = a / 2^n := by
  have hlt : a >>> n < radix^(digitLen a - n >>> 5) := by
    rw [Nat.shiftRight_eq_div_pow]
    refine Nat.div_lt_of_lt_mul ((lt_radix_pow_digitLen a).trans_le ?_)
    rw [radix_pow_eq, radix_pow_eq, ← Nat.pow_add]
    exact Nat.pow_le_pow_right (by decide) (by have := count_eq n; omega)
  have hdigits : shiftRightDigit a (n >>> 5) (n &&& 31) = digit (a >>> n) := funext fun i => by
    rw [shiftRightDigit_eq a _ i (count_bits_lt n), ← count_eq]
  rw [rightShifter, hdigits, digitsValue_map_digit, Nat.mod_eq_of_lt hlt, Nat.shiftRight_eq_div_pow]

/-- Settles O50, by the digits of the shifted number. -/
theorem shiftersScaleByPowersOfTwo : Obligations.ShiftersScaleByPowersOfTwo :=
  fun a n => ⟨leftShifter_eq a n, rightShifter_eq a n⟩

end Sys2Proof.Machine
end

section
/-! SUPPORT. The multiplier and the squarer (42_kernel.md R245, R247): what the product buffer holds within a row and after each
row, and the squares of a number's lower and upper parts. -/

namespace Sys2Proof.Machine

/-! ### The multiplier -/

/-- Within row `i`, before position `j`: the buffer with the carry holds the rows before and the part of row `i` formed so far,
and the digits further up are as the row found them. -/
structure RowFormed (ai b i : Nat) (p : List Nat) (j : Nat) (s : List Nat × Nat) : Prop where
  length : s.1.length = p.length
  digits : ∀ d ∈ s.1, d < 2^32
  carry  : s.2 < 2^32
  value  : digitsValue s.1 + s.2 * radix^(i + j) = digitsValue p + ai * (b % radix^j) * radix^i
  above  : ∀ k, i + j ≤ k → s.1.getD k 0 = p.getD k 0

theorem getD_lt_of_digits {ds : List Nat} (h : ∀ d ∈ ds, d < 2^32) (k : Nat) : ds.getD k 0 < 2^32 := by
  by_cases hk : k < ds.length
  · rw [List.getD_eq_getElem _ _ hk]; exact h _ (List.getElem_mem hk)
  · rw [List.getD_eq_default _ _ (Nat.le_of_not_lt hk)]; decide

/-- Storing a digit leaves a list of digits. -/
theorem set_digits {ds : List Nat} (h : ∀ d ∈ ds, d < 2^32) {x : Nat} (hx : x < 2^32) (k : Nat) :
    ∀ d ∈ ds.set k x, d < 2^32 :=
  fun d hd => (List.mem_or_eq_of_mem_set hd).elim (h d) fun he => he ▸ hx

theorem getD_set_ne {ds : List Nat} {j k : Nat} (h : j ≠ k) (x : Nat) : (ds.set j x).getD k 0 = ds.getD k 0 := by
  simp only [List.getD_eq_getElem?_getD, List.getElem?_set_ne h]

theorem RowFormed.step {ai b i j : Nat} {p : List Nat} {s : List Nat × Nat} (h : RowFormed ai b i p j s) (ha : ai < 2^32)
    (hj : i + j < p.length) : RowFormed ai b i p (j + 1) (mulStep ai b i s j) := by
  obtain ⟨hlen, hdig, hcarry, hval, habove⟩ := h
  have ht : s.1.getD (i + j) 0 + ai * digit b j + s.2 < 2^32 * 2^32 := by
    have hp := getD_lt_of_digits hdig (i + j)
    have hm : ai * digit b j ≤ (2^32 - 1) * (2^32 - 1) := Nat.mul_le_mul (by omega) (Nat.le_pred_of_lt (digit_lt b j))
    omega
  have hset := digitsValue_set (hlen ▸ hj) ((s.1.getD (i + j) 0 + ai * digit b j + s.2) % radix)
  have hdiv := Nat.mod_add_div (s.1.getD (i + j) 0 + ai * digit b j + s.2) radix
  refine ⟨?_, set_digits hdig (Nat.mod_lt _ (by decide)) _, Nat.div_lt_of_lt_mul ht, ?_, fun k hk => ?_⟩
  · exact (List.length_set ..).trans hlen
  · rw [mod_radix_pow_succ, ← Nat.add_assoc, Nat.pow_succ]
    change digitsValue (s.1.set (i + j) (_ % radix)) + _ / radix * _ = _
    linear_combination hset + hval + radix^(i + j) * hdiv
  · exact (getD_set_ne (by omega) _).trans (habove k (by omega))

theorem mulRow_formed {a b i : Nat} {p : List Nat} (hp : ∀ d ∈ p, d < 2^32) (hi : i + digitLen b ≤ p.length) :
    RowFormed (digit a i) b i p (digitLen b) ((List.range (digitLen b)).foldl (mulStep (digit a i) b i) (p, 0)) :=
  foldl_range_invariant (P := RowFormed (digit a i) b i p) _
    ⟨rfl, hp, Nat.two_pow_pos 32, by simp [Nat.mod_one], fun _ _ => rfl⟩
    fun j _ hj h => h.step (digit_lt a i) (by omega)

/-- After the rows below `i`, the buffer holds the product of `a`'s low part, and zero digits further up. -/
structure RowsAdded (a b i : Nat) (p : List Nat) : Prop where
  length : p.length = digitLen a + digitLen b
  digits : ∀ d ∈ p, d < 2^32
  value  : digitsValue p = a % radix^i * b
  above  : ∀ k, i + digitLen b ≤ k → p.getD k 0 = 0

theorem RowsAdded.step {a b i : Nat} {p : List Nat} (h : RowsAdded a b i p) (hi : i < digitLen a) :
    RowsAdded a b (i + 1) (mulRow a b p i) := by
  obtain ⟨hlen, hdig, hval, habove⟩ := h
  obtain ⟨rlen, rdig, rcarry, rval, rabove⟩ := mulRow_formed (a := a) (b := b) (i := i) hdig (by omega)
  unfold mulRow
  generalize (List.range (digitLen b)).foldl (mulStep (digit a i) b i) (p, 0) = s at rlen rdig rcarry rval rabove
  have hset := digitsValue_set (ds := s.1) (k := i + digitLen b) (by omega) s.2
  rw [rabove _ (Nat.le_refl _), habove _ (Nat.le_refl _), Nat.zero_mul, Nat.add_zero] at hset
  rw [mod_radix_pow_of_digitLen_le (Nat.le_refl _)] at rval
  refine ⟨(List.length_set ..).trans (rlen.trans hlen), set_digits rdig rcarry _, ?_, fun k hk => ?_⟩
  · rw [mod_radix_pow_succ]
    linear_combination hset + rval + hval
  · rw [getD_set_ne (by omega), rabove k (by omega), habove k (by omega)]

/-- The product buffer after the last row. -/
theorem multiplierDigits_rowsAdded (a b : Nat) : RowsAdded a b (digitLen a) (multiplierDigits a b) := by
  refine foldl_range_invariant (P := RowsAdded a b) _ ⟨List.length_replicate, fun d hd => ?_, ?_, fun k _ => ?_⟩
    fun i p hi h => h.step hi
  · rw [List.eq_of_mem_replicate hd]; decide
  · rw [digitsValue_replicate_zero, Nat.pow_zero, Nat.mod_one, Nat.zero_mul]
  · rw [List.getD_eq_getElem?_getD, List.getElem?_replicate]; split <;> rfl

theorem multiplier_eq_mul (a b : Nat) : multiplier a b = a * b := by
  rw [multiplier, (multiplierDigits_rowsAdded a b).value, mod_radix_pow_of_digitLen_le (Nat.le_refl _)]

/-! ### The squarer -/

/-- One step of the squarer's inner loop: the product of digits `i` and `j`, once for each pair (R247). -/
def crossStep (a i p j : Nat) : Nat := if i < j then p + digit a i * digit a j * radix^(i + j) else p

theorem squareCross_eq (a : Nat) : squareCross a =
    (List.range (digitLen a)).foldl (fun p i => (List.range (digitLen a)).foldl (crossStep a i) p) 0 := rfl

/-- The inner loop adds the products of digit `i` with all the digits above it. -/
theorem crossStep_fold {a i : Nat} (hi : i < digitLen a) (p : Nat) :
    (List.range (digitLen a)).foldl (crossStep a i) p = p + digit a i * radix^i * (a / radix^(i + 1) * radix^(i + 1)) := by
  have hsum := foldl_range_invariant (f := crossStep a i) (init := p) (digitLen a)
    (P := fun n q => q + digit a i * radix^i * (a % radix^(min n (i + 1))) = p + digit a i * radix^i * (a % radix^n))
    (by simp) fun n q _ hq => ?_
  · rw [min_eq_right hi, mod_radix_pow_of_digitLen_le (Nat.le_refl _)] at hsum
    refine Nat.add_right_cancel (m := digit a i * radix^i * (a % radix^(i + 1))) (hsum.trans ?_)
    rw [Nat.add_assoc, ← Nat.mul_add, Nat.mul_comm (a / _), Nat.div_add_mod]
  · unfold crossStep
    split_ifs with hin
    · rw [min_eq_right (by omega)] at hq ⊢
      rw [mod_radix_pow_succ a n]
      linear_combination hq
    · rw [min_eq_left (by omega)] at hq ⊢
      rw [Nat.add_right_cancel hq]

/-- The doubled cross terms and the diagonal make up the square: those below position `n` are what `a^2` has beyond the square of
the part of `a` from digit `n` up (R247). -/
theorem squareCross_spec (a : Nat) :
    2 * squareCross a + ∑ i ∈ Finset.range (digitLen a), digit a i * digit a i * radix^(2 * i) = a * a := by
  have hfold := foldl_range_invariant (f := fun p i => (List.range (digitLen a)).foldl (crossStep a i) p) (init := 0) (digitLen a)
    (P := fun n p => 2 * p + ∑ i ∈ Finset.range n, digit a i * digit a i * radix^(2 * i) + (a / radix^n * radix^n)^2 = a * a)
    (by simp [sq]) fun n p hn hp => ?_
  · rwa [Nat.div_eq_of_lt (lt_radix_pow_digitLen a), Nat.zero_mul, sq, Nat.zero_mul, Nat.add_zero] at hfold
  · have hsplit := div_radix_pow_eq a n
    rw [crossStep_fold hn, Finset.sum_range_succ]
    rw [hsplit] at hp
    rw [← hp]
    ring

theorem squarer_eq_mul_self (a : Nat) : squarer a = a * a := by
  have hdiag := foldl_range_invariant (f := fun p i => p + digit a i * digit a i * radix^(2 * i)) (init := squareCross a <<< 1)
    (P := fun n p => p = squareCross a <<< 1 + ∑ i ∈ Finset.range n, digit a i * digit a i * radix^(2 * i)) (digitLen a)
    (by simp) fun n p _ hp => by rw [Finset.sum_range_succ, hp, Nat.add_assoc]
  rw [squarer, hdiag, ← squareCross_spec, Nat.shiftLeft_eq, Nat.mul_comm _ (2^1)]

/-- Settles O49, by the product buffer after each row, and by the doubled cross terms and the diagonal of a square. -/
theorem multiplierAndSquarerAreExact : Obligations.MultiplierAndSquarerAreExact := by
  refine ⟨fun a b => ?_, squarer_eq_mul_self⟩
  obtain ⟨hlen, hdig, -, -⟩ := multiplierDigits_rowsAdded a b
  exact ⟨hlen, hdig, multiplier_eq_mul a b⟩

end Sys2Proof.Machine
end

section
/-! SUPPORT. The divider (42_kernel.md R253): the single-digit path, and Knuth's quotient digit, whose corrected estimate is the
true digit or one more. -/

namespace Sys2Proof.Machine

/-! ### The single-digit path -/

/-- One digit of the single-digit path. Stated of the function, since the kernel cannot compare two applications of it. -/
theorem divideSingle_succ (a d n : Nat) : divideSingle a d (n + 1) = fun p : Nat × Nat =>
    divideSingle a d n (p.1 + (p.2 * 2^32 + digit a n) / d * radix^n, (p.2 * 2^32 + digit a n) % d) := rfl

theorem divideSingle_zero (a d : Nat) (p : Nat × Nat) : divideSingle a d 0 p = p := rfl

/-- From digit `n-1` down, the path divides the remainder so far followed by the low digits. -/
theorem divideSingle_eq {a d r : Nat} (hr : r < d) (n q : Nat) : divideSingle a d n (q, r) =
    (q + (r * radix^n + a % radix^n) / d, (r * radix^n + a % radix^n) % d) := by
  have hd := Nat.zero_lt_of_lt hr
  induction n generalizing q r with
  | zero => simp [divideSingle_zero, Nat.mod_one, Nat.div_eq_of_lt hr, Nat.mod_eq_of_lt hr]
  | succ n ih =>
    have hsplit : r * radix^(n + 1) + a % radix^(n + 1) =
        d * ((r * 2^32 + digit a n) / d * radix^n) + ((r * 2^32 + digit a n) % d * radix^n + a % radix^n) := by
      have hdiv := Nat.div_add_mod (r * 2^32 + digit a n) d
      rw [mod_radix_pow_succ, show radix^(n + 1) = radix^n * 2^32 from Nat.pow_succ ..]
      linear_combination radix^n * hdiv.symm
    rw [divideSingle_succ]
    dsimp only
    rw [ih (Nat.mod_lt _ hd), hsplit, Nat.mul_add_div hd, Nat.mul_add_mod, Nat.add_assoc]

/-! ### The leading digits -/

theorem leading_digit {v k : Nat} (hv : v < radix^(k + 1)) : digit v k = v / radix^k := by
  rw [div_radix_pow_eq v k, Nat.div_eq_of_lt hv, Nat.mul_zero, Nat.add_zero]

/-- A number's part from digit `k` up, by its lowest digit. -/
theorem leading_digits (u k : Nat) : u / radix^(k + 1) * 2^32 + digit u k = u / radix^k := by
  rw [div_radix_pow_eq u k, Nat.add_comm, Nat.mul_comm, radix]

/-- The quotient's multiple of a divisor fits in the leading parts. -/
theorem quotient_mul_leading_le (u v k j : Nat) : u / (v * radix^j) * (v / radix^k) ≤ u / radix^(j + k) := by
  refine (Nat.le_div_iff_mul_le (radix_pow_pos _)).2 ?_
  calc u / (v * radix^j) * (v / radix^k) * radix^(j + k)
      = u / (v * radix^j) * (v / radix^k * radix^k * radix^j) := by rw [Nat.pow_add]; ring
    _ ≤ u / (v * radix^j) * (v * radix^j) := Nat.mul_le_mul_left _ (Nat.mul_le_mul_right _ (Nat.div_mul_le_self _ _))
    _ ≤ u := Nat.div_mul_le_self _ _

/-- A multiple that fits with one unit more in the divisor's leading part is at most the quotient. -/
theorem le_quotient_of_leading {u v k j c : Nat} (hv : 0 < v) (h : c * (v / radix^k + 1) ≤ u / radix^(j + k)) :
    c ≤ u / (v * radix^j) := by
  refine (Nat.le_div_iff_mul_le (Nat.mul_pos hv (radix_pow_pos j))).2 ?_
  have hround : v ≤ (v / radix^k + 1) * radix^k := by
    rw [Nat.succ_mul]; exact (Nat.lt_div_mul_add (radix_pow_pos k)).le
  calc c * (v * radix^j) ≤ c * ((v / radix^k + 1) * radix^k * radix^j) :=
        Nat.mul_le_mul_left _ (Nat.mul_le_mul_right _ hround)
    _ = c * (v / radix^k + 1) * radix^(j + k) := by rw [Nat.pow_add]; ring
    _ ≤ u / radix^(j + k) * radix^(j + k) := Nat.mul_le_mul_right _ h
    _ ≤ u := Nat.div_mul_le_self _ _

/-! ### The estimate -/

/-- An estimate `p.1` of the quotient digit `q`, with the remainder `p.2` it leaves of the two leading digits `top`. -/
structure Estimates (w top q : Nat) (p : Nat × Nat) : Prop where
  balance : p.1 * w + p.2 = top
  atLeast : q ≤ p.1
  isDigit : p.1 < 2^32

/-- The first estimate (R253): the leading two digits by the leading one, at most the largest digit, and the remainder. -/
def firstEstimate (w top : Nat) : Nat × Nat := (min (top / w) (2^32 - 1), top - min (top / w) (2^32 - 1) * w)

/-- Both tests of an estimate (R253). -/
def testedTwice (w vNext uNext : Nat) (p : Nat × Nat) : Nat × Nat := knuthCorrect w vNext uNext (knuthCorrect w vNext uNext p)

/-- The estimate is the first one, tested twice. Stated of the function, as `divideSingle_succ` is. -/
theorem knuthEstimate_def : knuthEstimate = fun u v lb j =>
    (testedTwice (digit v (lb - 1)) (digit v (lb - 2)) (digit u (j + lb - 2))
      (firstEstimate (digit v (lb - 1)) (digit u (j + lb) * 2^32 + digit u (j + lb - 1)))).1 := rfl

theorem firstEstimate_estimates {w top q : Nat} (hw : 0 < w) (hq : q * w ≤ top) (hdigit : q < 2^32) :
    Estimates w top q (firstEstimate w top) where
  balance := Nat.add_sub_of_le ((Nat.le_div_iff_mul_le hw).1 (min_le_left _ _))
  atLeast := le_min ((Nat.le_div_iff_mul_le hw).2 hq) (Nat.le_pred_of_lt hdigit)
  isDigit := (min_le_right _ _).trans_lt (by decide)

/-- A test keeps an estimate of a digit that fits; if it leaves one that does not fit, it has taken one off (R253). -/
theorem Estimates.correct {w vNext uNext top q : Nat} {p : Nat × Nat} (h : Estimates w top q p) (hv : vNext < 2^32)
    (hq : q * (w * 2^32 + vNext) ≤ top * 2^32 + uNext) :
    Estimates w top q (knuthCorrect w vNext uNext p) ∧
      ((knuthCorrect w vNext uNext p).1 * (w * 2^32 + vNext) ≤ top * 2^32 + uNext ∨
        (knuthCorrect w vNext uNext p).1 + 1 = p.1) := by
  obtain ⟨hbal, hle, hdig⟩ := h
  have hexcess : p.1 * (w * 2^32 + vNext) + p.2 * 2^32 = top * 2^32 + p.1 * vNext := by
    linear_combination 2^32 * hbal
  unfold knuthCorrect
  split_ifs with hc
  · obtain ⟨-, hover⟩ := hc
    have hlt : q < p.1 := Nat.lt_of_mul_lt_mul_right (a := w * 2^32 + vNext) (by omega)
    obtain ⟨k, hk⟩ : ∃ k, p.1 = k + 1 := ⟨p.1 - 1, by omega⟩
    refine ⟨⟨?_, Nat.le_sub_one_of_lt hlt, by omega⟩, .inr (Nat.sub_add_cancel (Nat.zero_lt_of_lt hlt))⟩
    rw [hk] at hbal ⊢
    rw [Nat.add_sub_cancel]
    linear_combination hbal
  · refine ⟨⟨hbal, hle, hdig⟩, .inl ?_⟩
    have hnext : p.1 * vNext ≤ p.2 * 2^32 + uNext := by
      by_cases hr : p.2 < 2^32
      · exact Nat.le_of_not_lt fun hover => hc ⟨hr, hover⟩
      · have hmul : p.1 * vNext ≤ 2^32 * 2^32 := Nat.mul_le_mul hdig.le hv.le
        omega
    omega

/-- What normalization gives a divisor of `l + 2` digits: its top bit is set (R253). -/
structure Normalized (v l : Nat) : Prop where
  below : v < radix^(l + 2)
  high  : 2^31 ≤ v / radix^(l + 1)

theorem Normalized.pos {v l : Nat} (h : Normalized v l) : 0 < v :=
  Nat.pos_of_ne_zero fun h0 => absurd h.high (by rw [h0, Nat.zero_div]; decide)

/-- After two tests an estimate less one fits with a unit more in the two leading digits of the divisor, or two decrements make
the whole estimate fit with a unit more in the leading one. -/
theorem Estimates.tested_twice {w vNext uNext top q : Nat} {p : Nat × Nat} (h : Estimates w top q p) (hw : 2^31 ≤ w)
    (hv : vNext < 2^32) (hq : q * (w * 2^32 + vNext) ≤ top * 2^32 + uNext) :
    q ≤ (testedTwice w vNext uNext p).1 ∧
      (((testedTwice w vNext uNext p).1 - 1) * (w * 2^32 + vNext + 1) ≤ top * 2^32 + uNext ∨
        (testedTwice w vNext uNext p).1 * (w + 1) ≤ top) := by
  obtain ⟨h1, hfit1⟩ := h.correct hv hq
  obtain ⟨h2, hfit2⟩ := h1.correct hv hq
  unfold testedTwice
  generalize knuthCorrect w vNext uNext (knuthCorrect w vNext uNext p) = p2 at h2 hfit2 ⊢
  generalize knuthCorrect w vNext uNext p = p1 at h1 hfit1 hfit2
  have hdig := h2.isDigit
  have hless (hfit : p2.1 * (w * 2^32 + vNext) ≤ top * 2^32 + uNext) :
      (p2.1 - 1) * (w * 2^32 + vNext + 1) ≤ top * 2^32 + uNext := by
    cases hp : p2.1 with
    | zero => simp
    | succ k =>
      rw [hp, Nat.succ_mul] at hfit
      rw [Nat.add_sub_cancel, Nat.mul_succ]
      omega
  refine ⟨h2.atLeast, ?_⟩
  obtain hfit2 | hdec2 := hfit2
  · exact .inl (hless hfit2)
  · obtain hfit1 | hdec1 := hfit1
    · exact .inl (hless ((Nat.mul_le_mul_right _ (by omega)).trans hfit1))
    · refine .inr ?_
      have hbal := h.balance
      rw [← hdec1, ← hdec2, Nat.add_assoc, Nat.add_mul] at hbal
      rw [Nat.mul_succ]
      omega

/-- The estimate in the leading parts of the dividend and the divisor. -/
theorem knuthEstimate_eq {u v l j : Nat} (hv : v < radix^(l + 2)) (hu : u < radix^(j + l + 3)) :
    knuthEstimate u v (l + 2) j =
      (testedTwice (v / radix^(l + 1)) (digit v l) (digit u (j + l))
        (firstEstimate (v / radix^(l + 1)) (u / radix^(j + l + 1)))).1 := by
  have htop : digit u (j + l + 2) * 2^32 + digit u (j + l + 1) = u / radix^(j + l + 1) := by
    rw [leading_digit hu, leading_digits]
  rw [knuthEstimate_def, ← htop, ← leading_digit hv]
  rfl

/-- The corrected estimate is the quotient digit, or one more (R253). -/
theorem knuthEstimate_bounds {u v l j : Nat} (hn : Normalized v l) (hu : u < v * radix^j * 2^32) :
    u / (v * radix^j) ≤ knuthEstimate u v (l + 2) j ∧ knuthEstimate u v (l + 2) j ≤ u / (v * radix^j) + 1 := by
  have hubelow : u < radix^(j + l + 3) :=
    calc u < v * radix^j * radix := hu
      _ ≤ radix^(l + 2) * radix^j * radix := Nat.mul_le_mul_right _ (Nat.mul_le_mul_right _ hn.below.le)
      _ = radix^(j + l + 3) := by ring
  have htwo : u / (v * radix^j) * (v / radix^(l + 1)) ≤ u / radix^(j + l + 1) := quotient_mul_leading_le u v (l + 1) j
  have hthree := quotient_mul_leading_le u v l j
  rw [← leading_digits v l, ← leading_digits u (j + l)] at hthree
  have htwice := (firstEstimate_estimates (hn.high.trans_lt' (by decide)) htwo (Nat.div_lt_of_lt_mul hu)).tested_twice hn.high
    (digit_lt v l) hthree
  rw [knuthEstimate_eq hn.below hubelow]
  refine ⟨htwice.1, ?_⟩
  obtain ⟨-, hfit | hfit⟩ := htwice
  · rw [leading_digits, leading_digits] at hfit
    exact Nat.sub_le_iff_le_add.1 (le_quotient_of_leading hn.pos hfit)
  · exact (le_quotient_of_leading (k := l + 1) hn.pos hfit).trans (Nat.le_succ _)

/-! ### The quotient -/

/-- One position gives the quotient digit, and leaves the remainder by the divisor at that position (R253). -/
theorem knuthStep_eq {v l j u : Nat} (hn : Normalized v l) (hu : u < v * radix^j * 2^32) (q : Nat) :
    knuthStep v (l + 2) (q, u) j = (q + u / (v * radix^j) * radix^j, u % (v * radix^j)) := by
  obtain ⟨hle, hge⟩ := knuthEstimate_bounds hn hu
  have hdiv := Nat.div_add_mod' u (v * radix^j)
  have hmod := Nat.mod_lt u (Nat.mul_pos hn.pos (radix_pow_pos j))
  unfold knuthStep
  simp only [Nat.mul_assoc]
  obtain hq | hq : knuthEstimate u v (l + 2) j = u / (v * radix^j) + 1 ∨
      knuthEstimate u v (l + 2) j = u / (v * radix^j) := by omega
  · rw [hq, Nat.succ_mul, if_pos (by omega), Nat.add_sub_cancel]
    exact Prod.ext rfl (by omega)
  · rw [hq, if_neg (by omega)]
    exact Prod.ext rfl (by omega)

theorem knuthLoop_zero (v lb : Nat) (p : Nat × Nat) : knuthLoop v lb 0 p = p := rfl

/-- One position of the loop. Stated of the function, as `divideSingle_succ` is. -/
theorem knuthLoop_succ (v lb n : Nat) : knuthLoop v lb (n + 1) = fun p => knuthLoop v lb n (knuthStep v lb p n) := rfl

/-- The positions below `n` divide a dividend that has no quotient digit above them. -/
theorem knuthLoop_eq {v l n u : Nat} (hn : Normalized v l) (hu : u < v * radix^n) (q : Nat) :
    knuthLoop v (l + 2) n (q, u) = (q + u / v, u % v) := by
  induction n generalizing q u with
  | zero =>
    rw [Nat.pow_zero, Nat.mul_one] at hu
    rw [knuthLoop_zero, Nat.div_eq_of_lt hu, Nat.mod_eq_of_lt hu, Nat.add_zero]
  | succ n ih =>
    have hu' : u < v * radix^n * 2^32 := hu.trans_eq (Nat.mul_assoc ..).symm
    have hdiv : v * (u / (v * radix^n) * radix^n) + u % (v * radix^n) = u := by
      rw [Nat.mul_left_comm, Nat.mul_comm]; exact Nat.div_add_mod ..
    have hquot : u / v = u / (v * radix^n) * radix^n + u % (v * radix^n) / v := by
      conv_lhs => rw [← hdiv, Nat.mul_add_div hn.pos]
    rw [knuthLoop_succ]
    dsimp only
    rw [knuthStep_eq hn hu', ih (Nat.mod_lt _ (Nat.mul_pos hn.pos (radix_pow_pos n))), hquot, Nat.add_assoc, Nat.mod_mul_right_mod]

/-- Normalization sets the top bit of a divisor of at least two digits. -/
theorem normalized_shifted {d l : Nat} (hl : digitLen d = l + 2) : Normalized (d <<< (32 * (l + 2) - bitLen d)) l := by
  have hbits : bitLen d ≤ 32 * (l + 2) := bitLen_le_iff.2 (by rw [← radix_pow_eq, ← hl]; exact lt_radix_pow_digitLen d)
  have hd : d ≠ 0 := by rintro rfl; simp at hl
  have hpos := bitLen_pos hd
  rw [Nat.shiftLeft_eq]
  refine ⟨?_, (Nat.le_div_iff_mul_le (radix_pow_pos _)).2 ?_⟩
  · calc d * 2^(32 * (l + 2) - bitLen d) < 2^(bitLen d) * 2^(32 * (l + 2) - bitLen d) :=
          Nat.mul_lt_mul_of_pos_right (lt_two_pow_bitLen d) (Nat.two_pow_pos _)
      _ = radix^(l + 2) := by rw [← Nat.pow_add, radix_pow_eq]; congr 1; omega
  · calc 2^31 * radix^(l + 1) = 2^(bitLen d - 1) * 2^(32 * (l + 2) - bitLen d) := by
          rw [radix_pow_eq, ← Nat.pow_add, ← Nat.pow_add]; congr 1; omega
      _ ≤ d * 2^(32 * (l + 2) - bitLen d) := Nat.mul_le_mul_right _ (two_pow_le_of_ne_zero hd)

theorem divideKnuth_eq {a d l : Nat} (hl : digitLen d = l + 2) : divideKnuth a d = (a / d, a % d) := by
  have hd : d ≠ 0 := by rintro rfl; simp at hl
  have hfits : a < d * radix^(digitLen a + 1 - (l + 2)) := by
    have htop := radix_pow_le_of_ne_zero hd
    rw [hl] at htop
    calc a < radix^(digitLen a) := lt_radix_pow_digitLen a
      _ ≤ radix^(l + 1 + (digitLen a + 1 - (l + 2))) := Nat.pow_le_pow_right radix_pos (by omega)
      _ ≤ d * radix^(digitLen a + 1 - (l + 2)) := by rw [Nat.pow_add]; exact Nat.mul_le_mul_right _ htop
  have hloop (s : Nat) (hn : Normalized (d <<< s) l) :
      knuthLoop (d <<< s) (l + 2) (digitLen a + 1 - (l + 2)) (0, a <<< s) = (a / d, (a % d) <<< s) := by
    rw [knuthLoop_eq hn, Nat.zero_add]
    · simp only [Nat.shiftLeft_eq]
      rw [Nat.mul_div_mul_right _ _ (Nat.two_pow_pos s), Nat.mul_mod_mul_right]
    · rw [Nat.shiftLeft_eq, Nat.shiftLeft_eq, Nat.mul_right_comm]
      exact Nat.mul_lt_mul_of_pos_right hfits (Nat.two_pow_pos s)
  unfold divideKnuth
  simp only [hl, hloop _ (normalized_shifted hl), Nat.shiftLeft_shiftRight]

theorem divider_eq {d : Nat} (hd : d ≠ 0) (a : Nat) : divider a d = (a / d, a % d) := by
  unfold divider
  split_ifs with h1
  · rw [divideSingle_eq (Nat.pos_of_ne_zero hd), Nat.zero_mul, Nat.zero_add, Nat.zero_add,
      mod_radix_pow_of_digitLen_le (Nat.le_refl _)]
  · obtain ⟨l, hl⟩ : ∃ l, digitLen d = l + 2 := ⟨digitLen d - 2, by have := digitLen_pos d; omega⟩
    exact divideKnuth_eq hl

/-- Settles O51, by the two paths of the divider. -/
theorem dividerGivesQuotientAndRemainder : Obligations.DividerGivesQuotientAndRemainder := by
  intro a d hd
  rw [divider_eq hd]
  exact ⟨rfl, (Nat.div_add_mod' a d).symm, Nat.mod_lt a (Nat.pos_of_ne_zero hd)⟩

end Sys2Proof.Machine
end

section
/-! SUPPORT. The obligations about the Magnitude Kernel commands (42_kernel.md R240 to R254): each command's body answers its fault
or the state it stages. -/

namespace Sys2Proof.Machine

variable {s t : State}

/-- A command with two sources, either of them unwritten, takes the trap UnwrittenRegister. -/
theorem traps_unwrittenPair {i : Instr} {ra rb : RegIdx} (hi : i.WellFormed) (hsrc : i.sources = [ra, rb])
    (hw : s.regs[ra].wr = false ∨ s.regs[rb].wr = false) : Traps i s .unwrittenRegister :=
  hw.elim (traps_unwrittenRegister hi (by simp [hsrc])) (traps_unwrittenRegister hi (by simp [hsrc]))

/-- A body that reads two written sources first goes on with their values (R11). -/
theorem source_bind_pair_written {ra rb : RegIdx} (ha : s.regs[ra].wr = true) (hb : s.regs[rb].wr = true)
    (f : Nat → Nat → Except FaultCode State) :
    (s.source ra >>= fun a => s.source rb >>= f a) = f s.regs[ra].val s.regs[rb].val := by
  rw [source_bind_written ha, source_bind_written hb]

/-- An exact result above `VMAX` raises CapacityOverflow (R9). -/
theorem fitted_bind_overflow {v : Nat} (h : s.vmax < v) (f : Nat → Except FaultCode State) :
    (s.fitted v >>= f) = .error .capacityOverflow := by
  rw [State.fitted_overflow h]; rfl

theorem fitted_bind_ok {v : Nat} (h : v ≤ s.vmax) (f : Nat → Except FaultCode State) : (s.fitted v >>= f) = f v := by
  rw [State.fitted_ok h]; rfl

/-- CMP leaves at most one of LT, EQ and GT (R240). -/
theorem Flags.compared_ok (f : Flags) (a b : Nat) : (f.compared a b).ok := by
  simp only [Flags.ok, Flags.compared, decide_eq_true_eq]; omega

/-- CMP leaves at least one of LT, EQ and GT (R240). -/
theorem Flags.compared_some (f : Flags) (a b : Nat) :
    ((f.compared a b).lt || (f.compared a b).eq || (f.compared a b).gt) = true := by
  simp only [Flags.compared, Bool.or_eq_true, decide_eq_true_eq]; omega

/-- Settles O30: CMP stages FLAGS alone, and the comparator orders by length, then by digits. -/
theorem cmpOrdersTwoMagnitudes : Obligations.CmpOrdersTwoMagnitudes := by
  refine ⟨fun s ra rb => ⟨encodedAs (row := opcodeRowsKernel[0]) rfl rfl, traps_unwrittenPair rfl rfl, fun ha hb => ?_⟩,
    comparator_eq⟩
  exact State.command_completes rfl (source_bind_pair_written ha hb _)
    ⟨(Staged.compared ra rb _ _).completed nofun (fun _ _ => rfl) 1, rfl, ⟨fun _ => rfl, rfl⟩, rfl, rfl, rfl, rfl,
      Flags.compared_ok .., Flags.compared_some ..⟩

/-- Settles O31, by the two sides of the capacity check. -/
theorem addIsExactOrOverflows : Obligations.AddIsExactOrOverflows := fun s rd ra rb =>
  ⟨encodedAs (row := opcodeRowsKernel[1]) rfl rfl, traps_unwrittenPair rfl rfl, fun ha hb =>
    ⟨fun hv => State.command_traps rfl ((source_bind_pair_written ha hb _).trans (fitted_bind_overflow hv _)),
      fun hv => completes_wrote rfl ((source_bind_pair_written ha hb _).trans (fitted_bind_ok hv _))⟩⟩

/-- Settles O32, by the two sides of the comparison inside SUB. -/
theorem subIsExactOrFaultsNegative : Obligations.SubIsExactOrFaultsNegative := fun s rd ra rb =>
  ⟨encodedAs (row := opcodeRowsKernel[2]) rfl rfl, traps_unwrittenPair rfl rfl, fun ha hb =>
    ⟨fun hlt => State.command_traps rfl ((source_bind_pair_written ha hb _).trans (if_pos hlt)),
      fun hle => completes_wrote rfl ((source_bind_pair_written ha hb _).trans (if_neg (Nat.not_lt.2 hle)))⟩⟩

/-- Settles O33, by the two sides of the capacity check. -/
theorem mulAndSqrAreExactOrOverflow : Obligations.MulAndSqrAreExactOrOverflow :=
  ⟨fun s rd ra rb => ⟨encodedAs (row := opcodeRowsKernel[3]) rfl rfl, traps_unwrittenPair rfl rfl, fun ha hb =>
    ⟨fun hv => State.command_traps rfl ((source_bind_pair_written ha hb _).trans (fitted_bind_overflow hv _)),
      fun hv => completes_wrote rfl ((source_bind_pair_written ha hb _).trans (fitted_bind_ok hv _))⟩⟩,
    fun s rd ra => ⟨encodedAs (row := opcodeRowsKernel[4]) rfl rfl, traps_unwrittenRegister rfl (.head _), fun ha =>
      ⟨fun hv => State.command_traps rfl ((source_bind_written ha _).trans (fitted_bind_overflow hv _)),
        fun hv => completes_wrote rfl ((source_bind_written ha _).trans (fitted_bind_ok hv _))⟩⟩⟩

/-! ### Signed immediates -/

/-- A negative immediate has its top bit set (R10). -/
theorem toInt_neg_iff (imm : Word) : imm.toInt < 0 ↔ 2^31 ≤ imm.toNat := by
  have := imm.isLt
  rw [BitVec.toInt_eq_toNat_cond]
  split <;> omega

/-- A negative immediate raises the command's fault (R142). -/
theorem immNonNegative_bind_negative {imm : Word} {c : FaultCode} (h : imm.toInt < 0) (f : Nat → Except FaultCode State) :
    (immNonNegative imm c >>= f) = .error c := by
  rw [immNonNegative_negative c ((toInt_neg_iff imm).1 h)]; rfl

theorem immNonNegative_bind_ok {imm : Word} {c : FaultCode} (h : 0 ≤ imm.toInt) (f : Nat → Except FaultCode State) :
    (immNonNegative imm c >>= f) = f imm.toNat := by
  rw [immNonNegative_ok c (Nat.lt_of_not_le fun hn => Int.not_lt.2 h ((toInt_neg_iff imm).2 hn))]; rfl

/-- A body that reads a written source and a non-negative immediate goes on with both. -/
theorem source_bind_count {r : RegIdx} {imm : Word} (hw : s.regs[r].wr = true) (h : 0 ≤ imm.toInt) (c : FaultCode)
    (f : Nat → Nat → Except FaultCode State) :
    (s.source r >>= fun a => immNonNegative imm c >>= f a) = f s.regs[r].val imm.toNat := by
  rw [source_bind_written hw, immNonNegative_bind_ok h]

/-- Settles O34: the multiplier is checked first, then the capacity. -/
theorem mulwMultipliesByASignedImmediate : Obligations.MulwMultipliesByASignedImmediate := by
  refine fun s rd ra imm => ⟨encodedAs (row := opcodeRowsKernel[5]) rfl rfl, traps_unwrittenRegister rfl (.head _), fun ha =>
    ⟨fun hn => State.command_traps rfl ((source_bind_written ha _).trans (immNonNegative_bind_negative hn _)), fun hn => ?_⟩⟩
  have hbody (f : Nat → Nat → Except FaultCode State) := source_bind_count ha hn .negativeMultiplier f
  exact ⟨fun hv => State.command_traps rfl ((hbody _).trans (fitted_bind_overflow hv _)),
    fun hv => completes_wrote rfl ((hbody _).trans (fitted_bind_ok hv _))⟩

/-- SHL's test on the bit length is the capacity check on the value (R251; log 19). -/
theorem shl_fits_iff {a : Nat} (ha : a ≠ 0) (n : Nat) : bitLen a + n ≤ 32 * s.cfg.maxw ↔ a * 2^n ≤ s.vmax := by
  rw [State.le_vmax_iff]
  constructor
  · intro h
    calc a * 2^n < 2^(bitLen a) * 2^n := Nat.mul_lt_mul_of_pos_right (lt_two_pow_bitLen a) (Nat.two_pow_pos n)
      _ = 2^(bitLen a + n) := (Nat.pow_add ..).symm
      _ ≤ 2^(32 * s.cfg.maxw) := Nat.pow_le_pow_right (by decide) h
  · intro h
    have hle : 2^(bitLen a - 1 + n) ≤ a * 2^n := by
      rw [Nat.pow_add]; exact Nat.mul_le_mul_right _ (two_pow_le_of_ne_zero ha)
    have hlt := (Nat.pow_lt_pow_iff_right (by decide)).1 (hle.trans_lt h)
    have hpos := bitLen_pos ha
    omega

/-- What SHL stages, said on the value as R251 does. -/
theorem State.shiftedLeft_eq (s : State) (a n : Nat) : s.shiftedLeft a n = s.fitted (a * 2^n) := by
  unfold State.shiftedLeft
  split_ifs with h0 h
  · rw [h0, Nat.zero_mul, State.fitted_ok (Nat.zero_le _)]
  · rw [State.fitted_overflow (Nat.lt_of_not_le fun hle => Nat.not_le.2 h ((shl_fits_iff h0 n).2 hle))]
  · rw [State.fitted_ok ((shl_fits_iff h0 n).1 (Nat.le_of_not_lt h))]

/-- Settles O35: the count is checked first, then SHL's capacity. -/
theorem shlAndShrScaleByPowersOfTwo : Obligations.ShlAndShrScaleByPowersOfTwo := by
  refine fun s rd ra imm => ⟨encodedAs (row := opcodeRowsKernel[6]) rfl rfl, encodedAs (row := opcodeRowsKernel[7]) rfl rfl,
    fun hw => ⟨traps_unwrittenRegister rfl (.head _) hw, traps_unwrittenRegister rfl (.head _) hw⟩, fun ha =>
    ⟨fun hn => ⟨State.command_traps rfl ((source_bind_written ha _).trans (immNonNegative_bind_negative hn _)),
      State.command_traps rfl ((source_bind_written ha _).trans (immNonNegative_bind_negative hn _))⟩, fun hn => ?_⟩⟩
  have hbody (f : Nat → Nat → Except FaultCode State) := source_bind_count ha hn .negativeShift f
  refine ⟨fun hv => State.command_traps rfl ((hbody _).trans ?_), fun hv => completes_wrote rfl ((hbody _).trans ?_),
    completes_wrote rfl ((hbody _).trans ?_)⟩
  · rw [State.shiftedLeft_eq, fitted_bind_overflow hv]
  · rw [State.shiftedLeft_eq, fitted_bind_ok hv]; rfl
  · rw [Nat.shiftRight_eq_div_pow]; rfl

/-! ### DIVREM -/

/-- A DIVREM with one register as both destinations has no encoding (R148). -/
theorem decodeHead_divrem_same (rd ra rb : RegIdx) : ∃ e, decodeHead (encodeWord (.divrem rd rd ra rb)) = .error e := by
  refine (decodeHead_error_iff _).2 (.inr ⟨opcodeRowsKernel[8], by simp [opcodeMap],
    (opcOf_packWord (opc := 0x18) (by decide) _).symm, .inr (.inr ⟨rfl, ?_⟩)⟩)
  have hf : fieldsOf (encodeWord (.divrem rd rd ra rb)) = { rd, re := rd, ra, rb } :=
    fieldsOf_packWord (opc := 0x18) (by decide) _
  exact (congrArg Fields.rd hf).trans (congrArg Fields.re hf).symm

/-- The body of a DIVREM with two destinations and written sources (R254). -/
theorem divrem_body {rd re ra rb : RegIdx} (hne : rd ≠ re) (ha : s.regs[ra].wr = true) (hb : s.regs[rb].wr = true) :
    exec (.divrem rd re ra rb) s = s.command 1
      (if s.regs[rb].val = 0 then .error .divideByZero
        else .ok ((s.writeReg rd (s.regs[ra].val / s.regs[rb].val)).writeReg re (s.regs[ra].val % s.regs[rb].val))) :=
  congrArg (s.command 1) ((if_neg hne).trans (source_bind_pair_written ha hb _))

/-- Writing two registers changes those two alone. -/
theorem State.writeReg_pair_wrote {rd re : RegIdx} {n q r : Nat} (hne : rd ≠ re)
    (ht : t = ((s.writeReg rd q).writeReg re r).advance n) :
    Reg.Holds t.regs[rd] q ∧ Reg.Holds t.regs[re] r ∧ State.OnlyRegs s t n [rd, re] := by
  subst ht
  obtain ⟨hre, hcompleted, -, -, -⟩ := (s.writeReg rd q).writeReg_wrote n re r
  refine ⟨?_, hre,
    { completed :=
        { pc := rfl, scratch := rfl, regs := fun j hj => ?_,
          status := ⟨rfl, rfl, rfl, rfl, rfl, rfl, rfl, rfl⟩,
          outside := ⟨rfl, rfl, fun _ => rfl, rfl, rfl, rfl⟩ },
      rings := rfl, flags := rfl, io := ⟨fun _ => rfl, rfl⟩ }⟩
  · rw [hcompleted.regs rd (by simpa using hne)]
    exact (s.writeReg_wrote n rd q).holds
  · obtain ⟨hjd, hje⟩ : j ≠ rd ∧ j ≠ re := by simpa using hj
    exact (State.writeReg_get_ne _ r hje).trans (State.writeReg_get_ne s q hjd)

/-- Settles O36, by DIVREM's checks and the two registers it stages. -/
theorem divremWritesQuotientAndRemainder : Obligations.DivremWritesQuotientAndRemainder := by
  refine fun s rd re ra rb => ⟨fun h => h ▸ decodeHead_divrem_same rd ra rb, fun hne => ?_⟩
  have hwf : (Instr.divrem rd re ra rb).WellFormed := by simpa [Instr.WellFormed, Instr.wellFormed] using hne
  refine ⟨encodedAs (row := opcodeRowsKernel[8]) hwf rfl, traps_unwrittenPair hwf rfl, fun ha hb =>
    ⟨fun h0 => State.command_traps (divrem_body hne ha hb) (if_pos h0),
      fun h0 => State.command_completes (divrem_body hne ha hb) (if_neg h0) ?_⟩⟩
  obtain ⟨hq, hr, hframe⟩ := State.writeReg_pair_wrote hne rfl
  refine ⟨hq, hr, ?_, ?_, hframe⟩
  · rw [hq.val, hr.val]; exact (Nat.div_add_mod' _ _).symm
  · rw [hr.val]; exact Nat.mod_lt _ (Nat.pos_of_ne_zero h0)

end Sys2Proof.Machine
end

section
/-! SUPPORT. The source's laws (42_kernel.md R255) as sequences of two commands: the second reads what the first wrote, and a
register the first left alone. -/

namespace Sys2Proof.Machine

variable {s t : State}

theorem Completes.imp {i : Instr} {P Q : State → Prop} (h : Completes i s P) (hPQ : ∀ t, P t → Q t) : Completes i s Q := by
  obtain ⟨t, he, ht⟩ := h
  exact ⟨t, he, hPQ t ht⟩

theorem State.Wrote.get_ne {n v : Nat} {rd j : RegIdx} (h : State.Wrote s t n rd v) (hj : rd ≠ j) : t.regs[j] = s.regs[j] :=
  h.frame.completed.regs j (by simpa using hj.symm)

theorem add_then_sub {rd re ra rb : RegIdx} (ha : s.regs[ra].wr = true) (hb : s.regs[rb].wr = true) (hne : rd ≠ rb)
    (hv : s.regs[ra].val + s.regs[rb].val ≤ s.vmax) :
    Completes (.add rd ra rb) s fun t => Completes (.sub re rd rb) t fun u => Reg.Holds u.regs[re] s.regs[ra].val := by
  obtain ⟨-, -, hadd⟩ := addIsExactOrOverflows s rd ra rb
  refine ((hadd ha hb).2 hv).imp fun t ht => ?_
  obtain ⟨-, -, hsub⟩ := subIsExactOrFaultsNegative t re rd rb
  rw [ht.holds.val, ht.get_ne hne] at hsub
  refine ((hsub ht.holds.wr hb).2 (Nat.le_add_left _ _)).imp fun u hu => ?_
  simpa using hu.holds

theorem mul_then_divrem {rd rq rr ra rb : RegIdx} (ha : s.regs[ra].wr = true) (hb : s.regs[rb].wr = true) (hne : rd ≠ rb)
    (hqr : rq ≠ rr) (h0 : s.regs[rb].val ≠ 0) (hv : s.regs[ra].val * s.regs[rb].val ≤ s.vmax) :
    Completes (.mul rd ra rb) s fun t => Completes (.divrem rq rr rd rb) t fun u =>
      Reg.Holds u.regs[rq] s.regs[ra].val ∧ Reg.Holds u.regs[rr] 0 := by
  obtain ⟨-, -, hmul⟩ := mulAndSqrAreExactOrOverflow.1 s rd ra rb
  refine ((hmul ha hb).2 hv).imp fun t ht => ?_
  obtain ⟨-, -, hdiv⟩ := (divremWritesQuotientAndRemainder t rq rr rd rb).2 hqr
  rw [ht.holds.val, ht.get_ne hne] at hdiv
  refine ((hdiv ht.holds.wr hb).2 h0).imp fun u ⟨hq, hr, _⟩ => ?_
  rw [Nat.mul_div_cancel _ (Nat.pos_of_ne_zero h0)] at hq
  rw [Nat.mul_mod_left] at hr
  exact ⟨hq, hr⟩

theorem divrem_then_cmp {rq rr ra rb : RegIdx} (ha : s.regs[ra].wr = true) (hb : s.regs[rb].wr = true) (hqr : rq ≠ rr)
    (hqb : rq ≠ rb) (hrb : rr ≠ rb) (h0 : s.regs[rb].val ≠ 0) :
    Completes (.divrem rq rr ra rb) s fun t => Completes (.cmp rr rb) t fun u => u.flags.lt = true := by
  obtain ⟨-, -, hdiv⟩ := (divremWritesQuotientAndRemainder s rq rr ra rb).2 hqr
  refine ((hdiv ha hb).2 h0).imp fun t ⟨_, hr, _, hlt, hframe⟩ => ?_
  have hkept : t.regs[rb] = s.regs[rb] := hframe.completed.regs rb (by simp [hqb.symm, hrb.symm])
  obtain ⟨-, -, hcmp⟩ := cmpOrdersTwoMagnitudes.1 t rr rb
  rw [hkept] at hcmp
  refine (hcmp hr.wr hb).imp fun u ⟨_, _, _, hflag, _⟩ => ?_
  rw [hflag, decide_eq_true hlt]

/-- A buffer whose first bytes are a string reads back as that string (R205). -/
theorem State.ioString_eq {bytes : List Byte} (h : ∀ j (hj : j < bytes.length), s.ioByte j = bytes[j]) :
    s.ioString bytes.length = bytes :=
  List.ext_getElem (s.ioString_length _) fun j _ hj => by simpa [State.ioString] using h j hj

theorem stb_then_ldb {rd ra : RegIdx} (hs : s.Inv) (ha : s.regs[ra].wr = true) :
    Completes (.stb ra) s fun t => Completes (.ldb rd) t fun u => Reg.Holds u.regs[rd] s.regs[ra].val := by
  obtain ⟨-, -, hstb⟩ := stbExportsMinimalBigEndian s ra hs
  obtain ⟨hfits, hstb⟩ := hstb ha
  refine hstb.imp fun t ⟨hcompleted, _, _, hlen, hbytes, _⟩ => ?_
  obtain ⟨-, -, hldb⟩ := ldbImportsIobufBigEndian t rd
  have hio : t.ioBytes = s.ioBytes := by unfold State.ioBytes; rw [hcompleted.outside.cfg]
  rw [hlen, hio, State.ioString_eq hbytes, beValue_minBE] at hldb
  exact (hldb hfits).2.imp fun u hu => hu.holds

/-- Settles O37, law by law. -/
theorem sourceLawsHoldAcrossCommands : Obligations.SourceLawsHoldAcrossCommands :=
  ⟨fun _ _ _ _ _ => add_then_sub, fun _ _ _ _ _ _ => mul_then_divrem, fun _ _ _ _ _ => divrem_then_cmp,
    fun _ _ _ => stb_then_ldb⟩

end Sys2Proof.Machine
end

section
/-! SUPPORT. The obligations about the ring contexts and the Barrett pipeline (43_ring.md R281 to R287): the quotient estimate and the
residue left to the correction loop, and the bodies of the commands that set, clear and use a context. -/

namespace Sys2Proof.Machine

variable {s : State}

/-! ### The Barrett pipeline -/

/-- The estimate `q3` is the quotient or falls short of it by at most two (R283). -/
theorem Ring.barrettQuotient_bounds {m x : Nat} (hm : m ≠ 0) (hx : digitLen x ≤ 2 * digitLen m) :
    (Ring.ofModulus m).barrettQuotient x ≤ x / m ∧ x / m ≤ (Ring.ofModulus m).barrettQuotient x + 2 := by
  have hpos := Nat.pos_of_ne_zero hm
  have hk := digitLen_pos m
  have hsplit := radix_pow_two_mul hk
  have hlt := (digitLen_le_iff (by omega)).1 hx
  obtain ⟨hle, hnear⟩ := barrett_estimate (radix_pow_pos (digitLen m - 1)) (radix_pow_le_of_ne_zero hm)
    (radix_pow_pos (digitLen m + 1)) (hsplit ▸ hlt)
  rw [← hsplit] at hle hnear
  exact ⟨(Nat.le_div_iff_mul_le hpos).2 hle, Nat.le_of_lt_succ ((Nat.div_lt_iff_lt_mul hpos).2 hnear)⟩

theorem lt_add_of_subtractOnce_lt {m r n : Nat} (h : subtractOnce m r < n) : r < n + m := by
  unfold subtractOnce at h
  split at h <;> omega

/-- The residue before the correction loop is below `3m` (R283; log 22): from no other value do two subtractions end below `m`. -/
theorem Ring.barrettResidue_lt {m x : Nat} (hm : m ≠ 0) (hx : digitLen x ≤ 2 * digitLen m) :
    (Ring.ofModulus m).barrettResidue x < 3 * m := by
  have hreduced : subtractOnce m (subtractOnce m ((Ring.ofModulus m).barrettResidue x)) < m :=
    (Ring.barrettReduce_eq_mod hm hx).trans_lt (Nat.mod_lt x (Nat.pos_of_ne_zero hm))
  have := lt_add_of_subtractOnce_lt (lt_add_of_subtractOnce_lt hreduced)
  omega

/-- Settles O46, by the bounds of the estimate and of the residue. -/
theorem barrettPipelineReduces : Obligations.BarrettPipelineReduces := by
  refine fun m x hm => ⟨fun hx => ?_, Ring.reduce_eq_mod hm x, Ring.preReduce_spec hm x⟩
  obtain ⟨hle, hnear⟩ := Ring.barrettQuotient_bounds hm hx
  exact ⟨hle, hnear, Ring.barrettResidue_lt hm hx, Ring.barrettReduce_eq_mod hm hx⟩

/-! ### Setting and clearing a context -/

/-- A command that stages a context replaces that ring alone (R281, R282). -/
theorem State.writeRing_wrote (s : State) (n : Nat) (rg : RingIdx) (c : Ring) :
    ((s.writeRing rg c).advance n).rings[rg] = c ∧
    (∀ q : RingIdx, q ≠ rg → ((s.writeRing rg c).advance n).rings[q] = s.rings[q]) ∧
    State.Completed s ((s.writeRing rg c).advance n) n [] ∧ ((s.writeRing rg c).advance n).flags = s.flags ∧
    State.IoKept s ((s.writeRing rg c).advance n) :=
  ⟨State.writeRing_get_self s rg c, fun _ hq => State.writeRing_get_ne s c hq,
    { pc := rfl, scratch := rfl, regs := fun _ _ => rfl, status := ⟨rfl, rfl, rfl, rfl, rfl, rfl, rfl, rfl⟩,
      outside := ⟨rfl, rfl, fun _ => rfl, rfl, rfl, rfl⟩ },
    rfl, ⟨fun _ => rfl, rfl⟩⟩

/-- Settles O38, by the two sides of RSET's check on the modulus; RCLR has none. -/
theorem rsetAndRclrSetUpAndTearDownARing : Obligations.RsetAndRclrSetUpAndTearDownARing := by
  refine ⟨fun s rg ra => ⟨encodedAs (row := opcodeRowsRing[0]) rfl rfl, traps_unwrittenRegister rfl (.head _), fun hw =>
      ⟨fun h0 => State.command_traps rfl ((source_bind_written hw _).trans (if_pos h0)),
        fun h0 => State.command_completes rfl ((source_bind_written hw _).trans (if_neg h0)) ?_⟩⟩,
    fun s rg => ⟨encodedAs (row := opcodeRowsRing[1]) rfl rfl,
      State.command_completes rfl rfl (s.writeRing_wrote 1 rg Ring.cleared)⟩⟩
  obtain ⟨hctx, hframe⟩ := s.writeRing_wrote 1 rg (Ring.ofModulus s.regs[ra].val)
  rw [hctx]
  exact ⟨rfl, rfl, rfl, rfl, rfl, rfl, hframe⟩

/-! ### Commands that use a context -/

/-- A body whose ring was not set raises RingNotSet (R280). -/
theorem context_bind_invalid {rg : RingIdx} (hr : s.rings[rg].valid = false) (f : Ring → Except FaultCode State) :
    (s.context rg >>= f) = .error .ringNotSet := by
  rw [State.context_invalid hr]; rfl

/-- A body whose ring is valid goes on with the context RSET stores for its modulus (R281). -/
theorem context_bind_valid (hs : s.Inv) {rg : RingIdx} (hr : s.rings[rg].valid = true) (f : Ring → Except FaultCode State) :
    (s.context rg >>= f) = f (Ring.ofModulus s.rings[rg].m) := by
  rw [State.context_ok hr, ← (hs.ring_eq hr).1]; rfl

/-- A command whose body stages a value of two sources and a context: RingNotSet, or the one write of that value, taken at the
context RSET stores (R280, R281). -/
theorem ringPair_command (hs : s.Inv) {i : Instr} {rd ra rb : RegIdx} {rg : RingIdx} {g : Nat → Nat → Ring → Nat} {v : Nat}
    (he : exec i s = s.command 1 (s.source ra >>= fun a => s.source rb >>= fun c => s.context rg >>= fun ctx =>
      .ok (s.writeReg rd (g a c ctx))))
    (hv : s.rings[rg].m ≠ 0 → g s.regs[ra].val s.regs[rb].val (Ring.ofModulus s.rings[rg].m) = v)
    (ha : s.regs[ra].wr = true) (hb : s.regs[rb].wr = true) :
    (s.rings[rg].valid = false → Traps i s .ringNotSet) ∧
    (s.rings[rg].valid = true → Completes i s fun t => State.Wrote s t 1 rd v) := by
  refine ⟨fun hr => State.command_traps he ((source_bind_pair_written ha hb _).trans (context_bind_invalid hr _)), fun hr => ?_⟩
  obtain ⟨-, hm, -⟩ := hs.ring_eq hr
  rw [← hv hm]
  exact completes_wrote he ((source_bind_pair_written ha hb _).trans (context_bind_valid hs hr _))

/-- Settles O39, by `Reduce(x) = x mod m`. -/
theorem rredReducesModuloTheRing : Obligations.RredReducesModuloTheRing := by
  refine fun s rd ra rg hs => ⟨encodedAs (row := opcodeRowsRing[2]) rfl rfl, traps_unwrittenRegister rfl (.head _), fun ha =>
    ⟨fun hr => State.command_traps rfl ((source_bind_written ha _).trans (context_bind_invalid hr _)), fun hr => ?_⟩⟩
  obtain ⟨-, hm, -⟩ := hs.ring_eq hr
  rw [← Ring.reduce_eq_mod hm]
  exact completes_wrote rfl ((source_bind_written ha _).trans (context_bind_valid hs hr _))

/-- Settles O40, by RMUL's result for the contexts RSET stores. -/
theorem rmulMultipliesModuloTheRing : Obligations.RmulMultipliesModuloTheRing := fun _ _ _ _ _ hs =>
  ⟨encodedAs (row := opcodeRowsRing[3]) rfl rfl, traps_unwrittenPair rfl rfl,
    ringPair_command hs rfl fun hm => Ring.multiply_eq_mod hm _ _⟩

/-- RDIFF's result in the three cases of R287. -/
theorem Ring.difference_cases {m : Nat} (hm : m ≠ 0) (a c : Nat) :
    (Ring.ofModulus m).difference a c = if a = c then 0 else if c < a then (a - c) % m else m - (c - a) % m := by
  rw [Ring.difference_eq hm]
  obtain h | rfl | h := Nat.lt_trichotomy a c
  · rw [if_pos h, if_neg h.ne, if_neg h.asymm]
  · simp
  · rw [if_neg h.asymm, if_neg h.ne', if_pos h]

/-- Settles O41, by the three cases of RDIFF's result. -/
theorem rdiffEmulatesSignedSubtraction : Obligations.RdiffEmulatesSignedSubtraction := fun _ _ _ _ _ hs =>
  ⟨encodedAs (row := opcodeRowsRing[4]) rfl rfl, traps_unwrittenPair rfl rfl,
    ringPair_command hs rfl fun hm => Ring.difference_cases hm _ _⟩

end Sys2Proof.Machine
end

section
/-! SUPPORT. The obligations about the Montgomery engine (44_montgomery.md R320 to R327): the bounds of the REDC datapath, the
three commands on a context that RSET stored for an odd modulus, and the four commands that multiply through Montgomery form. -/

namespace Sys2Proof.Machine

variable {s : State} {rd ra rb : RegIdx} {rg : RingIdx} {m : Nat}

/-! ### The REDC datapath -/

/-- The running value of REDC stays below `2 m R` (R321). -/
theorem Ring.redcFold_lt {t n : Nat} (hodd : m % 2 = 1) (ht : t < m * radix^(digitLen m)) (hn : n ≤ digitLen m) :
    (Ring.ofModulus m).redcFold n t < 2 * m * radix^(digitLen m) := by
  obtain ⟨u, hu, he, -⟩ := Ring.redcFold_spec hodd n t
  have hR : radix^n ≤ radix^(digitLen m) := Nat.pow_le_pow_right radix_pos hn
  have hum : u * m ≤ radix^(digitLen m) * m := Nat.mul_le_mul_right m (hu.le.trans hR)
  calc (Ring.ofModulus m).redcFold n t = t + u * m := he
    _ < m * radix^(digitLen m) + radix^(digitLen m) * m := Nat.add_lt_add_of_lt_of_le ht hum
    _ = 2 * m * radix^(digitLen m) := by ring

/-- The running value of REDC has at most `2k+1` digits (R321). -/
theorem Ring.digitLen_redcFold_le {t n : Nat} (hodd : m % 2 = 1) (ht : t < m * radix^(digitLen m)) (hn : n ≤ digitLen m) :
    digitLen ((Ring.ofModulus m).redcFold n t) ≤ 2 * digitLen m + 1 := by
  refine (digitLen_le_iff (by omega)).2 ((Ring.redcFold_lt hodd ht hn).trans_le ?_)
  have h2m : 2 * m ≤ radix * radix^(digitLen m) := Nat.mul_le_mul (by decide) (modulus_lt_radix_pow m).le
  calc 2 * m * radix^(digitLen m) ≤ radix * radix^(digitLen m) * radix^(digitLen m) := Nat.mul_le_mul_right _ h2m
    _ = radix^(2 * digitLen m + 1) := by ring

/-- The datapath's facts for one input in its domain (R321). -/
theorem Ring.redc_datapath {t : Nat} (hodd : m % 2 = 1) (ht : t < m * radix^(digitLen m)) :
    (∀ n ≤ digitLen m, (Ring.ofModulus m).redcFold n t % radix^n = 0 ∧
      digitLen ((Ring.ofModulus m).redcFold n t) ≤ 2 * digitLen m + 1) ∧
    (Ring.ofModulus m).redcFold (digitLen m) t / radix^(digitLen m) < 2 * m ∧
    (Ring.ofModulus m).redc t < m ∧ (Ring.ofModulus m).redc t * radix^(digitLen m) % m = t % m := by
  refine ⟨fun n hn => ⟨?_, Ring.digitLen_redcFold_le hodd ht hn⟩, ?_, Ring.redc_spec hodd ht⟩
  · obtain ⟨u, -, -, hz⟩ := Ring.redcFold_spec hodd n t
    exact hz
  · exact (Nat.div_lt_iff_lt_mul (radix_pow_pos _)).2 (Ring.redcFold_lt hodd ht le_rfl)

/-- The Montgomery constant inverts the low digit as well as the modulus (R320). -/
theorem montInv_lowDigit (hodd : m % 2 = 1) : (m % radix * (montInv m).toNat + 1) % radix = 0 := by
  rw [← Nat.mod_add_mod, Nat.mod_mul_mod, Nat.mod_add_mod, montInv_spec hodd]

/-- Products of converted operands are converted products (R322). -/
theorem Ring.montMul_toMont (hodd : m % 2 = 1) (a c : Nat) :
    (Ring.ofModulus m).montMul ((Ring.ofModulus m).toMont a) ((Ring.ofModulus m).toMont c) =
      (Ring.ofModulus m).toMont (a * c) := by
  have hm : m ≠ 0 := by omega
  rw [Ring.toMont_eq hm, Ring.toMont_eq hm, Ring.toMont_eq hm, Ring.montMul_form hodd]

/-- Conversion in reduces its operand (R322). -/
theorem Ring.toMont_mod (hm : m ≠ 0) (x : Nat) : (Ring.ofModulus m).toMont (x % m) = (Ring.ofModulus m).toMont x := by
  rw [Ring.toMont_eq hm, Ring.toMont_eq hm, Nat.mod_mul_mod]

/-- Conversion out undoes conversion in (R322). -/
theorem Ring.fromMont_toMont (hodd : m % 2 = 1) (a : Nat) :
    (Ring.ofModulus m).fromMont ((Ring.ofModulus m).toMont a) = a % m := by
  rw [Ring.toMont_eq (by omega), Ring.fromMont_form hodd]

/-- Settles O47, by the invariant of the digit steps and the conversions' rules. -/
theorem redcAndItsConstantMeetTheirInvariants : Obligations.RedcAndItsConstantMeetTheirInvariants := by
  refine ⟨fun m hodd => ?_, fun m heven => if_neg (by omega)⟩
  have hm : m ≠ 0 := by omega
  refine ⟨montInv_spec hodd, montInv_lowDigit hodd, fun t => Ring.redc_datapath hodd, Ring.toMont_eq hm,
    Ring.fromMont_spec hodd, fun a c => ?_, Ring.fromMont_toMont hodd, ?_⟩
  · rw [Ring.montMul_toMont hodd, Ring.toMont_mod hm]
  · rw [Ring.toMont_eq hm, Nat.one_mul]

/-! ### The commands -/

/-- A Montgomery command that has passed its source checks takes RingNotSet, then EvenModulus (R323). -/
theorem oddRing_traps (hs : s.Inv) {i : Instr} {body : Except FaultCode State} {f : Ring → Except FaultCode State}
    (he : exec i s = s.command 1 body) (hb : body = s.oddContext rg >>= f) :
    (s.rings[rg].valid = false → Traps i s .ringNotSet) ∧
    (s.rings[rg].valid = true → s.rings[rg].m % 2 = 0 → Traps i s .evenModulus) := by
  refine ⟨fun hr => State.command_traps he ?_, fun hr heven => State.command_traps he ?_⟩
  · rw [hb, State.oddContext_invalid hr]; rfl
  · have ho : s.rings[rg].odd = false := by
      rw [(hs.ring_eq hr).1, Ring.ofModulus_odd]; exact decide_eq_false (by omega)
    rw [hb, State.oddContext_even hr ho]; rfl

/-- A Montgomery command's body on a context for an odd modulus goes on with it (R323). -/
theorem oddContext_bind_odd (hc : s.rings[rg] = Ring.ofModulus m) (hodd : m % 2 = 1) (f : Ring → Except FaultCode State) :
    (s.oddContext rg >>= f) = f (Ring.ofModulus m) := by
  rw [State.oddContext_ok (by rw [hc]; rfl) (by rw [hc, Ring.ofModulus_odd]; exact decide_eq_true hodd), hc]; rfl

/-- RTOM on an odd ring writes its source's Montgomery form (R324). -/
theorem rtom_completes (hc : s.rings[rg] = Ring.ofModulus m) (hodd : m % 2 = 1) (ha : s.regs[ra].wr = true) :
    Completes (.rtom rd ra rg) s fun t => State.Wrote s t 1 rd ((Ring.ofModulus m).toMont s.regs[ra].val) :=
  completes_wrote rfl ((source_bind_written ha _).trans (oddContext_bind_odd hc hodd _))

/-- RFROMM on an odd ring writes its source out of Montgomery form (R325). -/
theorem rfromm_completes (hc : s.rings[rg] = Ring.ofModulus m) (hodd : m % 2 = 1) (ha : s.regs[ra].wr = true) :
    Completes (.rfromm rd ra rg) s fun t => State.Wrote s t 1 rd ((Ring.ofModulus m).fromMont s.regs[ra].val) :=
  completes_wrote rfl ((source_bind_written ha _).trans (oddContext_bind_odd hc hodd _))

/-- RMMUL on an odd ring writes the Montgomery product of its sources' residues (R326). -/
theorem rmmul_completes (hc : s.rings[rg] = Ring.ofModulus m) (hodd : m % 2 = 1) (ha : s.regs[ra].wr = true)
    (hb : s.regs[rb].wr = true) :
    Completes (.rmmul rd ra rb rg) s fun t =>
      State.Wrote s t 1 rd ((Ring.ofModulus m).montMul (s.regs[ra].val % m) (s.regs[rb].val % m)) := by
  have hm : m ≠ 0 := by omega
  rw [← Ring.reduce_eq_mod hm, ← Ring.reduce_eq_mod hm]
  exact completes_wrote rfl ((source_bind_pair_written ha hb _).trans (oddContext_bind_odd hc hodd _))

/-- The Montgomery product of two residues, as the residue `v` with `v R ≡ x y` (R326). -/
theorem Ring.montMul_mod_spec (hodd : m % 2 = 1) (x y : Nat) :
    (Ring.ofModulus m).montMul (x % m) (y % m) < m ∧
    (Ring.ofModulus m).montMul (x % m) (y % m) * radix^(digitLen m) % m = x * y % m := by
  have hm : 0 < m := by omega
  rw [Nat.mul_mod x y]
  exact Ring.montMul_spec hodd (Nat.mod_lt x hm) (Nat.mod_lt y hm)

/-- Settles O42, by the checks in their order and the functions of R322. -/
theorem montgomeryCommandsConvertAndMultiply : Obligations.MontgomeryCommandsConvertAndMultiply := by
  refine fun s rd ra rb rg hs =>
    ⟨⟨encodedAs (row := opcodeRowsRing[7]) rfl rfl, encodedAs (row := opcodeRowsRing[8]) rfl rfl,
        encodedAs (row := opcodeRowsRing[9]) rfl rfl⟩,
      fun hw => ⟨traps_unwrittenRegister rfl (.head _) hw, traps_unwrittenRegister rfl (.head _) hw⟩,
      traps_unwrittenPair rfl rfl, fun ha => ?_, fun ha hb => ?_⟩
  · obtain ⟨hin, hinEven⟩ := oddRing_traps hs (i := .rtom rd ra rg) rfl (source_bind_written ha _)
    obtain ⟨hout, houtEven⟩ := oddRing_traps hs (i := .rfromm rd ra rg) rfl (source_bind_written ha _)
    refine ⟨fun hr => ⟨hin hr, hout hr⟩, fun hr heven => ⟨hinEven hr heven, houtEven hr heven⟩, fun hr hodd => ?_⟩
    obtain ⟨hc, hm, -⟩ := hs.ring_eq hr
    rw [← Ring.toMont_eq hm]
    exact ⟨rtom_completes hc hodd ha,
      (rfromm_completes hc hodd ha).imp fun t ht => ⟨_, ht, Ring.fromMont_spec hodd _⟩⟩
  · obtain ⟨hmul, hmulEven⟩ := oddRing_traps hs (i := .rmmul rd ra rb rg) rfl (source_bind_pair_written ha hb _)
    refine ⟨hmul, hmulEven, fun hr hodd => ?_⟩
    exact (rmmul_completes (hs.ring_eq hr).1 hodd ha hb).imp fun t ht => ⟨_, ht, Ring.montMul_mod_spec hodd _ _⟩

/-! ### Multiplication through Montgomery form -/

/-- Converting in, multiplying and converting out gives the residue of the product (R327). -/
theorem Ring.montgomeryPath_eq_mod (hodd : m % 2 = 1) (a c : Nat) :
    (Ring.ofModulus m).fromMont ((Ring.ofModulus m).montMul ((Ring.ofModulus m).toMont a) ((Ring.ofModulus m).toMont c)) =
      a * c % m := by
  rw [Ring.montMul_toMont hodd, Ring.fromMont_toMont hodd]

/-- A Montgomery form is a residue (R322). -/
theorem Ring.toMont_mod_self (hm : m ≠ 0) (x : Nat) : (Ring.ofModulus m).toMont x % m = (Ring.ofModulus m).toMont x := by
  rw [Ring.toMont_eq hm, Nat.mod_mod]

/-- A command whose only effect is a register write leaves a ring's context in place. -/
theorem State.Wrote.ring_eq {t : State} {n v : Nat} {c : Ring} (h : State.Wrote s t n rd v) (hc : s.rings[rg] = c) :
    t.rings[rg] = c := by
  rw [h.frame.rings, hc]

/-- RTOM, RTOM, RMMUL, RFROMM on an odd ring end with the residue of the product: the context stays in place, and the second
conversion overwrites neither its own source nor the first form (R327). -/
theorem montgomeryCommands_multiply {d e : RegIdx} (hc : s.rings[rg] = Ring.ofModulus m) (hodd : m % 2 = 1)
    (ha : s.regs[ra].wr = true) (hb : s.regs[rb].wr = true) (hdb : d ≠ rb) (hde : d ≠ e) :
    Completes (.rtom d ra rg) s fun t => Completes (.rtom e rb rg) t fun u => Completes (.rmmul d d e rg) u fun x =>
      Completes (.rfromm d d rg) x fun y => Reg.Holds y.regs[d] (s.regs[ra].val * s.regs[rb].val % m) := by
  have hm : m ≠ 0 := by omega
  refine (rtom_completes hc hodd ha).imp fun t ht => ?_
  have hct := ht.ring_eq hc
  have htb : t.regs[rb] = s.regs[rb] := ht.get_ne hdb
  refine (rtom_completes hct hodd (by rw [htb, hb])).imp fun u hu => ?_
  have hcu := hu.ring_eq hct
  have hud : u.regs[d] = t.regs[d] := hu.get_ne hde.symm
  refine (rmmul_completes hcu hodd (by rw [hud, ht.holds.wr]) hu.holds.wr).imp fun x hx => ?_
  refine (rfromm_completes (hx.ring_eq hcu) hodd hx.holds.wr).imp fun y hy => ?_
  have hv := hy.holds
  rwa [hx.holds.val, hu.holds.val, hud, ht.holds.val, htb, Ring.toMont_mod_self hm, Ring.toMont_mod_self hm,
    Ring.montgomeryPath_eq_mod hodd] at hv

/-- Settles O45: both paths give the residue of the product, as functions and as runs of commands. -/
theorem montgomeryAndBarrettPathsAgree : Obligations.MontgomeryAndBarrettPathsAgree := by
  refine ⟨fun m a c hodd => ⟨Ring.montgomeryPath_eq_mod hodd a c, Ring.multiply_eq_mod (by omega) a c⟩,
    fun s d e ra rb rg hs ha hb hr hodd hdb hde => ⟨s.regs[ra].val * s.regs[rb].val % s.rings[rg].m,
      montgomeryCommands_multiply (hs.ring_eq hr).1 hodd ha hb hdb hde, ?_⟩⟩
  obtain ⟨-, -, hmul⟩ := rmulMultipliesModuloTheRing s d ra rb rg hs
  exact ((hmul ha hb).2 hr).imp fun t ht => ht.holds

end Sys2Proof.Machine
end

section
/-! SUPPORT. The obligations about the exponentiation controller (45_pow.md R350 to R357): the two commands write PowMod, and every
path of the controller computes it. -/

namespace Sys2Proof.Machine

/-- Settles O43, by the result of each command's path for the contexts RSET stores. -/
theorem powersAreExactModuloTheRing : Obligations.PowersAreExactModuloTheRing := by
  refine ⟨fun s rd ra rb rg hs => ⟨encodedAs (row := opcodeRowsRing[5]) rfl rfl, traps_unwrittenPair rfl rfl,
      ringPair_command hs rfl fun hm => Ring.pow_eq hm _ _⟩,
    fun s rd rb imm rg hs => ⟨encodedAs (row := opcodeRowsRing[6]) rfl rfl, traps_unwrittenRegister rfl (.head _), fun hb =>
      ⟨fun hr => State.command_traps rfl ((source_bind_written hb _).trans (context_bind_invalid hr _)), fun hr => ?_⟩⟩⟩
  obtain ⟨-, hm, -⟩ := hs.ring_eq hr
  have hpow : (Ring.ofModulus s.rings[rg].m).powImm (immUnsigned imm) s.regs[rb].val =
      imm.toNat ^ s.regs[rb].val % s.rings[rg].m := Ring.powImm_eq hm _ _
  rw [← hpow]
  exact completes_wrote rfl ((source_bind_written hb _).trans (context_bind_valid hs hr _))

/-- Settles O44: each of the four scans computes PowMod, and the value both commands write is the power of the one base (O43). -/
theorem exponentiationPathsAgree : Obligations.ExponentiationPathsAgree := by
  refine ⟨fun m base e hm => ⟨fun hodd => Ring.oddPow_eq hodd base e, Ring.evenPow_eq hm base e,
      fun _ => Ring.smallPow_eq hm base e, Ring.pow2_eq hm e⟩,
    fun s rd ra rb imm rg hs ha hb hr himm => ⟨imm.toNat ^ s.regs[rb].val % s.rings[rg].m, ?_, ?_⟩⟩
  · obtain ⟨-, -, hrpowi⟩ := powersAreExactModuloTheRing.2 s rd rb imm rg hs
    exact ((hrpowi hb).2 hr).imp fun t ht => ht.holds
  · obtain ⟨-, -, hrpow⟩ := powersAreExactModuloTheRing.1 s rd ra rb rg hs
    rw [← himm]
    exact ((hrpow ha hb).2 hr).imp fun t ht => ht.holds

end Sys2Proof.Machine
end

section
/-! SUPPORT. Faults, trap return and the interrupt output (60_exceptions.md R400 to R410; 70_reset_and_hazards.md R451, R454): what a
step does to the run's report, said once (RunEffect), and the obligations about the faults and IRQ. -/

namespace Sys2Proof.Machine

variable {s t u : State}

/-! ### Faults of a command -/

/-- A Montgomery command's body on an unset ring raises RingNotSet (R280, R323). -/
theorem oddContext_bind_invalid {rg : RingIdx} (hr : s.rings[rg].valid = false) (f : Ring → Except FaultCode State) :
    (s.oddContext rg >>= f) = .error .ringNotSet := by
  rw [State.oddContext_invalid hr]; rfl

/-- A command whose sources are written and whose ring is not set takes the trap RingNotSet (R280, R402 item 5). -/
theorem traps_ringNotSet {i : Instr} {rg : RingIdx} (hw : ∀ r ∈ i.sources, s.regs[r].wr = true) (hi : i.ringRead = some rg)
    (hr : s.rings[rg].valid = false) : Traps i s .ringNotSet := by
  cases i with
  | rred _ ra q | rpowi _ _ ra q =>
    cases hi
    exact State.command_traps rfl ((source_bind_written (hw _ (.head _)) _).trans (context_bind_invalid hr _))
  | rtom _ ra q | rfromm _ ra q =>
    cases hi
    exact State.command_traps rfl ((source_bind_written (hw _ (.head _)) _).trans (oddContext_bind_invalid hr _))
  | rmul _ ra rb q | rdiff _ ra rb q | rpow _ ra rb q =>
    cases hi
    have hb : s.regs[rb].wr = true := hw _ (.tail _ (.head _))
    exact State.command_traps rfl ((source_bind_pair_written (hw _ (.head _)) hb _).trans (context_bind_invalid hr _))
  | rmmul _ ra rb q =>
    cases hi
    have hb : s.regs[rb].wr = true := hw _ (.tail _ (.head _))
    exact State.command_traps rfl ((source_bind_pair_written (hw _ (.head _)) hb _).trans (oddContext_bind_invalid hr _))
  | _ => cases hi

/-- Settles O13, by the order of the checks in every command's body. -/
theorem unwrittenSourcesFaultBeforeUnsetRings : Obligations.UnwrittenSourcesFaultBeforeUnsetRings := fun _ _ hi =>
  ⟨fun ⟨_, hr, hw⟩ => traps_unwrittenRegister hi hr hw, fun hw _ => traps_ringNotSet hw⟩

/-- A step of the core that raises FAULT is trap entry (R404). -/
theorem trapped_of_fault_raised (hu : State.CoreTurn s u) (hs : s.fault = false) (h : step s = .next t) (ht : t.fault = true) :
    ∃ c, c ≠ .none ∧ State.Trapped u t c := by
  have hkept : t.fault ≠ s.fault := by rw [hs, ht]; nofun
  obtain ⟨u', hu', -, rfl⟩ | ⟨u', c, hu', -, hc, rfl⟩ | ⟨u', i, v, hu', -, hv, -, rfl⟩ | ⟨ev, rest, hi, hev, -⟩ := step_next_cases h
  · obtain ⟨ins, rfl⟩ := hu'.exists_inputs
    exact absurd rfl hkept
  · obtain rfl := hu.unique hu'
    exact ⟨c, hc, u'.trap_trapped c⟩
  · obtain ⟨ins, rfl⟩ := hu'.exists_inputs
    obtain ⟨-, -, hfault, -⟩ := hv.report
    exact absurd hfault hkept
  · exact absurd (hu.not_event hi) hev

/-- Settles O12: a command takes its trap or commits a staged state, and only a trap raises FAULT. -/
theorem everyCommandCompletesOrTakesAPreciseFault : Obligations.EveryCommandCompletesOrTakesAPreciseFault := by
  refine ⟨fun i s => ?_, fun s u t hu hs h ht => trapped_of_fault_raised hu hs h ht⟩
  obtain ⟨c, hc, he⟩ | ⟨u, hu, he⟩ := exec_cases i s
  · exact ⟨_, he, .inl ⟨c, hc, s.trap_trapped c⟩⟩
  · obtain ⟨hie, hhwerr, hfault, hcode, hfpc, hfcmd, hpc⟩ := hu.report
    obtain ⟨hcfg, hmem, hword, hin, hresp, hepoch⟩ := hu.outside
    refine ⟨_, he, .inr ⟨by rw [State.advance_pc, hpc], rfl, hfault, hcode, hfpc, hfcmd, hie, hhwerr,
      ⟨hcfg, hmem, hword, hin, hresp, hepoch⟩, fun hne => ?_⟩⟩
    obtain ⟨hhalt, -⟩ | ⟨-, hrun⟩ := hu.run
    · exact absurd hhalt hne
    · exact hrun

/-! ### What a step does to the run's report -/

/-- The run and its report to the host go on as before; HWERR may be set, but not where PC moves (R451). -/
structure State.RunKept (s t : State) : Prop where
  ie        : t.ie = s.ie
  busy      : t.busy = s.busy
  done      : t.done = s.done
  fault     : t.fault = s.fault
  faultCode : t.faultCode = s.faultCode
  hwerrOrPc : t.hwerr = s.hwerr ∨ t.pc = s.pc

/-- The core's turn ends the run, with DONE or with FAULT (R184). -/
structure State.RunStops (s t : State) : Prop where
  turn  : ∃ u, State.CoreTurn s u
  busy  : s.busy = true
  idle  : t.busy = false
  cause : t.done = true ∨ t.fault = true
  fault : s.fault = true → t.fault = true
  ie    : t.ie = s.ie
  hwerr : t.hwerr = s.hwerr

/-- The ways a step can treat the run and its report: on the core's turn it keeps them or ends the run, and on the host's side only
CTRL and the resets change them (R54, R184, R450). -/
inductive RunEffect (s t : State) : Prop
  | kept (h : State.RunKept s t)
  | stops (h : State.RunStops s t)
  | ctrl (v : Word) (rest : List HostEvent) (hc : State.CtrlNext s v) (hv : v.getLsbD 3 = false)
      (ht : t = State.writeCtrl { s with inputs := rest } v)
  | reset (hr : State.ResetNext s) (ht : State.ResetValues t)

/-- A host event leaves the run alone, or is a CTRL write or a reset. -/
theorem HostEffect.runEffect {ev : HostEvent} {rest : List HostEvent} (hi : s.inputs = ev :: rest)
    (h : HostEffect { s with inputs := rest } ev t) : RunEffect s t := by
  cases h with
  | softReset addr v ho hv =>
    exact .reset (State.resetNext_of_srst hi ho hv) (State.softReset_resetValues { s with inputs := rest } _ _ _)
  | powerOn =>
    exact .reset (State.resetNext_of_powerOn hi) (State.softReset_resetValues { s with inputs := rest } _ _ _)
  | ctrl addr v ho hv => exact .ctrl v rest (State.ctrlNext_of_write hi ho) hv rfl
  | pcWritten => exact .kept ⟨rfl, rfl, rfl, rfl, rfl, .inl rfl⟩
  | _ => exact .kept ⟨rfl, rfl, rfl, rfl, rfl, .inr rfl⟩

/-- A committed command other than HALT keeps the run going; HALT ends it with DONE (R180, R181). -/
theorem Staged.runEffect {i : Instr} (h : Staged u i t) (hu : State.CoreTurn s u) (hb : s.busy = true) (n : Nat) :
    RunEffect s (t.advance n) := by
  have turn : ∃ u, State.CoreTurn s u := ⟨u, hu⟩
  obtain ⟨ins, rfl⟩ := hu.exists_inputs
  obtain ⟨hie, hhwerr, hfault, hcode, -⟩ := h.report
  obtain ⟨-, rfl⟩ | ⟨-, hbusy, hdone⟩ := h.run
  · exact .stops ⟨turn, hb, rfl, .inl rfl, id, rfl, rfl⟩
  · exact .kept ⟨hie, hbusy, hdone, hfault, hcode, .inl hhwerr⟩

/-- Every step has one of the listed effects on the run. -/
theorem step_runEffect (h : step s = .next t) : RunEffect s t := by
  obtain ⟨u, hu, -, rfl⟩ | ⟨u, c, hu, hb, -, rfl⟩ | ⟨u, i, v, hu, hb, hv, -, rfl⟩ | ⟨ev, rest, hi, -, he⟩ := step_next_cases h
  · obtain ⟨ins, rfl⟩ := hu.exists_inputs
    exact .kept ⟨rfl, rfl, rfl, rfl, rfl, .inl rfl⟩
  · have turn : ∃ u, State.CoreTurn s u := ⟨u, hu⟩
    obtain ⟨ins, rfl⟩ := hu.exists_inputs
    exact .stops ⟨turn, hb, rfl, .inr rfl, fun _ => rfl, rfl, rfl⟩
  · exact hv.runEffect hu hb _
  · exact he.runEffect hi

/-! ### Clearing FAULT, starting a run and setting HWERR -/

/-- CTRL clears FAULT by CLR while idle only (R54, R405). -/
theorem State.writeCtrl_clears_fault {v : Word} (hv : v.getLsbD 3 = false) (hs : s.fault = true)
    (h : (s.writeCtrl v).fault = false) : s.busy = false ∧ v.getLsbD 2 = true := by
  rw [State.writeCtrl_eq s v hv] at h
  simpa [hs, and_comm, -BitVec.getLsbD_eq_getElem] using h

/-- From FAULT = 1, CTRL starts a run by START together with CLR only (R405, R454). -/
theorem State.writeCtrl_starts_faulted {v : Word} (hv : v.getLsbD 3 = false) (hs : s.fault = true) (hb : s.busy = false)
    (h : (s.writeCtrl v).busy = true) : v.getLsbD 2 = true ∧ v.getLsbD 0 = true := by
  rw [State.writeCtrl_eq s v hv] at h
  simpa [hs, hb, and_comm, -BitVec.getLsbD_eq_getElem] using h

/-- CTRL sets HWERR by a refused CLR or START, which does nothing else to the run (R451 cases 2 and 3). -/
theorem State.writeCtrl_sets_hwerr {v : Word} (hv : v.getLsbD 3 = false) (hs : s.hwerr = false)
    (h : (s.writeCtrl v).hwerr = true) :
    (s.writeCtrl v).busy = s.busy ∧ (s.writeCtrl v).fault = s.fault ∧ (s.writeCtrl v).faultCode = s.faultCode ∧
      (s.writeCtrl v).pc = s.pc := by
  rw [State.writeCtrl_eq s v hv] at h ⊢
  cases hb : s.busy with
  | true => simp
  | false =>
    have hclr : v.getLsbD 2 = false := by
      cases h2 : v.getLsbD 2 with
      | false => rfl
      | true => simp [hs, hb, h2, -BitVec.getLsbD_eq_getElem] at h
    obtain ⟨h0, hrefused⟩ : v.getLsbD 0 = true ∧ (v.getLsbD 0 = false ∨ s.fault = true) := by
      simpa [hs, hb, hclr, -BitVec.getLsbD_eq_getElem] using h
    have hfault : s.fault = true := hrefused.resolve_left (by rw [h0]; nofun)
    simp [hclr, hfault, -BitVec.getLsbD_eq_getElem]

/-- A step that clears FAULT is a reset or an idle CTRL.CLR (R405, R406). -/
theorem reset_or_clear_of_fault_cleared (h : step s = .next t) (hs : s.fault = true) (ht : t.fault = false) :
    State.ResetNext s ∨ (s.busy = false ∧ ∃ v : Word, State.CtrlNext s v ∧ v.getLsbD 2 = true) := by
  cases step_runEffect h with
  | kept hk => exact absurd (hk.fault.symm.trans ht) (by rw [hs]; nofun)
  | stops hk => exact absurd ((hk.fault hs).symm.trans ht) nofun
  | reset hr => exact .inl hr
  | ctrl v rest hc hv he =>
    subst he
    obtain ⟨hb, h2⟩ := State.writeCtrl_clears_fault (s := { s with inputs := rest }) hv hs ht
    exact .inr ⟨hb, v, hc, h2⟩

/-- A step that starts a run from FAULT = 1 is a CTRL write with CLR and START (R405, R454). -/
theorem clear_and_start_of_faulted_start (h : step s = .next t) (hs : s.fault = true) (hb : s.busy = false)
    (ht : t.busy = true) : ∃ v : Word, State.CtrlNext s v ∧ v.getLsbD 2 = true ∧ v.getLsbD 0 = true := by
  cases step_runEffect h with
  | kept hk => exact absurd (hk.busy.symm.trans ht) (by rw [hb]; nofun)
  | stops hk => exact absurd (hb.symm.trans hk.busy) nofun
  | reset hr hk => exact absurd (hk.status.1.symm.trans ht) nofun
  | ctrl v rest hc hv he =>
    subst he
    exact ⟨v, hc, State.writeCtrl_starts_faulted (s := { s with inputs := rest }) hv hs hb ht⟩

/-- A step that sets HWERR leaves the run as it was (R451). -/
theorem run_kept_of_hwerr_set (h : step s = .next t) (hs : s.hwerr = false) (ht : t.hwerr = true) :
    t.busy = s.busy ∧ t.fault = s.fault ∧ t.faultCode = s.faultCode ∧ t.pc = s.pc := by
  have hset : t.hwerr ≠ s.hwerr := by rw [hs, ht]; nofun
  cases step_runEffect h with
  | kept hk => exact ⟨hk.busy, hk.fault, hk.faultCode, hk.hwerrOrPc.resolve_left hset⟩
  | stops hk => exact absurd hk.hwerr hset
  | reset hr hk =>
    obtain ⟨-, -, -, hhwerr⟩ := hk.status
    exact absurd (hhwerr.symm.trans ht) nofun
  | ctrl v rest hc hv he =>
    subst he
    exact State.writeCtrl_sets_hwerr (s := { s with inputs := rest }) hv hs ht

/-- Settles O58, by what a step does to the run. -/
theorem faultIsHeldUntilClearedOrReset : Obligations.FaultIsHeldUntilClearedOrReset := fun _ _ h =>
  ⟨reset_or_clear_of_fault_cleared h, clear_and_start_of_faulted_start h, run_kept_of_hwerr_set h⟩

/-! ### The interrupt output -/

theorem State.irq_iff (s : State) : s.irq = true ↔ s.ie = true ∧ (s.done = true ∨ s.fault = true) := by simp [State.irq]

/-- STATUS shows IRQ in bit 4 (R53). -/
theorem State.statusWord_irq (s : State) : s.statusWord.getLsbD 4 = s.irq := by
  simp [State.statusWord, -BitVec.getLsbD_eq_getElem]

theorem State.RunKept.irq (h : State.RunKept s t) : t.irq = s.irq := by simp only [State.irq, h.ie, h.done, h.fault]

/-- A run ends with IRQ at the level of IE (R404, R410). -/
theorem State.RunStops.irq (h : State.RunStops s t) : t.irq = s.ie := by
  rw [Bool.eq_iff_iff, State.irq_iff, h.ie]
  exact and_iff_left h.cause

/-- CTRL raises IRQ by setting IE over a pending cause only (R410). -/
theorem State.writeCtrl_raises_irq {v : Word} (hv : v.getLsbD 3 = false) (hs : s.irq = false)
    (h : (s.writeCtrl v).irq = true) : s.ie = false ∧ (s.done = true ∨ s.fault = true) ∧ v.getLsbD 1 = true := by
  obtain ⟨hie, hcause⟩ := (State.irq_iff _).1 h
  rw [State.writeCtrl_eq s v hv] at hie hcause
  have hpending : s.done = true ∨ s.fault = true := hcause.imp
    (fun hd => by simp only [Bool.and_eq_true] at hd; exact hd.1.1)
    (fun hf => by simp only [Bool.and_eq_true] at hf; exact hf.1)
  refine ⟨?_, hpending, hie⟩
  cases hsie : s.ie with
  | false => rfl
  | true => exact absurd ((State.irq_iff s).2 ⟨hsie, hpending⟩) (by rw [hs]; nofun)

/-- A CTRL write that keeps IE and asks for neither CLR nor START keeps IRQ (R54, R410). -/
theorem State.writeCtrl_keeps_irq {v : Word} (hv : v.getLsbD 3 = false) (hs : s.irq = true) (h1 : v.getLsbD 1 = true)
    (h2 : v.getLsbD 2 = false) (h0 : v.getLsbD 0 = false) : (s.writeCtrl v).irq = true := by
  obtain ⟨-, hcause⟩ := (State.irq_iff s).1 hs
  rw [State.irq_iff, State.writeCtrl_eq s v hv]
  simpa [h1, h2, h0, -BitVec.getLsbD_eq_getElem] using hcause

theorem State.writeCtrl_lowers_irq {v : Word} (hv : v.getLsbD 3 = false) (hs : s.irq = true)
    (h : (s.writeCtrl v).irq = false) : v.getLsbD 1 = false ∨ v.getLsbD 2 = true ∨ v.getLsbD 0 = true := by
  by_contra! hno
  simp only [ne_eq, Bool.not_eq_true, Bool.not_eq_false] at hno
  obtain ⟨h1, h2, h0⟩ := hno
  exact absurd ((State.writeCtrl_keeps_irq hv hs h1 h2 h0).symm.trans h) nofun

/-- A step that raises IRQ ends a run with IE = 1, or sets IE over a pending cause (R410). -/
theorem run_stops_or_ie_set_of_irq_raised (h : step s = .next t) (hs : s.irq = false) (ht : t.irq = true) :
    ((∃ u, State.CoreTurn s u) ∧ s.busy = true ∧ t.busy = false ∧ s.ie = true) ∨
    (s.ie = false ∧ (s.done = true ∨ s.fault = true) ∧ ∃ v : Word, State.CtrlNext s v ∧ v.getLsbD 1 = true) := by
  cases step_runEffect h with
  | kept hk => exact absurd (hk.irq.symm.trans ht) (by rw [hs]; nofun)
  | stops hk => exact .inl ⟨hk.turn, hk.busy, hk.idle, hk.irq.symm.trans ht⟩
  | reset hr hk => exact absurd (hk.irq.symm.trans ht) nofun
  | ctrl v rest hc hv he =>
    subst he
    obtain ⟨hie, hcause, h1⟩ := State.writeCtrl_raises_irq (s := { s with inputs := rest }) hv hs ht
    exact .inr ⟨hie, hcause, v, hc, h1⟩

/-- A step that lowers IRQ is a reset, or a CTRL write with IE = 0, CLR or START (R410). -/
theorem reset_or_ctrl_of_irq_lowered (h : step s = .next t) (hs : s.irq = true) (ht : t.irq = false) :
    State.ResetNext s ∨
    ∃ v : Word, State.CtrlNext s v ∧ (v.getLsbD 1 = false ∨ v.getLsbD 2 = true ∨ v.getLsbD 0 = true) := by
  cases step_runEffect h with
  | kept hk => exact absurd (hk.irq.symm.trans ht) (by rw [hs]; nofun)
  | stops hk =>
    obtain ⟨hie, -⟩ := (State.irq_iff s).1 hs
    exact absurd (hie.symm.trans (hk.irq.symm.trans ht)) nofun
  | reset hr => exact .inl hr
  | ctrl v rest hc hv he =>
    subst he
    exact .inr ⟨v, hc, State.writeCtrl_lowers_irq (s := { s with inputs := rest }) hv hs ht⟩

/-- Settles O59, by what a step does to the run and so to IRQ. -/
theorem interruptRisesAndFallsForItsCausesOnly : Obligations.InterruptRisesAndFallsForItsCausesOnly :=
  ⟨fun s => ⟨s.statusWord_irq, s.irq_iff⟩, fun _ _ h =>
    ⟨run_stops_or_ie_set_of_irq_raised h, reset_or_ctrl_of_irq_lowered h⟩⟩

end Sys2Proof.Machine
end
